-- ==== Sys2Proof/Word.lean ====
section
/-! DEFINITION. The word types of HUFFCORE (00_scope.md R11, R13): bit 0 is the least significant bit. -/

namespace Sys2Proof

/-- A register, a port address or a port data word (R11, R60). -/
abbrev Word := BitVec 32

/-- A symbol or a packed byte (R68). -/
abbrev Byte := BitVec 8

/-- The id of a node-pool entry, 0 to 510 (10_state.md R41). -/
abbrev NodeId := BitVec 9

/-- The 256 bit cells of one symbol's CODE_BITS (10_state.md R43); code bit 0, the first bit emitted, is the MOST
significant bit, which is the order of the window words 1 to 8 (R44). -/
abbrev CodeCells := BitVec 256

/-- A bitstring (R14): the head of the list is bit 0, the first bit emitted or read. -/
abbrev Bits := List Bool

end Sys2Proof
end

