-- ==== Sys2Proof/Machine/Bits.lean ====
section
/-! DEFINITION. Bitstrings and their storage forms (00_scope.md R14, 10_state.md R43, R44). -/

namespace Sys2Proof.Machine

/-- The number that a bitstring writes, most significant bit first. -/
def bitsVal : Bits → Nat
  | [] => 0
  | b :: bs => b.toNat * 2 ^ bs.length + bitsVal bs

/-- `bits8(v)` of R14: the 8-bit string of a byte, most significant bit first. -/
def bits8 (v : Byte) : Bits :=
  (List.range 8).map v.getMsbD

/-- `byte(b)` of R14, the inverse of `bits8` on strings of 8 bits. -/
def byteOfBits (b : Bits) : Byte :=
  BitVec.ofNat 8 (bitsVal b)

/-- `zeros(k)` of R14. -/
def zeros (k : Nat) : Bits :=
  List.replicate k false

/-- `p ++ zeros(256 - len(p))` as the bit cells of a symbol (R43, R170). -/
def cellsOfBits (p : Bits) : CodeCells :=
  BitVec.ofNat 256 (bitsVal p * 2 ^ (256 - p.length))

/-- `take(CODE_BITS[s], n)` (R43): code bit 0 is the most significant cell. -/
def takeCells (c : CodeCells) (n : Nat) : Bits :=
  (List.range n).map c.getMsbD

/-- Window word j + 1 of a symbol, for j = 0 to 7: code bit k stands in word 1 + (k div 32) at bit 31 - (k mod 32)
(R44). -/
def cellWord (c : CodeCells) (j : Nat) : Word :=
  c.extractLsb' (224 - 32 * j) 32

/-- The cells after window word j + 1 of the symbol is written with v (R44). -/
def setCellWord (c : CodeCells) (j : Nat) (v : Word) : CodeCells :=
  let mask : CodeCells := (0xFFFFFFFF#256) <<< (224 - 32 * j)
  (c &&& ~~~mask) ||| (v.setWidth 256 <<< (224 - 32 * j))

end Sys2Proof.Machine
end

