-- ==== Sys2Proof/Syntax.lean ====
section
/-! DEFINITION. The commands of the engine (30_encoding.md R92) and the statements of a host script (R96). -/

namespace Sys2Proof

/-- The ten commands of R92, one constructor per row of the opcode table. No command word has an operand field (R91). -/
inductive Instr
  | nop
  | clear
  | freqCount
  | rleEncode
  | rleDecode
  | treeBuild
  | codeGen
  | pack
  | unpack
  | huffEncode
deriving DecidableEq, Repr

/-- What the host's side does, one statement at a time. `wr`, `rd` and `wait` are the statements of R96 (`CMD` and the
pseudo-statements of R98 expand to them, Machine/Script.lean). The two narrow accesses are what R70 says a model must
refuse. `reset` is the reset event of R280, placed in the script (log 11). -/
inductive HostStmt
  /-- `WR addr, value`: PortWrite(addr, value). -/
  | wr (addr value : Word)
  /-- `RD addr -> name`: PortRead(addr), the result bound to name. -/
  | rd (addr : Word) (name : String)
  /-- `WAIT`: repeats `RD STATUS -> s` until `s[0] = 0`. -/
  | wait
  /-- A read of fewer than four bytes (R70). -/
  | narrowRead (addr : Word) (bytes : Nat) (name : String)
  /-- A write of fewer than four bytes (R70). -/
  | narrowWrite (addr : Word) (bytes : Nat) (value : Word)
  /-- The reset event (R280). -/
  | reset
deriving DecidableEq, Repr

/-- A host script (R96): its statements in order. -/
abbrev Script := List HostStmt

end Sys2Proof
end

