-- ==== Sys2Proof/Decode.lean ====
section
/-! DEFINITION. Decoding and encoding of command words (30_encoding.md R90 to R95) and the byte view of a port word
(20_memory.md R69). -/

namespace Sys2Proof

/-- Why a word is no command (R93, R94). -/
inductive DecodeError
  /-- RSV, bits [31:8], is not 0. -/
  | reservedBitsSet
  /-- OP, bits [7:0], is not in the opcode map of R92. -/
  | undefinedOpcode
  /-- A byte string that is not exactly one 32-bit word (R95). -/
  | notOneWord
deriving DecidableEq, Repr

/-- The OP field of R90. -/
def opField (c : Word) : Byte :=
  c.extractLsb' 0 8

/-- The RSV field of R90. -/
def rsvField (c : Word) : BitVec 24 :=
  c.extractLsb' 8 24

/-- The opcode map of R92. -/
def decodeOp (op : Byte) : Except DecodeError Instr :=
  if op = 0x00#8 then .ok .nop
  else if op = 0x01#8 then .ok .clear
  else if op = 0x10#8 then .ok .freqCount
  else if op = 0x20#8 then .ok .rleEncode
  else if op = 0x21#8 then .ok .rleDecode
  else if op = 0x30#8 then .ok .treeBuild
  else if op = 0x40#8 then .ok .codeGen
  else if op = 0x50#8 then .ok .pack
  else if op = 0x51#8 then .ok .unpack
  else if op = 0x60#8 then .ok .huffEncode
  else .error .undefinedOpcode

/-- `decode` of R93: the decision is taken on the whole word. -/
def decode (c : Word) : Except DecodeError Instr :=
  if rsvField c ≠ 0#24 then .error .reservedBitsSet else decodeOp (opField c)

/-- Byte k of a port word is its bits [8k+7:8k], which is little-endian (20_memory.md R69). -/
def byteOfWord (w : Word) (k : Nat) : Byte :=
  w.extractLsb' (8 * k) 8

/-- The port word whose byte k is the k-th argument (R69). -/
def wordOfBytes (b0 b1 b2 b3 : Byte) : Word :=
  b3 ++ b2 ++ b1 ++ b0

/-- The command in a byte string, laid out as R69 lays a port word: exactly one word (R95). -/
def decodeBytes : List Byte → Except DecodeError Instr
  | [b0, b1, b2, b3] => decode (wordOfBytes b0 b1 b2 b3)
  | _ => .error .notOneWord

/-- The OP value of each command (R92). -/
def opcode : Instr → Byte
  | .nop => 0x00#8
  | .clear => 0x01#8
  | .freqCount => 0x10#8
  | .rleEncode => 0x20#8
  | .rleDecode => 0x21#8
  | .treeBuild => 0x30#8
  | .codeGen => 0x40#8
  | .pack => 0x50#8
  | .unpack => 0x51#8
  | .huffEncode => 0x60#8

/-- The command word of a command (R90, R92): RSV is 0. -/
def encode (i : Instr) : Word :=
  0#24 ++ opcode i

/-- The bytes of a command word, lowest address first (R69). -/
def encodeBytes (i : Instr) : List Byte :=
  [byteOfWord (encode i) 0, byteOfWord (encode i) 1, byteOfWord (encode i) 2, byteOfWord (encode i) 3]

/-- What the decoder reads from an opcode-table row's bits `w`, of which the table gives `nbits`; bits above `nbits` are
0, and a command is one 32-bit word (R95), so a value of more than 32 bits is none. -/
def decodeTableWord (nbits w : Nat) : Option Instr :=
  if w % 2 ^ nbits < 2 ^ 32 then (decode (BitVec.ofNat 32 (w % 2 ^ nbits))).toOption else none

end Sys2Proof
end

