-- ==== Sys2Proof/Config.lean ====
section
/-! DEFINITION. What an implementation of HUFFCORE fixes (00_scope.md R10, R11) and the free values the spec leaves
open (R16, R234, R235). -/

namespace Sys2Proof

/-- The named parameters of R10. They are OPEN (decision D8), so a state carries them and no step changes them; the
legal ranges are `Params.legal` (WellFormed.lean). -/
structure Params where
  /-- N_MAX: the capacity of SYM and DEC, in symbols. -/
  nMax : Nat
  /-- OUT_MAX: the capacity of OUT, in bytes. -/
  outMax : Nat
  /-- RLE_MAX: the capacity of RLE, in tokens. -/
  rleMax : Nat
deriving DecidableEq, Repr

namespace Config

/-- The ID register's constant, "HUF1" (10_state.md R22). -/
def idWord : Word := 0x48554631#32

/-- The symbol alphabet has 256 symbols (R11). -/
def alphabet : Nat := 256

/-- The node pool has 511 entries (R11). -/
def nodePool : Nat := 511

/-- The longest code is 255 bits (R11). -/
def maxCodeLen : Nat := 255

/-- The greatest sum of FREQ that TREE_BUILD accepts, 2^32 - 1 (43_tree.md R152). -/
def freqSumMax : Nat := 0xFFFFFFFF

/-- DESIGN CHOICE (log 3): the parameters of `State.reset`, the greatest legal ones; the spec leaves them open. -/
def params : Params := { nMax := 2 ^ 24, outMax := 2 ^ 26, rleMax := 2 ^ 25 }

/-- Free values (R16, log 5): the word that the host's n-th read draws where the spec says UNSPECIFIED. -/
opaque freeWord : Nat → Word

/-- The OPEN parameter of R234 (log 14): the byte length of the host's text serialization of a code table. -/
opaque codeTableTextLen : List (Byte × Bits) → Nat

/-- The OPEN parameter of R235 (log 14): the byte length of a generic serialized form, of the representation that the
host numbers `x`. -/
opaque genericSerializedLen : Nat → Nat

end Config

end Sys2Proof
end

