-- ==== Sys2Proof/Machine/State.lean ====
section
/-! DEFINITION. The state of HUFFCORE (10_state.md R20 to R50), the reasons the model stops, and the state after reset.

Every memory is a sparse memory: a list of (index, element) pairs in one canonical form (`Memory.wf`). An index that is
not listed reads as nothing where reset leaves the element UNSPECIFIED (SYM, NODE, OUT, RLE, DEC; R16, R50, log 4), and
as 0 where reset sets it to 0 (FREQ, CODE_LEN, CODE_BITS). -/

namespace Sys2Proof.Machine

/-- A sparse memory: (index, element) pairs, indices strictly rising. -/
abbrev Sparse (α : Type) := List (Nat × α)

/-- One entry of the node pool: the five fields of R41. -/
structure NodeEntry where
  freq : Word
  isLeaf : Bool
  symbol : Byte
  left : NodeId
  right : NodeId
deriving DecidableEq, Repr

/-- The seven memories of R20, with the two fields of CODE (R43) and of RLE (R46) held apart, since the host writes
them apart. -/
structure Memory where
  /-- SYM (R38). -/
  sym : Sparse Byte
  /-- FREQ (R40); an unlisted entry is 0. -/
  freq : Sparse Word
  /-- NODE (R41). -/
  node : Sparse NodeEntry
  /-- CODE_LEN (R43); an unlisted entry is 0. -/
  codeLen : Sparse Byte
  /-- CODE_BITS (R43); an unlisted entry is 0. -/
  codeBits : Sparse CodeCells
  /-- OUT (R45). -/
  out : Sparse Byte
  /-- The sym fields of RLE (R46). -/
  rleSym : Sparse Byte
  /-- The run fields of RLE (R46). -/
  rleRun : Sparse Word
  /-- DEC (R47). -/
  dec : Sparse Byte
deriving DecidableEq, Repr

/-- The memories after reset (R50): nothing is listed, so FREQ and CODE read 0 and every other element is UNSPECIFIED. -/
def Memory.reset : Memory :=
  { sym := [], freq := [], node := [], codeLen := [], codeBits := [], out := [], rleSym := [], rleRun := [], dec := [] }

/-- The indices are strictly rising. -/
def Sparse.sorted {α : Type} : Sparse α → Bool
  | [] => true
  | [_] => true
  | (i, _) :: (j, w) :: m => decide (i < j) && Sparse.sorted ((j, w) :: m)

/-- No entry is 0, which an unlisted index reads as. -/
def Sparse.noZero {w : Nat} (m : Sparse (BitVec w)) : Bool :=
  m.all fun e => decide (e.2 ≠ 0#w)

/-- The canonical form: equal memories are equal data. -/
def Memory.wf (m : Memory) : Bool :=
  Sparse.sorted m.sym && Sparse.sorted m.freq && Sparse.noZero m.freq && Sparse.sorted m.node &&
  Sparse.sorted m.codeLen && Sparse.noZero m.codeLen && Sparse.sorted m.codeBits && Sparse.noZero m.codeBits &&
  Sparse.sorted m.out && Sparse.sorted m.rleSym && Sparse.sorted m.rleRun && Sparse.sorted m.dec

/-- The STATUS fields of R24. -/
structure Status where
  /-- BUSY, bit 0. -/
  busy : Bool
  /-- DONE, bit 1. -/
  done : Bool
  /-- ERR, bit 2. -/
  err : Bool
  /-- ERR_CODE, bits [7:4]. -/
  errCode : BitVec 4
  /-- LAST_OP, bits [15:8]. -/
  lastOp : Byte
deriving DecidableEq, Repr

/-- The errors that a command reports in STATUS (60_exceptions.md R251). -/
inductive ErrorCode
  | emptyInput
  | decodeMismatch
  | capacity
  | noCode
  | outputOverflow
  | noTree
  | illegalCommand
deriving DecidableEq, Repr

/-- The two agents of R19. -/
inductive Agent
  | host
  | engine
deriving DecidableEq, Repr

/-- The memories whose elements can be UNSPECIFIED operands of a command (R286). -/
inductive Operand
  | sym
  | node
  | out
  | rleSym
  | rleRun
deriving DecidableEq, Repr

/-- The reasons the model stops with a fault. -/
inductive Fault
  /-- A command read an operand element that is UNSPECIFIED (R286; 93_implementation_defined.md row 9, treatment
  "fault"). Raised by the commands that read SYM, NODE, OUT or RLE. Safe: the hardware goes on with an unknown value. -/
  | unwrittenOperand (m : Operand) (index : Nat)
  /-- The host wrote the port while BUSY = 1 (R283; 93 row 11, treatment "fault"). Raised by the host's step. Safe: the
  hardware ignores the write and goes on. -/
  | hostWriteWhileBusy (addr value : Word)
  /-- CODE_GEN met a node pool that is no tree of TREE_BUILD: more than 511 pops or a path over 255 bits. Raised by
  CODE_GEN, in no state that a run reaches (R174, log 13). Safe. -/
  | notATree
deriving DecidableEq, Repr

/-- The reasons the model refuses. -/
inductive Refusal
  /-- An instruction that exec has no meaning for, by its mnemonic. Raised by exec's refused arms (there are none left).
  Safe. -/
  | notModelled (mnemonic : String)
  /-- A port access narrower than 32 bits (R70; 93 row 14, treatment "refuse"). Raised by the host's step and by the
  loader of a script. Safe. -/
  | narrowAccess (addr : Word) (bytes : Nat)
deriving DecidableEq, Repr

/-- The state: the architectural state of R20, and below it the model's own fields (host script, schedule, bindings,
draw counter; logs 1, 2, 5, 20). -/
structure State where
  /-- The parameters, which CAP_N, CAP_OUT and CAP_RLE read (R37); no step changes them. -/
  params : Params
  /-- STATUS (R24). -/
  status : Status
  /-- The latched command word (R48). -/
  latch : Word
  /-- The latch's pending bit (R48). -/
  pending : Bool
  /-- SHAPE_H (R28). -/
  shapeH : Word
  /-- SHAPE_W (R28). -/
  shapeW : Word
  /-- SHAPE_C (R28). -/
  shapeC : Word
  /-- LEAF_COUNT (R30). -/
  leafCount : BitVec 9
  /-- NODE_COUNT (R30). -/
  nodeCount : BitVec 10
  /-- ROOT (R30). -/
  root : NodeId
  /-- MAX_CODE_LEN (R31). -/
  maxCodeLen : Byte
  /-- TOTAL_BITS (R32). -/
  totalBits : Word
  /-- PADDING (R33). -/
  padding : BitVec 4
  /-- OUT_LEN (R34). -/
  outLen : Word
  /-- RLE_COUNT (R35). -/
  rleCount : Word
  /-- DEC_COUNT (R36). -/
  decCount : Word
  /-- The memories (R38 to R47). -/
  mem : Memory
  /-- The host's statements still to be performed, oldest first (R96). -/
  script : Script
  /-- Which agent moves at each coming choice between the two, oldest first (R75); the engine where it is empty. -/
  sched : List Agent
  /-- What RD and WAIT have bound, newest first (R96). -/
  bindings : List (String × Word)
  /-- The number of host reads made, the index of the next free draw (R16). -/
  draws : Nat
deriving DecidableEq, Repr

/-- STATUS after reset (R50). -/
def Status.reset : Status :=
  { busy := false, done := false, err := false, errCode := 0#4, lastOp := 0#8 }

/-- The machine with parameters `p` right after reset (R50, R280). The latch word is a DESIGN CHOICE (log 9: the spec
gives only the pending bit); so are the model's own fields, all empty (logs 1, 2, 5, 20). -/
def State.resetWith (p : Params) : State :=
  { params := p
    status := Status.reset
    latch := 0#32
    pending := false
    shapeH := 0#32
    shapeW := 0#32
    shapeC := 0#32
    leafCount := 0#9
    nodeCount := 0#10
    root := 0#9
    maxCodeLen := 0#8
    totalBits := 0#32
    padding := 0#4
    outLen := 0#32
    rleCount := 0#32
    decCount := 0#32
    mem := Memory.reset
    script := []
    sched := []
    bindings := []
    draws := 0 }

/-- The machine right after reset, with the parameters of Config (log 3). -/
def State.reset : State :=
  State.resetWith Config.params

end Sys2Proof.Machine
end

