-- ==== Sys2Proof/Machine/Flags.lean ====
section
/-! DEFINITION. The STATUS register: its word, its error codes, and its two updates (10_state.md R24 to R27,
60_exceptions.md R251). -/

namespace Sys2Proof.Machine

/-- `code(E)`: the ERR_CODE of an error (R251). -/
def ErrorCode.code : ErrorCode → BitVec 4
  | .emptyInput => 1#4
  | .decodeMismatch => 2#4
  | .capacity => 3#4
  | .noCode => 4#4
  | .outputOverflow => 5#4
  | .noTree => 6#4
  | .illegalCommand => 7#4

/-- The STATUS word (R24): BUSY [0], DONE [1], ERR [2], ERR_CODE [7:4], LAST_OP [15:8]; every other bit reads 0. -/
def Status.word (st : Status) : Word :=
  0#16 ++ st.lastOp ++ st.errCode ++ 0#1 ++ BitVec.ofBool st.err ++ BitVec.ofBool st.done ++ BitVec.ofBool st.busy

/-- STATUS after a command word whose OP field is `op` is accepted (R25). -/
def Status.accept (op : Byte) : Status :=
  { busy := true, done := false, err := false, errCode := 0#4, lastOp := op }

/-- STATUS after a command completes, in error `e` or in none (R26). -/
def Status.complete (e : Option ErrorCode) (st : Status) : Status :=
  match e with
  | none => { st with busy := false, done := true }
  | some e => { st with busy := false, done := true, err := true, errCode := e.code }

end Sys2Proof.Machine
end

