-- ==== Sys2Proof/Machine/Ops.lean ====
section
/-! DEFINITION. The named operations over memories and registers: sparse memories, state accessors, command acceptance,
and the one operation by which a command completes, in an error or in none (60_exceptions.md R250, R258, R259). -/

namespace Sys2Proof.Machine

/-- The element at an index, if it is listed. -/
def Sparse.get? {α : Type} : Sparse α → Nat → Option α
  | [], _ => none
  | (i, v) :: m, k => if k = i then some v else Sparse.get? m k

/-- Store an element, keeping the indices strictly rising. -/
def Sparse.set {α : Type} : Sparse α → Nat → α → Sparse α
  | [], k, v => [(k, v)]
  | (i, w) :: m, k, v =>
    if k < i then (k, v) :: (i, w) :: m
    else if k = i then (k, v) :: m
    else (i, w) :: Sparse.set m k v

/-- Store consecutive elements from index `k` on, lowest index first (R114). -/
def Sparse.setRange {α : Type} (m : Sparse α) (k : Nat) : List α → Sparse α
  | [] => m
  | v :: vs => Sparse.setRange (Sparse.set m k v) (k + 1) vs

/-- Make every element below index `n` UNSPECIFIED. -/
def Sparse.forgetBelow {α : Type} (m : Sparse α) (n : Nat) : Sparse α :=
  m.filter fun e => decide (n ≤ e.1)

/-- The element at an index of a memory whose unlisted elements are 0. -/
def Sparse.read {w : Nat} (m : Sparse (BitVec w)) (k : Nat) : BitVec w :=
  (Sparse.get? m k).getD 0#w

/-- Store an element of a memory whose unlisted elements are 0, in the canonical form. -/
def Sparse.write {w : Nat} (m : Sparse (BitVec w)) (k : Nat) (v : BitVec w) : Sparse (BitVec w) :=
  if v = 0#w then m.filter (fun e => decide (e.1 ≠ k)) else Sparse.set m k v

/-- SYM[i] (R38); none where it is UNSPECIFIED. -/
def State.symAt (s : State) (i : Nat) : Option Byte := Sparse.get? s.mem.sym i

/-- FREQ[v] (R40). -/
def State.freqAt (s : State) (v : Nat) : Word := Sparse.read s.mem.freq v

/-- NODE[id] (R41); none where it is UNSPECIFIED. -/
def State.nodeAt (s : State) (id : Nat) : Option NodeEntry := Sparse.get? s.mem.node id

/-- CODE_LEN[v] (R43). -/
def State.codeLenAt (s : State) (v : Nat) : Byte := Sparse.read s.mem.codeLen v

/-- CODE_BITS[v] (R43). -/
def State.codeBitsAt (s : State) (v : Nat) : CodeCells := Sparse.read s.mem.codeBits v

/-- OUT[j] (R45); none where it is UNSPECIFIED. -/
def State.outAt (s : State) (j : Nat) : Option Byte := Sparse.get? s.mem.out j

/-- RLE[t].sym (R46); none where it is UNSPECIFIED. -/
def State.rleSymAt (s : State) (t : Nat) : Option Byte := Sparse.get? s.mem.rleSym t

/-- RLE[t].run (R46); none where it is UNSPECIFIED. -/
def State.rleRunAt (s : State) (t : Nat) : Option Word := Sparse.get? s.mem.rleRun t

/-- DEC[i] (R47); none where it is UNSPECIFIED. -/
def State.decAt (s : State) (i : Nat) : Option Byte := Sparse.get? s.mem.dec i

/-- Why a command's pseudocode ends early: it raises an error (R250), or the model stops on an operand it cannot read. -/
inductive Stop
  | raised (e : ErrorCode)
  | fault (f : Fault)
deriving DecidableEq, Repr

/-- How a command's pseudocode ends: with the state it leaves, before STATUS is completed. -/
inductive CommandResult
  | done (s : State)
  | raised (e : ErrorCode) (s : State)
  | fault (f : Fault)
deriving DecidableEq, Repr

/-- The result of a command whose checks all come before its first write: an error leaves the state `s` it started from
(R254). -/
def CommandResult.ofExcept (s : State) : Except Stop State → CommandResult
  | .ok t => .done t
  | .error (.raised e) => .raised e s
  | .error (.fault f) => .fault f

/-- Run another command's pseudocode after this one; an error keeps the writes made so far (R220). -/
def CommandResult.andThen (r : CommandResult) (f : State → CommandResult) : CommandResult :=
  match r with
  | .done s => f s
  | .raised e s => .raised e s
  | .fault x => .fault x

/-- Acceptance of a command word (R258, R25): latch it, set the pending bit, update STATUS. It is also the return from
an error: it clears ERR and ERR_CODE (R261). -/
def accept (c : Word) (s : State) : State :=
  { s with latch := c, pending := true, status := Status.accept (opField c) }

/-- Completion of a command, in error `e` or in none (R259, R26). -/
def completeCommand (e : Option ErrorCode) (s : State) : State :=
  { s with pending := false, status := Status.complete e s.status }

/-- Completion in an error: the engine's counterpart of taking an exception (R250). -/
def raiseError (e : ErrorCode) (s : State) : State := completeCommand (some e) s

/-- Completion without an error. -/
def succeed (s : State) : State := completeCommand none s

/-- The end of the engine step (R259): STATUS is completed in the state that the command's pseudocode left. -/
def finish : CommandResult → Host.Outcome State Fault Refusal
  | .done s => .next (succeed s)
  | .raised e s => .next (raiseError e s)
  | .fault f => .fault f

end Sys2Proof.Machine
end

