-- ==== Sys2Proof/Machine/Operands.lean ====
section
/-! DEFINITION. The operands of commands: the shape check, ranges of memory elements, and the code table. -/

namespace Sys2Proof.Machine

/-- The exact product N (00_scope.md R17). -/
def gridSize (s : State) : Nat :=
  s.shapeH.toNat * s.shapeW.toNat * s.shapeC.toNat

/-- CheckN (40_control.md R112). -/
def checkN (s : State) : Except Stop Nat :=
  if gridSize s = 0 then .error (.raised .emptyInput)
  else if s.params.nMax < gridSize s then .error (.raised .capacity)
  else .ok (gridSize s)

/-- One operand element; the read of an UNSPECIFIED one faults (R286). -/
def readOperand {α : Type} (name : Operand) (m : Sparse α) (i : Nat) : Except Stop α :=
  match Sparse.get? m i with
  | some v => .ok v
  | none => .error (.fault (.unwrittenOperand name i))

/-- `n` consecutive operand elements from index `i` on, in ascending order (R114). -/
def readRange {α : Type} (name : Operand) (m : Sparse α) : Nat → Nat → Except Stop (List α)
  | _, 0 => .ok []
  | i, n + 1 => do
    let v ← readOperand name m i
    let vs ← readRange name m (i + 1) n
    return v :: vs

/-- `code(s) = take(CODE_BITS[s], CODE_LEN[s])` (45_packer.md R191); empty where the symbol has no code (R43). -/
def codeOf (m : Memory) (v : Byte) : Bits :=
  takeCells (Sparse.read m.codeBits v.toNat) (Sparse.read m.codeLen v.toNat).toNat

/-- The code table (R225): every symbol with a code, in ascending order, with its code. -/
def codeTable (m : Memory) : List (Byte × Bits) :=
  ((List.range Config.alphabet).map (BitVec.ofNat 8)).filterMap fun v =>
    if Sparse.read m.codeLen v.toNat = 0#8 then none else some (v, codeOf m v)

/-- `max(CODE_LEN[s] for s in 0..255)` (R170, R197). -/
def greatestCodeLen (m : Memory) : Nat :=
  (List.range Config.alphabet).foldl (fun n v => max n (Sparse.read m.codeLen v).toNat) 0

end Sys2Proof.Machine
end

