-- ==== Sys2Proof/Machine/Port.lean ====
section
/-! DEFINITION. The host port (20_memory.md): address decoding, the 32-bit views of registers and elements, PortRead and
PortWrite. -/

namespace Sys2Proof.Machine

/-- The registers of the register map (10_state.md section 2). -/
inductive Reg
  | id | cmd | status | shapeH | shapeW | shapeC | n | leafCount | nodeCount | root | maxCodeLen | totalBits | padding
  | outLen | rleCount | decCount | capN | capOut | capRle
deriving DecidableEq, Repr

/-- The byte offset of a register in region 0. -/
def regOffset : Reg → Nat
  | .id => 0x000
  | .cmd => 0x004
  | .status => 0x008
  | .shapeH => 0x00C
  | .shapeW => 0x010
  | .shapeC => 0x014
  | .n => 0x018
  | .leafCount => 0x01C
  | .nodeCount => 0x020
  | .root => 0x024
  | .maxCodeLen => 0x028
  | .totalBits => 0x02C
  | .padding => 0x030
  | .outLen => 0x034
  | .rleCount => 0x038
  | .decCount => 0x03C
  | .capN => 0x040
  | .capOut => 0x044
  | .capRle => 0x048

/-- The register at an offset; every other offset is reserved (R66). -/
def regAt (offset : Nat) : Option Reg :=
  match offset with
  | 0x000 => some .id
  | 0x004 => some .cmd
  | 0x008 => some .status
  | 0x00C => some .shapeH
  | 0x010 => some .shapeW
  | 0x014 => some .shapeC
  | 0x018 => some .n
  | 0x01C => some .leafCount
  | 0x020 => some .nodeCount
  | 0x024 => some .root
  | 0x028 => some .maxCodeLen
  | 0x02C => some .totalBits
  | 0x030 => some .padding
  | 0x034 => some .outLen
  | 0x038 => some .rleCount
  | 0x03C => some .decCount
  | 0x040 => some .capN
  | 0x044 => some .capOut
  | 0x048 => some .capRle
  | _ => none

/-- What a port address reaches (R63). -/
inductive Target
  | reg (r : Reg)
  | sym (i : Nat)
  | freq (v : Nat)
  /-- Word `w`, 0 to 3, of node-pool entry `id` (R42). -/
  | node (id w : Nat)
  | codeLen (v : Nat)
  /-- Word j + 1, for j = 0 to 7, of symbol `v` (R44). -/
  | codeBits (v j : Nat)
  | out (j : Nat)
  | rleSym (t : Nat)
  | rleRun (t : Nat)
  | dec (i : Nat)
deriving DecidableEq, Repr

/-- `align = A[1:0]` (R61). -/
def addrAlign (a : Word) : BitVec 2 := a.extractLsb' 0 2

/-- `index = A[27:2]` (R61). -/
def addrIndex (a : Word) : Nat := (a.extractLsb' 2 26).toNat

/-- `region = A[31:28]` (R61). -/
def addrRegion (a : Word) : Nat := (a.extractLsb' 28 4).toNat

/-- The byte offset of an address in region 0, A[27:0] (R61). -/
def addrOffset (a : Word) : Nat := (a.extractLsb' 0 28).toNat

/-- Address decoding (R61 to R63): none where the address is misaligned (R67), reserved or unmapped (R66). -/
def resolve (p : Params) (a : Word) : Option Target :=
  let i := addrIndex a
  if addrAlign a ≠ 0#2 then none
  else match addrRegion a with
    | 0 => (regAt (addrOffset a)).map .reg
    | 1 => if i < p.nMax then some (.sym i) else none
    | 2 => if i < 256 then some (.freq i) else none
    | 3 => if i < 2044 then some (.node (i / 4) (i % 4)) else none
    | 4 =>
      if 4096 ≤ i then none
      else if i % 16 = 0 then some (.codeLen (i / 16))
      else if i % 16 ≤ 8 then some (.codeBits (i / 16) (i % 16 - 1))
      else none
    | 5 => if i < p.outMax then some (.out i) else none
    | 6 =>
      if 2 * p.rleMax ≤ i then none
      else if i % 2 = 0 then some (.rleSym (i / 2))
      else some (.rleRun (i / 2))
    | 7 => if i < p.nMax then some (.dec i) else none
    | _ => none

/-- The N register: the current product, saturated (R29). -/
def gridSizeWord (s : State) : Word :=
  BitVec.ofNat 32 (min (gridSize s) 0xFFFFFFFF)

/-- The word that a register reads (10_state.md section 2). -/
def regWord (s : State) : Reg → Word
  | .id => Config.idWord
  | .cmd => 0#32
  | .status => s.status.word
  | .shapeH => s.shapeH
  | .shapeW => s.shapeW
  | .shapeC => s.shapeC
  | .n => gridSizeWord s
  | .leafCount => s.leafCount.setWidth 32
  | .nodeCount => s.nodeCount.setWidth 32
  | .root => s.root.setWidth 32
  | .maxCodeLen => s.maxCodeLen.setWidth 32
  | .totalBits => s.totalBits
  | .padding => s.padding.setWidth 32
  | .outLen => s.outLen
  | .rleCount => s.rleCount
  | .decCount => s.decCount
  | .capN => BitVec.ofNat 32 s.params.nMax
  | .capOut => BitVec.ofNat 32 s.params.outMax
  | .capRle => BitVec.ofNat 32 s.params.rleMax

/-- Word `w` of a node-pool entry (R42). -/
def nodeWord (n : NodeEntry) (w : Nat) : Word :=
  match w with
  | 0 => n.freq
  | 1 => BitVec.ofBool n.isLeaf ++ 0#23 ++ n.symbol
  | 2 => n.left.setWidth 32
  | _ => n.right.setWidth 32

/-- The node-pool entry whose word `w` reads as a free draw: the bits that hold no field still read 0 (R42, log 5). -/
def freeNode (draw : Word) : NodeEntry :=
  { freq := draw, isLeaf := draw.getLsbD 31, symbol := draw.setWidth 8, left := draw.setWidth 9, right := draw.setWidth 9 }

/-- The 8-bit view of an element, zero-extended; a free byte where it is UNSPECIFIED (R16, log 5). -/
def byteWord (v : Option Byte) (draw : Word) : Word :=
  (v.getD (draw.setWidth 8)).setWidth 32

/-- The 32-bit view of a target (R63); `draw` is the free word of this read, used only where the element is UNSPECIFIED
(R16). -/
def targetWord (s : State) (draw : Word) : Target → Word
  | .reg r => regWord s r
  | .sym i => byteWord (s.symAt i) draw
  | .freq v => s.freqAt v
  | .node id w => nodeWord ((s.nodeAt id).getD (freeNode draw)) w
  | .codeLen v => (s.codeLenAt v).setWidth 32
  | .codeBits v j => cellWord (s.codeBitsAt v) j
  | .out j => byteWord (s.outAt j) draw
  | .rleSym t => byteWord (s.rleSymAt t) draw
  | .rleRun t => (s.rleRunAt t).getD draw
  | .dec i => byteWord (s.decAt i) draw

/-- What reads true while BUSY = 1: STATUS, ID and the capability registers (R284). -/
def readableWhileBusy : Target → Bool
  | .reg .id => true
  | .reg .status => true
  | .reg .capN => true
  | .reg .capOut => true
  | .reg .capRle => true
  | _ => false

/-- PortRead(A) (R64), with `draw` the free word of this read. While BUSY = 1 everything but `readableWhileBusy` reads
UNSPECIFIED, reserved and misaligned addresses included (log 6). -/
def portRead (s : State) (a draw : Word) : Word :=
  match resolve s.params a with
  | some t => if s.status.busy && !readableWhileBusy t then draw else targetWord s draw t
  | none => if s.status.busy then draw else 0#32

/-- A host write of `v` to a register: read-only registers ignore it, CMD submits it (R65, R258). -/
def writeReg (s : State) (v : Word) : Reg → State
  | .cmd => accept v s
  | .shapeH => { s with shapeH := v }
  | .shapeW => { s with shapeW := v }
  | .shapeC => { s with shapeC := v }
  | .outLen => { s with outLen := v }
  | .rleCount => { s with rleCount := v }
  | .id => s
  | .status => s
  | .n => s
  | .leafCount => s
  | .nodeCount => s
  | .root => s
  | .maxCodeLen => s
  | .totalBits => s
  | .padding => s
  | .decCount => s
  | .capN => s
  | .capOut => s
  | .capRle => s

/-- A host write of `v` to a target: the element's width of `v` is stored (R65); NODE and DEC are read-only (R62). -/
def writeTarget (s : State) (v : Word) : Target → State
  | .reg r => writeReg s v r
  | .sym i => { s with mem := { s.mem with sym := Sparse.set s.mem.sym i (v.setWidth 8) } }
  | .freq k => { s with mem := { s.mem with freq := Sparse.write s.mem.freq k v } }
  | .node _ _ => s
  | .codeLen k => { s with mem := { s.mem with codeLen := Sparse.write s.mem.codeLen k (v.setWidth 8) } }
  | .codeBits k j =>
    { s with mem := { s.mem with codeBits := Sparse.write s.mem.codeBits k (setCellWord (s.codeBitsAt k) j v) } }
  | .out j => { s with mem := { s.mem with out := Sparse.set s.mem.out j (v.setWidth 8) } }
  | .rleSym t => { s with mem := { s.mem with rleSym := Sparse.set s.mem.rleSym t (v.setWidth 8) } }
  | .rleRun t => { s with mem := { s.mem with rleRun := Sparse.set s.mem.rleRun t v } }
  | .dec _ => s

/-- PortWrite(A, v) (R65): ignored while BUSY = 1 (R283), where misaligned (R67), and where reserved (R66). -/
def portWrite (s : State) (a v : Word) : State :=
  if s.status.busy then s
  else match resolve s.params a with
    | some t => writeTarget s v t
    | none => s

end Sys2Proof.Machine
end

