-- ==== Sys2Proof/WellFormed.lean ====
section
/-! DEFINITION. Which parameters, host statements, scripts and commands are well formed. -/

namespace Sys2Proof

/-- The legal ranges of R10. -/
def Params.legal (p : Params) : Bool :=
  decide (1 ≤ p.nMax) && decide (p.nMax ≤ 2 ^ 24) &&
  decide (p.nMax + 2 ≤ p.outMax) && decide (p.outMax ≤ 2 ^ 26) &&
  decide (p.nMax ≤ p.rleMax) && decide (p.rleMax ≤ 2 ^ 25)

/-- Every command is well formed: no command word has an operand field (30_encoding.md R91). -/
def Instr.wellFormed : Instr → Bool
  | .nop => true
  | .clear => true
  | .freqCount => true
  | .rleEncode => true
  | .rleDecode => true
  | .treeBuild => true
  | .codeGen => true
  | .pack => true
  | .unpack => true
  | .huffEncode => true

/-- A host statement is well formed unless it is an access narrower than 32 bits, which does not exist on the port
(20_memory.md R60, R70). -/
def HostStmt.wellFormed : HostStmt → Bool
  | .wr _ _ => true
  | .rd _ _ => true
  | .wait => true
  | .narrowRead _ _ _ => false
  | .narrowWrite _ _ _ => false
  | .reset => true

/-- A model must refuse a host program that holds a narrow access (R70). -/
def Script.wellFormed (p : Script) : Bool :=
  p.all HostStmt.wellFormed

end Sys2Proof
end

