-- ==== Sys2Proof/Machine/Script.lean ====
section
/-! DEFINITION. Host scripts (30_encoding.md R96 to R98): symbolic addresses, pseudo-statements, the flattening of a
grid, and the loading of a script. -/

namespace Sys2Proof.Machine

/-- The port address of an element: `A = (region << 28) | (i << 2)` (R61). -/
def windowAddr (region i : Nat) : Word :=
  BitVec.ofNat 32 (region * 2 ^ 28 + 4 * i)

/-- A register's name stands for its offset in region 0 (R97). -/
def regAddr (r : Reg) : Word := BitVec.ofNat 32 (regOffset r)

/-- `SYM[i]` (R97). -/
def symAddr (i : Nat) : Word := windowAddr 1 i

/-- `FREQ[v]` (R97). -/
def freqAddr (v : Nat) : Word := windowAddr 2 v

/-- `NODE[id].w` (R97). -/
def nodeAddr (id w : Nat) : Word := windowAddr 3 (4 * id + w)

/-- `CODE[v].w` (R97). -/
def codeAddr (v w : Nat) : Word := windowAddr 4 (16 * v + w)

/-- `OUT[j]` (R97). -/
def outAddr (j : Nat) : Word := windowAddr 5 j

/-- `RLE[t].sym` (R97). -/
def rleSymAddr (t : Nat) : Word := windowAddr 6 (2 * t)

/-- `RLE[t].run` (R97). -/
def rleRunAddr (t : Nat) : Word := windowAddr 6 (2 * t + 1)

/-- `DEC[i]` (R97). -/
def decAddr (i : Nat) : Word := windowAddr 7 i

/-- `CMD <mnemonic>` (R96). -/
def cmdStmt (i : Instr) : HostStmt := .wr (regAddr .cmd) (encode i)

/-- `RUN <mnemonic>` (R98). -/
def runScript (i : Instr) : Script := [cmdStmt i, .wait]

/-- `SHAPE h, w, c` (R98). -/
def shapeScript (h w c : Word) : Script :=
  [.wr (regAddr .shapeH) h, .wr (regAddr .shapeW) w, .wr (regAddr .shapeC) c]

/-- One `WR` per value, from element `k` of a window on. The values are whole port words (R96); what of a word is stored
is the port's to decide (20_memory.md R65). -/
def storeScript (addr : Nat → Word) (k : Nat) : List Word → Script
  | [] => []
  | v :: vs => .wr (addr k) v :: storeScript addr (k + 1) vs

/-- `LOADSYM v0, v1, ..., vk` (R98). -/
def loadSymScript (vs : List Word) : Script := storeScript symAddr 0 vs

/-- `LOADOUT b0, ..., bk` (R98). -/
def loadOutScript (bs : List Word) : Script :=
  storeScript outAddr 0 bs ++ [.wr (regAddr .outLen) (BitVec.ofNat 32 bs.length)]

/-- The writes of the tokens of `LOADRLE`, from token `t` on; a token's two values are whole port words. -/
def storeTokensScript (t : Nat) : List (Word × Word) → Script
  | [] => []
  | (v, run) :: ts => .wr (rleSymAddr t) v :: .wr (rleRunAddr t) run :: storeTokensScript (t + 1) ts

/-- `LOADRLE (s0,r0), ..., (sk,rk)` (R98). -/
def loadRleScript (ts : List (Word × Word)) : Script :=
  storeTokensScript 0 ts ++ [.wr (regAddr .rleCount) (BitVec.ofNat 32 ts.length)]

/-- The index at which the host stores pixel component (y, x, c) of a grid of width `w` with `ch` channels (10_state.md
R39): row-major and channel-interleaved. -/
def flattenIndex (w ch y x c : Nat) : Nat := (y * w + x) * ch + c

/-- The pixel component (y, x, c) that stands at index `i`: "reshape by shape" (R39). -/
def reshapeIndex (w ch i : Nat) : Nat × Nat × Nat := (i / ch / w, i / ch % w, i % ch)

/-- The symbols of a grid `g y x c`, row-major and channel-interleaved (R39). -/
def flattenGrid (h w ch : Nat) (g : Nat → Nat → Nat → Byte) : List Byte :=
  (List.range (h * w * ch)).map fun i =>
    let j := reshapeIndex w ch i
    g j.1 j.2.1 j.2.2

/-- Give the host a script to perform. A model rejects a script that holds a narrow access before it runs (R70; 93 row
14, log 8). -/
def loadScript (p : Script) (s : State) : Host.Outcome State Fault Refusal :=
  match p.find? fun st => !st.wellFormed with
  | some (.narrowRead a n _) => .refused (.narrowAccess a n)
  | some (.narrowWrite a n _) => .refused (.narrowAccess a n)
  | _ => .next { s with script := s.script ++ p }

end Sys2Proof.Machine
end

