-- ==== Sys2Proof/Machine/Agents.lean ====
section
/-! DEFINITION. The two agents (00_scope.md R19): which one moves, the HOST's step (one statement of its script), and the
ENGINE's fetch of the latched command. -/

namespace Sys2Proof.Machine

/-- The agent that moves. The engine's step is enabled exactly when the pending bit is 1 (R259), the host's when its
script is not empty. Where both are, `sched` says which (R75); where it is empty, the engine, which makes the engine
step weakly fair (R289, log 17). Where neither is, nothing moves. -/
def whoMoves (s : State) : Option Agent :=
  if s.pending then
    if s.sched.head? = some .host ∧ s.script ≠ [] then some .host else some .engine
  else if s.script ≠ [] then some .host
  else none

/-- A choice between the agents is used up by the step that makes it: one entry of `sched` for every step taken while
a command is pending. -/
def takeTurn (s : State) : State :=
  { s with sched := if s.pending then s.sched.tail else s.sched }

/-- Bind a name to the word a read returned (R96). Every read uses up one free draw (R16). -/
def bindRead (name : String) (v : Word) (s : State) : State :=
  { s with bindings := (name, v) :: s.bindings, draws := s.draws + 1 }

/-- The value a name is bound to: that of its newest binding (log 20). -/
def boundValue (name : String) (s : State) : Option Word :=
  (s.bindings.find? fun b => decide (b.1 = name)).map Prod.snd

/-- The reset event (R280): every piece of state takes its value after reset, and a pending command is abandoned. Every
memory that a command could have left half written is UNSPECIFIED after reset anyway (log 11). The parameters stay, and
so do the host's own fields. -/
def resetEvent (s : State) : State :=
  { State.resetWith s.params with script := s.script, sched := s.sched, bindings := s.bindings, draws := s.draws }

/-- `RD addr -> name` (R96): PortRead with the free word of this read. -/
def hostRead (a : Word) (name : String) (s : State) : State :=
  bindRead name (portRead s a (Config.freeWord s.draws)) s

/-- The HOST agent's step on the first statement of its script (R96). A write while BUSY = 1 is a fault of the host
program (R283), and a narrow access is refused (R70). -/
def hostStep (s : State) : Host.Outcome State Fault Refusal :=
  match s.script with
  | [] => .next s
  | .wr a v :: rest =>
    if s.status.busy then .fault (.hostWriteWhileBusy a v)
    else .next (portWrite { s with script := rest } a v)
  | .rd a name :: rest => .next (hostRead a name { s with script := rest })
  | .wait :: rest =>
    if (portRead s (regAddr .status) (Config.freeWord s.draws)).getLsbD 0 then
      .next (hostRead (regAddr .status) "s" s)
    else .next (hostRead (regAddr .status) "s" { s with script := rest })
  | .narrowRead a n _ :: _ => .refused (.narrowAccess a n)
  | .narrowWrite a n _ :: _ => .refused (.narrowAccess a n)
  | .reset :: rest => .next (resetEvent { s with script := rest })

/-- The command that the engine fetches: the decoded command latch (R259, R93). -/
def fetch (s : State) : Except DecodeError Instr := decode s.latch

/-- An illegal word completes at once with ILLEGAL_COMMAND and changes nothing but STATUS (R93). -/
def illegalCommand (s : State) : Host.Outcome State Fault Refusal :=
  finish (.raised .illegalCommand s)

end Sys2Proof.Machine
end

