-- ==== Sys2Proof/Machine/Codes.lean ====
section
/-! DEFINITION. The Code Table Builder (44_codes.md). -/

namespace Sys2Proof.Machine

/-- The walk of R170 over an explicit stack: the codes of the leaves in the order they are popped. At most 511 pops
happen on a tree that TREE_BUILD made, and no path is over 255 bits (R289, R156); any other node pool faults (log 13). -/
def walkTree (node : Sparse NodeEntry) : Nat → List (Nat × Bits) → Except Stop (List (Byte × Bits))
  | _, [] => .ok []
  | 0, _ :: _ => .error (.fault .notATree)
  | pops + 1, (id, p) :: stack => do
    let n ← readOperand .node node id
    if n.isLeaf then
      if Config.maxCodeLen < p.length then .error (.fault .notATree)
      else do
        let rest ← walkTree node pops stack
        return (n.symbol, p) :: rest
    else walkTree node pops ((n.left.toNat, p ++ [false]) :: (n.right.toNat, p ++ [true]) :: stack)

/-- The codes of a tree (R170); a leaf root gets the one-bit code "0" (R172). -/
def treeCodes (node : Sparse NodeEntry) (root : Nat) : Except Stop (List (Byte × Bits)) := do
  let n ← readOperand .node node root
  if n.isLeaf then return [(n.symbol, [false])]
  else walkTree node Config.nodePool [(root, [])]

/-- Record one code: `CODE_LEN[v] <- len(p); CODE_BITS[v] <- p ++ zeros(256 - len(p))` (R170). -/
def recordCode (m : Memory) (c : Byte × Bits) : Memory :=
  { m with
    codeLen := Sparse.write m.codeLen c.1.toNat (BitVec.ofNat 8 c.2.length)
    codeBits := Sparse.write m.codeBits c.1.toNat (cellsOfBits c.2) }

/-- The memories after all of CODE is cleared and the codes are recorded (R170). -/
def recordCodes (m : Memory) (codes : List (Byte × Bits)) : Memory :=
  codes.foldl recordCode { m with codeLen := [], codeBits := [] }

/-- The pseudocode of CODE_GEN (R170). -/
def codeGen (s : State) : Except Stop State :=
  if s.nodeCount = 0#10 then .error (.raised .noTree)
  else do
    let codes ← treeCodes s.mem.node s.root.toNat
    let m := recordCodes s.mem codes
    return { s with maxCodeLen := BitVec.ofNat 8 (greatestCodeLen m), mem := m }

/-- CODE_GEN's result before completion. -/
def codeGenResult (s : State) : CommandResult :=
  CommandResult.ofExcept s (codeGen s)

/-- CODE_GEN (R170). -/
def execCodeGen (s : State) : Host.Outcome State Fault Refusal :=
  finish (codeGenResult s)

end Sys2Proof.Machine
end

