-- ==== Sys2Proof/Machine/Control.lean ====
section
/-! DEFINITION. The control commands NOP and CLEAR (40_control.md). -/

namespace Sys2Proof.Machine

/-- NOP (R110): nothing but completion. -/
def execNop (s : State) : Host.Outcome State Fault Refusal :=
  finish (.done s)

/-- The pseudocode of CLEAR (R111). SYM, NODE, OUT, RLE and DEC keep their contents. -/
def clearState (s : State) : State :=
  { s with
    shapeH := 0#32
    shapeW := 0#32
    shapeC := 0#32
    leafCount := 0#9
    nodeCount := 0#10
    root := 0#9
    maxCodeLen := 0#8
    totalBits := 0#32
    padding := 0#4
    outLen := 0#32
    rleCount := 0#32
    decCount := 0#32
    mem := { s.mem with freq := [], codeLen := [], codeBits := [] } }

/-- CLEAR (R111). -/
def execClear (s : State) : Host.Outcome State Fault Refusal :=
  finish (.done (clearState s))

end Sys2Proof.Machine
end

