-- ==== Sys2Proof/Machine/Frequency.lean ====
section
/-! DEFINITION. The Frequency Counter (41_frequency.md). -/

namespace Sys2Proof.Machine

/-- One turn of the counting loop of R120: `FREQ[v] <- FREQ[v] + 1`. -/
def countSymbol (freq : Sparse Word) (v : Byte) : Sparse Word :=
  Sparse.write freq v.toNat (Sparse.read freq v.toNat + 1#32)

/-- FREQ after the clearing loop and the counting loop of R120. -/
def countSymbols (syms : List Byte) : Sparse Word :=
  syms.foldl countSymbol []

/-- The pseudocode of FREQ_COUNT (R120). -/
def freqCount (s : State) : Except Stop State := do
  let n ← checkN s
  let syms ← readRange .sym s.mem.sym 0 n
  return { s with mem := { s.mem with freq := countSymbols syms } }

/-- FREQ_COUNT's result before completion. -/
def freqCountResult (s : State) : CommandResult :=
  CommandResult.ofExcept s (freqCount s)

/-- FREQ_COUNT (R120). -/
def execFreqCount (s : State) : Host.Outcome State Fault Refusal :=
  finish (freqCountResult s)

end Sys2Proof.Machine
end

