-- ==== Sys2Proof/Machine/Packer.lean ====
section
/-! DEFINITION. The Bit Packer and Unpacker (45_packer.md). -/

namespace Sys2Proof.Machine

/-- `padding = 8 - (b mod 8)`, 1 to 8 and never 0 (R192). -/
def paddingOf (b : Nat) : Nat :=
  8 - b % 8

/-- `L = 1 + (b + padding) / 8`, the packed length with its header byte (R191, R193). -/
def packedLen (b : Nat) : Nat :=
  1 + (b + paddingOf b) / 8

/-- The packed stream of a code bitstring (R190). -/
def packedStream (bits : Bits) : Bits :=
  bits8 (BitVec.ofNat 8 (paddingOf bits.length)) ++ bits ++ zeros (paddingOf bits.length)

/-- The first `n` bytes of a stream: byte j is `byte(take(drop(stream, 8j), 8))` (R190). -/
def streamBytes : Nat → Bits → List Byte
  | 0, _ => []
  | n + 1, stream => byteOfBits (stream.take 8) :: streamBytes n (stream.drop 8)

/-- The validation pass of R191 over `n` symbols from index `i` on: the codes in index order; a symbol without a code
raises NO_CODE. -/
def readCodes (m : Memory) : Nat → Nat → Except Stop (List Bits)
  | _, 0 => .ok []
  | i, n + 1 => do
    let v ← readOperand .sym m.sym i
    if Sparse.read m.codeLen v.toNat = 0#8 then .error (.raised .noCode)
    else do
      let rest ← readCodes m (i + 1) n
      return codeOf m v :: rest

/-- The pseudocode of PACK (R191). -/
def pack (s : State) : Except Stop State := do
  let n ← checkN s
  let codes ← readCodes s.mem 0 n
  let bits := codes.flatten
  if s.params.outMax < packedLen bits.length then .error (.raised .outputOverflow)
  else return { s with
    outLen := BitVec.ofNat 32 (packedLen bits.length)
    totalBits := BitVec.ofNat 32 bits.length
    padding := BitVec.ofNat 4 (paddingOf bits.length)
    mem := { s.mem with
      out := Sparse.setRange s.mem.out 0 (streamBytes (packedLen bits.length) (packedStream bits)) } }

/-- PACK's result before completion. -/
def packResult (s : State) : CommandResult :=
  CommandResult.ofExcept s (pack s)

/-- PACK (R191). -/
def execPack (s : State) : Host.Outcome State Fault Refusal :=
  finish (packResult s)

/-- The symbol whose code is exactly the bits read; the lowest one where several have it (R195). -/
def lookupCode (table : List (Byte × Bits)) (read : Bits) : Option Byte :=
  (table.find? fun e => decide (e.2 = read)).map Prod.fst

/-- Match (R195): extend the bits `read` so far by one bit at a time, up to the first length at which some symbol's code
equals them; the symbol and the bits left over, or none for FAIL. -/
def matchCode (table : List (Byte × Bits)) (maxLen : Nat) (read : Bits) : Bits → Option (Byte × Bits)
  | [] => none
  | b :: data =>
    match lookupCode table (read ++ [b]) with
    | some v => some (v, data)
    | none => if maxLen ≤ read.length + 1 then none else matchCode table maxLen (read ++ [b]) data

/-- The decoding loop of R196: exactly `n` symbols, with no bits left over; none for a mismatch. -/
def decodeSymbols (table : List (Byte × Bits)) (maxLen : Nat) : Nat → Bits → Option (List Byte)
  | 0, data => if data = [] then some [] else none
  | n + 1, data =>
    match matchCode table maxLen [] data with
    | none => none
    | some (v, rest) => (decodeSymbols table maxLen n rest).map (v :: ·)

/-- The bits of packed bytes (R196), most significant bit first. -/
def bitsOfBytes (bytes : List Byte) : Bits :=
  (bytes.map bits8).flatten

/-- The pseudocode of UNPACK (R196). -/
def unpack (s : State) : Except Stop State := do
  let n ← checkN s
  let len := s.outLen.toNat
  if s.params.outMax < len then .error (.raised .capacity)
  else if len = 0 then .error (.raised .decodeMismatch)
  else do
    let p ← readOperand .out s.mem.out 0
    let d := 8 * (len - 1)
    if 8 < p.toNat then .error (.raised .decodeMismatch)
    else if d < p.toNat then .error (.raised .decodeMismatch)
    else do
      let bytes ← readRange .out s.mem.out 1 (len - 1)
      let data := (bitsOfBytes bytes).take (d - p.toNat)
      match decodeSymbols (codeTable s.mem) (greatestCodeLen s.mem) n data with
      | none => .error (.raised .decodeMismatch)
      | some syms => return { s with
          decCount := BitVec.ofNat 32 n
          padding := p.setWidth 4
          totalBits := BitVec.ofNat 32 (d - p.toNat)
          mem := { s.mem with dec := Sparse.setRange s.mem.dec 0 syms } }

/-- What UNPACK's DECODE_MISMATCH leaves: DEC_COUNT is 0 and DEC[0..N-1] are UNSPECIFIED (R254). -/
def forgetDecoded (s : State) : State :=
  { s with decCount := 0#32, mem := { s.mem with dec := Sparse.forgetBelow s.mem.dec (gridSize s) } }

/-- UNPACK's result before completion: every error but DECODE_MISMATCH leaves the state as it was (R254). -/
def unpackResult (s : State) : CommandResult :=
  match unpack s with
  | .ok t => .done t
  | .error (.raised .decodeMismatch) => .raised .decodeMismatch (forgetDecoded s)
  | .error (.raised e) => .raised e s
  | .error (.fault f) => .fault f

/-- UNPACK (R196). -/
def execUnpack (s : State) : Host.Outcome State Fault Refusal :=
  finish (unpackResult s)

end Sys2Proof.Machine
end

