-- ==== Sys2Proof/Machine/Tree.lean ====
section
/-! DEFINITION. The Huffman Tree Builder (43_tree.md). -/

namespace Sys2Proof.Machine

/-- A queue entry: a node id with its frequency, the two parts of its key (R151). -/
structure QueueEntry where
  freq : Nat
  id : Nat
deriving DecidableEq, Repr

/-- `key(a) < key(b)`: lower frequency first, and at equal frequency the lower id (R151). -/
def QueueEntry.before (a b : QueueEntry) : Bool :=
  decide (a.freq < b.freq) || (decide (a.freq = b.freq) && decide (a.id < b.id))

/-- Add an entry to a queue kept in key order, so that its head is the entry with the least key. -/
def enqueue (e : QueueEntry) : List QueueEntry → List QueueEntry
  | [] => [e]
  | a :: q => if e.before a then e :: a :: q else a :: enqueue e q

/-- The leaf of a symbol (R150). -/
def leafNode (freq : Word) (v : Byte) : NodeEntry :=
  { freq := freq, isLeaf := true, symbol := v, left := 0#9, right := 0#9 }

/-- The internal node of one merge: the first popped is LEFT, the second RIGHT (R154). -/
def internalNode (a b : QueueEntry) : NodeEntry :=
  { freq := BitVec.ofNat 32 (a.freq + b.freq), isLeaf := false, symbol := 0#8,
    left := BitVec.ofNat 9 a.id, right := BitVec.ofNat 9 b.id }

/-- The leaves in ascending symbol order (R153). -/
def leaves (freq : Sparse Word) : List NodeEntry :=
  ((List.range Config.alphabet).map (BitVec.ofNat 8)).filterMap fun v =>
    if Sparse.read freq v.toNat = 0#32 then none else some (leafNode (Sparse.read freq v.toNat) v)

/-- The queue that holds the leaves `ns`, whose ids run from `id` on. -/
def queueOf (id : Nat) : List NodeEntry → List QueueEntry
  | [] => []
  | n :: ns => enqueue { freq := n.freq.toNat, id := id } (queueOf (id + 1) ns)

/-- The merge loop of R150, with the next free id: the internal nodes in the order they are made, and the single id left
in the queue. `fuel` bounds the merges; 255 suffice (R289). -/
def mergeLoop : Nat → List QueueEntry → Nat → List NodeEntry × Nat
  | fuel + 1, a :: b :: q, next =>
    let r := mergeLoop fuel (enqueue { freq := a.freq + b.freq, id := next } q) (next + 1)
    (internalNode a b :: r.1, r.2)
  | _, q, _ => ([], (q.map QueueEntry.id).headD 0)

/-- The exact sum of FREQ (R150). -/
def freqSum (freq : Sparse Word) : Nat :=
  ((List.range Config.alphabet).map fun v => (Sparse.read freq v).toNat).sum

/-- The pseudocode of TREE_BUILD (R150). -/
def treeBuild (s : State) : Except Stop State :=
  let total := freqSum s.mem.freq
  if total = 0 then .error (.raised .emptyInput)
  else if Config.freqSumMax < total then .error (.raised .capacity)
  else
    let ls := leaves s.mem.freq
    let merged := mergeLoop (Config.alphabet - 1) (queueOf 0 ls) ls.length
    .ok { s with
      leafCount := BitVec.ofNat 9 ls.length
      nodeCount := BitVec.ofNat 10 (ls.length + merged.1.length)
      root := BitVec.ofNat 9 merged.2
      mem := { s.mem with node := Sparse.setRange s.mem.node 0 (ls ++ merged.1) } }

/-- TREE_BUILD's result before completion. -/
def treeBuildResult (s : State) : CommandResult :=
  CommandResult.ofExcept s (treeBuild s)

/-- TREE_BUILD (R150). -/
def execTreeBuild (s : State) : Host.Outcome State Fault Refusal :=
  finish (treeBuildResult s)

end Sys2Proof.Machine
end

