-- ==== Sys2Proof/Machine/Pipeline.lean ====
section
/-! DEFINITION. The pipeline command (46_pipeline.md). -/

namespace Sys2Proof.Machine

/-- The four bodies of R220 in order, within one engine step; an error ends the command and keeps the writes of the
steps before it. -/
def huffEncodeResult (s : State) : CommandResult :=
  (((freqCountResult s).andThen treeBuildResult).andThen codeGenResult).andThen packResult

/-- HUFF_ENCODE (R220). -/
def execHuffEncode (s : State) : Host.Outcome State Fault Refusal :=
  finish (huffEncodeResult s)

end Sys2Proof.Machine
end

