-- ==== Sys2Proof/Machine/Rle.lean ====
section
/-! DEFINITION. The Run-Length Encoder and Decoder (42_rle.md). -/

namespace Sys2Proof.Machine

/-- The loop of R131 from a current symbol and run counter on; the last run is emitted at the end of input. -/
def runsFrom (cur : Byte) (run : Nat) : List Byte → List (Byte × Nat)
  | [] => [(cur, run)]
  | v :: vs => if v = cur then runsFrom cur (run + 1) vs else (cur, run) :: runsFrom v 1 vs

/-- The tokens of a symbol sequence (R131); the first symbol is read unconditionally. -/
def rleTokens : List Byte → List (Byte × Nat)
  | [] => []
  | v :: vs => runsFrom v 1 vs

/-- The pseudocode of RLE_ENCODE (R131). -/
def rleEncode (s : State) : Except Stop State := do
  let n ← checkN s
  let syms ← readRange .sym s.mem.sym 0 n
  let tokens := rleTokens syms
  return { s with
    rleCount := BitVec.ofNat 32 tokens.length
    mem := { s.mem with
      rleSym := Sparse.setRange s.mem.rleSym 0 (tokens.map Prod.fst)
      rleRun := Sparse.setRange s.mem.rleRun 0 (tokens.map fun t => BitVec.ofNat 32 t.2) } }

/-- RLE_ENCODE (R131). -/
def execRleEncode (s : State) : Host.Outcome State Fault Refusal :=
  finish (CommandResult.ofExcept s (rleEncode s))

/-- The validation pass of R134 over `n` tokens from token `t` on: the exact sum of the runs; a run of 0 raises. -/
def sumRuns (m : Memory) : Nat → Nat → Except Stop Nat
  | _, 0 => .ok 0
  | t, n + 1 => do
    let run ← readOperand .rleRun m.rleRun t
    if run = 0#32 then .error (.raised .decodeMismatch)
    else do
      let rest ← sumRuns m (t + 1) n
      return run.toNat + rest

/-- The expansion pass of R134 over `n` tokens from token `t` on. -/
def expandRuns (m : Memory) : Nat → Nat → Except Stop (List Byte)
  | _, 0 => .ok []
  | t, n + 1 => do
    let v ← readOperand .rleSym m.rleSym t
    let run ← readOperand .rleRun m.rleRun t
    let rest ← expandRuns m (t + 1) n
    return List.replicate run.toNat v ++ rest

/-- The pseudocode of RLE_DECODE (R134). -/
def rleDecode (s : State) : Except Stop State := do
  let n ← checkN s
  let tokens := s.rleCount.toNat
  if s.params.rleMax < tokens then .error (.raised .capacity)
  else do
    let total ← sumRuns s.mem 0 tokens
    if total ≠ n then .error (.raised .decodeMismatch)
    else do
      let syms ← expandRuns s.mem 0 tokens
      return { s with
        decCount := BitVec.ofNat 32 n
        mem := { s.mem with dec := Sparse.setRange s.mem.dec 0 syms } }

/-- RLE_DECODE (R134). -/
def execRleDecode (s : State) : Host.Outcome State Fault Refusal :=
  finish (CommandResult.ofExcept s (rleDecode s))

end Sys2Proof.Machine
end

