-- ==== Sys2Proof/Machine/Dispatch.lean ====
section
/-! DEFINITION. exec: one arm per command of the opcode table, each one direct call of its meaning (60_exceptions.md
R259: the rule of op is run on the current state, and the command completes). -/

namespace Sys2Proof.Machine

def exec (i : Instr) (s : State) : Host.Outcome State Fault Refusal :=
  match i with
  | .nop => Sys2Proof.Machine.execNop s
  | .clear => Sys2Proof.Machine.execClear s
  | .freqCount => Sys2Proof.Machine.execFreqCount s
  | .rleEncode => Sys2Proof.Machine.execRleEncode s
  | .rleDecode => Sys2Proof.Machine.execRleDecode s
  | .treeBuild => Sys2Proof.Machine.execTreeBuild s
  | .codeGen => Sys2Proof.Machine.execCodeGen s
  | .pack => Sys2Proof.Machine.execPack s
  | .unpack => Sys2Proof.Machine.execUnpack s
  | .huffEncode => Sys2Proof.Machine.execHuffEncode s

end Sys2Proof.Machine
end

