-- ==== Sys2Proof/Machine/Step.lean ====
section
/-! DEFINITION. The step of the machine: one agent moves (00_scope.md R19). -/

namespace Sys2Proof.Machine

/-- EngineStep() (60_exceptions.md R259): decode the latch, run the rule of the command, complete it. -/
def engineStep (s : State) : Host.Outcome State Fault Refusal :=
  match fetch s with
  | .ok i => exec i s
  | .error _ => illegalCommand s

/-- One step: the agent that `whoMoves` names moves. With BUSY = 0 and nothing left in the script the block is idle and
holds all state (R268, log 10). -/
def step (s : State) : Host.Outcome State Fault Refusal :=
  match whoMoves s with
  | some .engine => engineStep (takeTurn s)
  | some .host => hostStep (takeTurn s)
  | none => .next s

/-- `s` after the command word `w` has been accepted (R258), with the engine next to move: the latch is where the engine
step fetches from (R48, log 2). -/
def State.withFetchWord (s : State) (nbits w : Nat) : State :=
  { accept (BitVec.ofNat 32 (w % 2 ^ nbits)) s with sched := .engine :: s.sched }

end Sys2Proof.Machine
end

