-- ==== Sys2Proof/Machine/Accounting.lean ====
section
/-! DEFINITION. Size and ratio accounting (47_host_accounting.md): functions of the host, outside the machine (R7), and
the outputs the host reads after an encode (46_pipeline.md R225). -/

namespace Sys2Proof.Machine

/-- The parts of a Huffman block (R225): packed bytes, code table, shape and padding count. -/
structure CompressedBlock where
  bytes : List Byte
  table : List (Byte × Bits)
  shapeH : Nat
  shapeW : Nat
  shapeC : Nat
  padding : Nat
deriving DecidableEq, Repr

/-- The kinds of representation that R230 sizes. -/
inductive Representation
  | rawNumeric (elementCount elementByteWidth : Nat)
  | rawBytes (bytes : List Byte)
  | rleTokens (tokens : List (Byte × Word))
  | huffmanBlock (b : CompressedBlock)
  /-- Anything else, by a number of the host's. -/
  | other (x : Nat)
deriving DecidableEq, Repr

/-- `size(x)` in bytes (R230, R233, R234, R235). -/
def sizeBytes : Representation → Nat
  | .rawNumeric n w => n * w
  | .rawBytes bs => bs.length
  | .rleTokens ts => ts.length * 2
  | .huffmanBlock b => b.bytes.length + Config.codeTableTextLen b.table
  | .other x => Config.genericSerializedLen x

/-- The original grid as a representation: unsigned 8-bit values (R231). -/
def originalGrid (s : State) : Representation := .rawNumeric (gridSize s) 1

/-- `ratio(o, c)` (R236): an exact rational, 0 where the original size is 0. -/
def ratio (o c : Nat) : Rat :=
  if o = 0 then 0 else (1 - (c : Rat) / (o : Rat)) * 100

/-- The size and ratio report (R238): two sizes and one percentage. -/
def report (original compressed : Representation) : Nat × Nat × Rat :=
  (sizeBytes original, sizeBytes compressed, ratio (sizeBytes original) (sizeBytes compressed))

/-- RLE[0..RLE_COUNT-1] as the host reads it after an RLE encode (R225); none where a token is UNSPECIFIED. -/
def rleOutput (s : State) : Option (List (Byte × Word)) :=
  (List.range s.rleCount.toNat).mapM fun t => do
    let v ← s.rleSymAt t
    let run ← s.rleRunAt t
    return (v, run)

/-- OUT[0..OUT_LEN-1] as the host reads it (R225); none where a byte is UNSPECIFIED. -/
def outBytes (s : State) : Option (List Byte) :=
  (List.range s.outLen.toNat).mapM fun j => s.outAt j

/-- The Huffman block as the host reads it after an encode (R225). -/
def huffmanOutput (s : State) : Option CompressedBlock :=
  (outBytes s).map fun bs =>
    { bytes := bs, table := codeTable s.mem, shapeH := s.shapeH.toNat, shapeW := s.shapeW.toNat,
      shapeC := s.shapeC.toNat, padding := s.padding.toNat }

end Sys2Proof.Machine
end

