-- ==== Sys2Proof/Safety.lean ====
section
/-! DEFINITION. The invariant of the machine, what a command needs in order to run, and what counts as a safe run. -/

namespace Sys2Proof.Machine

/-- STATUS is consistent (10_state.md R24 to R26, R48): the pending bit is 1 exactly while BUSY = 1, a busy block has
neither DONE nor ERR, ERR comes with DONE and with a code of R251, and no ERR comes with code 0. While a command is
pending, LAST_OP shows the opcode field of the latch. -/
structure StatusOk (s : State) : Prop where
  pending_iff_busy : s.pending = s.status.busy
  busy_not_done : s.status.busy = true → s.status.done = false ∧ s.status.err = false
  err_done : s.status.err = true → s.status.done = true
  err_code : s.status.err = true → 1 ≤ s.status.errCode.toNat ∧ s.status.errCode.toNat ≤ 7
  no_err_code : s.status.err = false → s.status.errCode = 0#4
  last_op : s.pending = true → s.status.lastOp = opField s.latch

/-- Every index of a sparse memory is below a bound. -/
def Sparse.below {α : Type} (m : Sparse α) (bound : Nat) : Bool :=
  m.all fun e => decide (e.1 < bound)

/-- The memories hold only elements that exist (00_scope.md R10, R11). -/
def Memory.inBounds (p : Params) (m : Memory) : Bool :=
  Sparse.below m.sym p.nMax && Sparse.below m.freq Config.alphabet && Sparse.below m.node Config.nodePool &&
  Sparse.below m.codeLen Config.alphabet && Sparse.below m.codeBits Config.alphabet && Sparse.below m.out p.outMax &&
  Sparse.below m.rleSym p.rleMax && Sparse.below m.rleRun p.rleMax && Sparse.below m.dec p.nMax

/-- The counts stay in the ranges of 10_state.md R30 and R33, and DEC_COUNT within DEC. -/
structure CountsOk (s : State) : Prop where
  leafCount_le : s.leafCount.toNat ≤ 256
  nodeCount_le : s.nodeCount.toNat ≤ 511
  root_le : s.root.toNat ≤ 510
  padding_le : s.padding.toNat ≤ 8
  decCount_le : s.decCount.toNat ≤ s.params.nMax

/-- `id` is a child of the internal node `n`. -/
def isChildOf (id : Nat) (n : NodeEntry) : Prop :=
  n.isLeaf = false ∧ (n.left.toNat = id ∨ n.right.toNat = id)

/-- The node pool below `count` is a tree of the shape that 43_tree.md R156 gives, with `k` leaves. -/
structure TreeShape (node : Sparse NodeEntry) (k count root : Nat) : Prop where
  leaf_pos : 1 ≤ k
  leaf_le : k ≤ Config.alphabet
  count_eq : count = 2 * k - 1
  root_eq : root = 2 * k - 2
  /-- Ids 0 to k - 1 are leaves, with frequencies above 0. -/
  leaf_node : ∀ id < k, ∃ n, Sparse.get? node id = some n ∧ n.isLeaf = true ∧ n.freq ≠ 0#32 ∧
    n.left = 0#9 ∧ n.right = 0#9
  /-- The leaves stand in ascending symbol order. -/
  leaf_order : ∀ i j m n, i < j → j < k → Sparse.get? node i = some m → Sparse.get? node j = some n →
    m.symbol.toNat < n.symbol.toNat
  /-- Ids k to 2k - 2 are internal: two distinct children, both with smaller ids, whose frequencies they sum. -/
  internal_node : ∀ id, k ≤ id → id < count → ∃ n a b, Sparse.get? node id = some n ∧ n.isLeaf = false ∧
    n.symbol = 0#8 ∧ n.left.toNat < id ∧ n.right.toNat < id ∧ n.left ≠ n.right ∧
    Sparse.get? node n.left.toNat = some a ∧ Sparse.get? node n.right.toNat = some b ∧
    n.freq.toNat = a.freq.toNat + b.freq.toNat
  /-- Every id except the root is the child of exactly one internal node. -/
  parent_unique : ∀ id < root, ∃ q, q < count ∧ (∃ n, Sparse.get? node q = some n ∧ isChildOf id n) ∧
    ∀ r < count, (∃ n, Sparse.get? node r = some n ∧ isChildOf id n) → r = q

/-- Either there is no tree (NODE_COUNT = 0) or the node pool holds one (R30, R174). -/
def TreeOk (s : State) : Prop :=
  if s.nodeCount = 0#10 then s.leafCount = 0#9 ∧ s.root = 0#9
  else TreeShape s.mem.node s.leafCount.toNat s.nodeCount.toNat s.root.toNat

/-- The invariant that every step keeps. -/
structure Inv (s : State) : Prop where
  params_legal : s.params.legal = true
  status_ok : StatusOk s
  memory_wf : s.mem.wf = true
  memory_inBounds : s.mem.inBounds s.params = true
  counts_ok : CountsOk s
  tree_ok : TreeOk s

/-- `syms` is the symbol sequence SYM[0..N-1], all of it written, with N within capacity: the condition under which the
commands that read SYM get past CheckN and their operand reads (R112, R282). -/
structure GridLoaded (s : State) (syms : List Byte) : Prop where
  size_eq : syms.length = gridSize s
  size_pos : 1 ≤ gridSize s
  size_le : gridSize s ≤ s.params.nMax
  sym_eq : ∀ i, ∀ h : i < syms.length, s.symAt i = some syms[i]

/-- Every operand element that a command reads is written (R282, R286). -/
def operandsWritten (i : Instr) (s : State) : Prop :=
  match i with
  | .nop => True
  | .clear => True
  | .freqCount => ∀ k < gridSize s, s.symAt k ≠ none
  | .rleEncode => ∀ k < gridSize s, s.symAt k ≠ none
  | .rleDecode => ∀ t < s.rleCount.toNat, s.rleSymAt t ≠ none ∧ s.rleRunAt t ≠ none
  | .treeBuild => True
  | .codeGen => True
  | .pack => ∀ k < gridSize s, s.symAt k ≠ none
  | .unpack => ∀ j < s.outLen.toNat, s.outAt j ≠ none
  | .huffEncode => ∀ k < gridSize s, s.symAt k ≠ none

/-- A run of `k` steps never stops. -/
def RunsFor (k : Nat) (s : State) : Prop :=
  ∃ t, Host.Core.run Sys2Proof.core k s = .next t

/-- A safe run: no number of steps ends in a fault or a refusal. -/
def Safe (s : State) : Prop :=
  ∀ k, RunsFor k s

/-- The end state of a host script is defined only where nothing is left of it and its last command has completed
(92_eei_decisions.md D48). -/
def endDefined (s : State) : Bool :=
  s.script.isEmpty && !s.status.busy

end Sys2Proof.Machine
end

