-- ==== Sys2Proof/Certificates/Slice0/Obligations.lean ====
section
/-! DEFINITION. The statements for the provers, and the vocabulary they are written in. Each docstring names the rules
of spec/ that a statement formalises or rests on. -/

namespace Sys2Proof.Stated

open Sys2Proof.Machine

/-- The state after a command has completed without an error (10_state.md R26, R259). -/
def completed (s : State) : State :=
  { s with pending := false, status := { s.status with busy := false, done := true } }

/-- The state after a command has completed in the error with ERR_CODE `code` and has changed nothing else (R26, R254).
-/
def failed (code : BitVec 4) (s : State) : State :=
  { s with
    pending := false
    status := { s.status with busy := false, done := true, err := true, errCode := code } }

/-- The exact sum of FREQ (43_tree.md R150). -/
def frequencySum (s : State) : Nat :=
  ((List.range 256).map fun v => (s.freqAt v).toNat).sum

/-- RLE[0..RLE_COUNT-1] holds the tokens `ts` (42_rle.md R130). -/
structure HoldsTokens (s : State) (ts : List (Byte × Word)) : Prop where
  count_eq : s.rleCount.toNat = ts.length
  sym_eq : ∀ k, ∀ h : k < ts.length, s.rleSymAt k = some ts[k].1
  run_eq : ∀ k, ∀ h : k < ts.length, s.rleRunAt k = some ts[k].2

/-- The concatenation of each token's symbol, run-length times (R132). -/
def expandTokens (ts : List (Byte × Word)) : List Byte :=
  (ts.map fun x => List.replicate x.2.toNat x.1).flatten

/-- The sum of the run lengths (R132). -/
def runSum (ts : List (Byte × Word)) : Nat :=
  (ts.map fun x => x.2.toNat).sum

/-- Where a walk from `id` ends that goes LEFT on a "0" and RIGHT on a "1" (44_codes.md R171); none where it leaves the
tree. -/
def followPath (node : Sparse NodeEntry) : Nat → Bits → Option Nat
  | id, [] => some id
  | id, b :: bs =>
    match Sparse.get? node id with
    | none => none
    | some n => if n.isLeaf then none else followPath node (if b then n.right.toNat else n.left.toNat) bs

/-- `key(a) < key(b)` in the node pool: lower frequency first, and at equal frequency the lower id (43_tree.md R151). -/
def keyLess (node : Sparse NodeEntry) (a b : Nat) : Prop :=
  ∃ x y, Sparse.get? node a = some x ∧ Sparse.get? node b = some y ∧
    (x.freq.toNat < y.freq.toNat ∨ (x.freq.toNat = y.freq.toNat ∧ a < b))

/-- `c` is still in the queue when node `id` is made: no internal node made before `id` has it as a child (R150). -/
def stillQueued (node : Sparse NodeEntry) (c id : Nat) : Prop :=
  c < id ∧ ∀ q n, q < id → Sparse.get? node q = some n → ¬ isChildOf c n

/-- Symbol `v` has a leaf in the tree (R156). -/
def hasLeaf (s : State) (v : Byte) : Prop :=
  ∃ id n, id < s.leafCount.toNat ∧ s.nodeAt id = some n ∧ n.symbol = v

/-- No code of the table is a prefix of another (44_codes.md R175). -/
def PrefixFree (m : Memory) : Prop :=
  ∀ a b : Byte, a ≠ b → Sparse.read m.codeLen a.toNat ≠ 0#8 → Sparse.read m.codeLen b.toNat ≠ 0#8 →
    ¬ codeOf m a <+: codeOf m b

/-- `v` is the symbol that Match returns on `data`, with `rest` left over (45_packer.md R195): its code begins `data`,
no code that begins `data` is shorter, and none of the same length belongs to a lower symbol. -/
def IsMatch (m : Memory) (data : Bits) (v : Byte) (rest : Bits) : Prop :=
  Sparse.read m.codeLen v.toNat ≠ 0#8 ∧ data = codeOf m v ++ rest ∧
    ∀ w : Byte, Sparse.read m.codeLen w.toNat ≠ 0#8 → codeOf m w <+: data →
      (codeOf m v).length < (codeOf m w).length ∨
      ((codeOf m v).length = (codeOf m w).length ∧ v.toNat ≤ w.toNat)

/-- The data bits decode, by repeated Match, to exactly these symbols with nothing left over (R196). -/
def Decodes (m : Memory) : List Byte → Bits → Prop
  | [], data => data = []
  | v :: vs, data => ∃ rest, IsMatch m data v rest ∧ Decodes m vs rest

/-- The data bits of a packed buffer: the bits of the bytes after the header, most significant first, less the trailing
`p` bits (R196). -/
def dataBits (bytes : List Byte) (p : Nat) : Bits :=
  ((bytes.drop 1).map bits8).flatten.take (8 * (bytes.length - 1) - p)

/-- OUT[0..OUT_LEN-1] holds these bytes (10_state.md R45). -/
structure HoldsBytes (s : State) (bytes : List Byte) : Prop where
  len_eq : s.outLen.toNat = bytes.length
  byte_eq : ∀ j, ∀ h : j < bytes.length, s.outAt j = some bytes[j]

/-- What UNPACK's DECODE_MISMATCH leaves (60_exceptions.md R254): DEC_COUNT is 0, DEC[0..N-1] are UNSPECIFIED, entries
at N and above keep their contents, and nothing else but STATUS changes. -/
def UnpackMismatch (s t : State) : Prop :=
  t = { failed 2#4 s with decCount := 0#32, mem := { s.mem with dec := t.mem.dec } } ∧
    (∀ i < gridSize s, t.decAt i = none) ∧ ∀ i, gridSize s ≤ i → t.decAt i = s.decAt i

/-- The reserved addresses of 20_memory.md R66: a reserved register offset, an index at or beyond a window's bound, CODE
words 9 to 15, regions 8 to 15. -/
def reservedAddr (p : Params) (a : Word) : Prop :=
  let i := (a.extractLsb' 2 26).toNat
  match (a.extractLsb' 28 4).toNat with
  | 0 => 0x48 < (a.extractLsb' 0 28).toNat
  | 1 => p.nMax ≤ i
  | 2 => 256 ≤ i
  | 3 => 2044 ≤ i
  | 4 => 4096 ≤ i ∨ 9 ≤ i % 16
  | 5 => p.outMax ≤ i
  | 6 => 2 * p.rleMax ≤ i
  | 7 => p.nMax ≤ i
  | _ => True

/-- What command `i` leaves unchanged from `s` to `t` (the "Writes" line of each command's rule): every field of the
state but the listed ones, and in the windows every entry outside the range the command writes. STATUS and the pending
bit are the completion's (R26). -/
def KeepsFrame (i : Instr) (s t : State) : Prop :=
  match i with
  | .nop => t = { s with pending := t.pending, status := t.status }
  | .clear =>
    t = { s with
      pending := t.pending, status := t.status, shapeH := t.shapeH, shapeW := t.shapeW, shapeC := t.shapeC
      leafCount := t.leafCount, nodeCount := t.nodeCount, root := t.root, maxCodeLen := t.maxCodeLen
      totalBits := t.totalBits, padding := t.padding, outLen := t.outLen, rleCount := t.rleCount
      decCount := t.decCount
      mem := { s.mem with freq := t.mem.freq, codeLen := t.mem.codeLen, codeBits := t.mem.codeBits } }
  | .freqCount => t = { s with pending := t.pending, status := t.status, mem := { s.mem with freq := t.mem.freq } }
  | .rleEncode =>
    t = { s with
      pending := t.pending, status := t.status, rleCount := t.rleCount
      mem := { s.mem with rleSym := t.mem.rleSym, rleRun := t.mem.rleRun } } ∧
    ∀ k, t.rleCount.toNat ≤ k → t.rleSymAt k = s.rleSymAt k ∧ t.rleRunAt k = s.rleRunAt k
  | .rleDecode =>
    t = { s with pending := t.pending, status := t.status, decCount := t.decCount
                 mem := { s.mem with dec := t.mem.dec } } ∧
    ∀ k, gridSize s ≤ k → t.decAt k = s.decAt k
  | .treeBuild =>
    t = { s with
      pending := t.pending, status := t.status, leafCount := t.leafCount, nodeCount := t.nodeCount, root := t.root
      mem := { s.mem with node := t.mem.node } } ∧
    ∀ k, t.nodeCount.toNat ≤ k → t.nodeAt k = s.nodeAt k
  | .codeGen =>
    t = { s with
      pending := t.pending, status := t.status, maxCodeLen := t.maxCodeLen
      mem := { s.mem with codeLen := t.mem.codeLen, codeBits := t.mem.codeBits } }
  | .pack =>
    t = { s with
      pending := t.pending, status := t.status, outLen := t.outLen, totalBits := t.totalBits, padding := t.padding
      mem := { s.mem with out := t.mem.out } } ∧
    ∀ k, t.outLen.toNat ≤ k → t.outAt k = s.outAt k
  | .unpack =>
    t = { s with
      pending := t.pending, status := t.status, decCount := t.decCount, totalBits := t.totalBits, padding := t.padding
      mem := { s.mem with dec := t.mem.dec } } ∧
    ∀ k, gridSize s ≤ k → t.decAt k = s.decAt k
  | .huffEncode =>
    t = { s with
      pending := t.pending, status := t.status, leafCount := t.leafCount, nodeCount := t.nodeCount, root := t.root
      maxCodeLen := t.maxCodeLen, outLen := t.outLen, totalBits := t.totalBits, padding := t.padding
      mem := { s.mem with freq := t.mem.freq, node := t.mem.node, codeLen := t.mem.codeLen
                          codeBits := t.mem.codeBits, out := t.mem.out } } ∧
    (∀ k, t.nodeCount.toNat ≤ k → t.nodeAt k = s.nodeAt k) ∧
    ∀ k, t.outLen.toNat ≤ k → t.outAt k = s.outAt k

end Sys2Proof.Stated

open Sys2Proof Sys2Proof.Machine Sys2Proof.Stated

/-! ### Encoding -/

/-- The ten command words of 30_encoding.md R92, written out bit by bit, decode to their commands. -/
def Obligations.TableWordsDecode : Prop :=
  decode 0b00000000000000000000000000000000#32 = .ok .nop ∧
  decode 0b00000000000000000000000000000001#32 = .ok .clear ∧
  decode 0b00000000000000000000000000010000#32 = .ok .freqCount ∧
  decode 0b00000000000000000000000000100000#32 = .ok .rleEncode ∧
  decode 0b00000000000000000000000000100001#32 = .ok .rleDecode ∧
  decode 0b00000000000000000000000000110000#32 = .ok .treeBuild ∧
  decode 0b00000000000000000000000001000000#32 = .ok .codeGen ∧
  decode 0b00000000000000000000000001010000#32 = .ok .pack ∧
  decode 0b00000000000000000000000001010001#32 = .ok .unpack ∧
  decode 0b00000000000000000000000001100000#32 = .ok .huffEncode

/-- Decoding the encoding of any command gives it back, from the word and from its four bytes (R92, R69;
log 23). -/
def Obligations.EncodingRoundTrips : Prop :=
  ∀ i : Instr, decode (encode i) = .ok i ∧ decodeBytes (encodeBytes i) = .ok i

/-- R93, R94: a word is legal exactly when its bits [31:8] are 0 and its bits [7:0] are one of the ten opcodes, each
command has exactly one word, and every other word, once accepted, completes with ILLEGAL_COMMAND (code 7), changes
nothing but STATUS and the pending bit, and leaves its low byte in LAST_OP. -/
def Obligations.LegalWordsAreExactlyTheTable : Prop :=
  ∀ c : Word,
    (∀ i, decode c = .ok i ↔ c = encode i) ∧
    ((∃ i, decode c = .ok i) ↔
      c.extractLsb' 8 24 = 0#24 ∧
      c.extractLsb' 0 8 ∈ [0x00#8, 0x01#8, 0x10#8, 0x20#8, 0x21#8, 0x30#8, 0x40#8, 0x50#8, 0x51#8, 0x60#8]) ∧
    ((∀ i, decode c ≠ .ok i) → ∀ s : State,
      ∃ t, engineStep (accept c s) = .next t ∧ t = failed 7#4 (accept c s) ∧ t.status.lastOp = c.extractLsb' 0 8)

/-! ### The two agents and the life of a command -/

/-- R259: where a command is pending and it is the engine's turn, a step runs exec of the decoded latch, with one entry
of the schedule used up; and the step after a command word is placed with withFetchWord runs that command on the state
after its acceptance. The schedule is the model's own (log 1). -/
def Obligations.StepRunsDecodedCommand : Prop :=
  (∀ (s : State) (i : Instr), s.pending = true → ¬ (s.sched.head? = some .host ∧ s.script ≠ []) →
    decode s.latch = .ok i → step s = exec i { s with sched := s.sched.tail }) ∧
  ∀ (s : State) (i : Instr), step (s.withFetchWord 32 (encode i).toNat) = exec i (accept (encode i) s)

/-- R258, R25: a write to CMD while BUSY = 0 latches the word, sets the pending bit and updates STATUS, all in one step;
while BUSY = 1 it is ignored. -/
def Obligations.CmdWriteSubmits : Prop :=
  ∀ (s : State) (c : Word),
    (s.status.busy = false → portWrite s 0x00000004#32 c =
      { s with
        latch := c, pending := true
        status := { busy := true, done := false, err := false, errCode := 0#4, lastOp := c.extractLsb' 0 8 } }) ∧
    (s.status.busy = true → portWrite s 0x00000004#32 c = s)

/-- R26, R251: whatever command ran, in whatever state, completion clears BUSY and the pending bit, sets DONE and keeps
LAST_OP; ERR and ERR_CODE either stay as they were, or ERR is 1 and ERR_CODE is one of the codes 1 to 6. -/
def Obligations.CompletionUpdatesStatus : Prop :=
  ∀ (i : Instr) (s t : State), exec i s = .next t →
    t.pending = false ∧ t.status.busy = false ∧ t.status.done = true ∧ t.status.lastOp = s.status.lastOp ∧
    ((t.status.err = s.status.err ∧ t.status.errCode = s.status.errCode) ∨
     (t.status.err = true ∧ 1 ≤ t.status.errCode.toNat ∧ t.status.errCode.toNat ≤ 6))

/-- R26: STATUS is changed only at acceptance, at completion and at reset: a host step leaves it alone unless it writes
CMD while BUSY = 0 or performs the reset event. -/
def Obligations.HostStepsKeepStatus : Prop :=
  ∀ s t : State, whoMoves s = some .host → step s = .next t →
    t.status = s.status ∨
    (∃ c rest, s.script = .wr 0x00000004#32 c :: rest ∧ s.status.busy = false ∧
      t.status = Status.accept (c.extractLsb' 0 8)) ∨
    (∃ rest, s.script = .reset :: rest ∧ t.status = Status.reset)

/-- R254, R260: a command that starts with ERR = 0 and ends with ERR = 1 changes no state but STATUS and the pending
bit, except that UNPACK's DECODE_MISMATCH leaves what R254 says. (HUFF_ENCODE is covered by its own statement.) -/
def Obligations.FailedCommandChangesOnlyStatus : Prop :=
  ∀ (i : Instr) (s t : State), i ≠ .huffEncode → s.status.err = false → exec i s = .next t → t.status.err = true →
    t = failed t.status.errCode s ∨ (i = .unpack ∧ UnpackMismatch s t)

/-- The frame of all ten commands (the "Writes" lines of R110, R111, R120, R131, R134, R150, R170, R191, R196, R220):
each, whether it ends in an error or not, changes only its own write set, STATUS and the pending bit. -/
def Obligations.EachCommandKeepsItsFrame : Prop :=
  ∀ (i : Instr) (s t : State), s.params.legal = true → exec i s = .next t →
    KeepsFrame i s t

/-- R27: no command reads STATUS: from two states that differ only in STATUS, a command ends in states that differ only
in STATUS. -/
def Obligations.CommandsDoNotReadStatus : Prop :=
  ∀ (i : Instr) (s t : State) (st : Status), exec i s = .next t →
    ∃ u, exec i { s with status := st } = .next u ∧ u = { t with status := u.status }

/-- R289, R259: every command completes: from any state that meets the invariant and has the command's operands written,
the engine step answers a next state. -/
def Obligations.EveryCommandCompletes : Prop :=
  ∀ (i : Instr) (s : State), Inv s → operandsWritten i s → ∃ t, exec i s = .next t

/-- R96, R285, R289: a WAIT after an accepted command ends. However the schedule interleaves the agents, within two more
steps than its length the WAIT is over, BUSY is 0, and the name s is bound to STATUS. The bound comes from the model's
schedule (logs 1 and 17). -/
def Obligations.WaitEndsWithBusyClear : Prop :=
  ∀ (s : State) (rest : Script), Inv s → s.pending = true → s.script = .wait :: rest →
    (∀ i, decode s.latch = .ok i → operandsWritten i s) →
    ∃ k t, k ≤ s.sched.length + 2 ∧ Host.Core.run core k s = .next t ∧ t.script = rest ∧ t.status.busy = false ∧
      boundValue "s" t = some t.status.word

/-! ### Reset and the invariant -/

/-- R50: the table of reset values, with any parameters, and the table of values after CLEAR from any state. UNSPECIFIED
elements are not listed. -/
def Obligations.ResetAndClearLeaveTheTable : Prop :=
  (∀ p : Params, ∀ s, s = State.resetWith p →
    regWord s .id = 0x48554631#32 ∧ s.status.word = 0#32 ∧
    s.shapeH = 0#32 ∧ s.shapeW = 0#32 ∧ s.shapeC = 0#32 ∧ regWord s .n = 0#32 ∧
    s.leafCount = 0#9 ∧ s.nodeCount = 0#10 ∧ s.root = 0#9 ∧ s.maxCodeLen = 0#8 ∧
    s.totalBits = 0#32 ∧ s.padding = 0#4 ∧ s.outLen = 0#32 ∧ s.rleCount = 0#32 ∧ s.decCount = 0#32 ∧
    regWord s .capN = BitVec.ofNat 32 p.nMax ∧ regWord s .capOut = BitVec.ofNat 32 p.outMax ∧
    regWord s .capRle = BitVec.ofNat 32 p.rleMax ∧ s.pending = false ∧
    ∀ i, s.symAt i = none ∧ s.outAt i = none ∧ s.rleSymAt i = none ∧ s.rleRunAt i = none ∧ s.decAt i = none ∧
      s.nodeAt i = none ∧ s.freqAt i = 0#32 ∧ s.codeLenAt i = 0#8 ∧ s.codeBitsAt i = 0#256) ∧
  ∀ s : State, ∃ t, exec .clear (accept (encode .clear) s) = .next t ∧
    regWord t .id = 0x48554631#32 ∧ t.status.word = 0x00000102#32 ∧
    t.shapeH = 0#32 ∧ t.shapeW = 0#32 ∧ t.shapeC = 0#32 ∧ regWord t .n = 0#32 ∧
    t.leafCount = 0#9 ∧ t.nodeCount = 0#10 ∧ t.root = 0#9 ∧ t.maxCodeLen = 0#8 ∧
    t.totalBits = 0#32 ∧ t.padding = 0#4 ∧ t.outLen = 0#32 ∧ t.rleCount = 0#32 ∧ t.decCount = 0#32 ∧
    t.params = s.params ∧ t.pending = false ∧
    ∀ i, t.symAt i = s.symAt i ∧ t.outAt i = s.outAt i ∧ t.rleSymAt i = s.rleSymAt i ∧
      t.rleRunAt i = s.rleRunAt i ∧ t.decAt i = s.decAt i ∧ t.nodeAt i = s.nodeAt i ∧
      t.freqAt i = 0#32 ∧ t.codeLenAt i = 0#8 ∧ t.codeBitsAt i = 0#256

/-- R280: the reset event, performed by the host's side, gives every piece of state its value after reset, abandons a
pending command, and keeps the parameters; the script, schedule, bindings and draw counter are the model's own (log 11).
-/
def Obligations.ResetEventResets : Prop :=
  ∀ (s : State) (rest : Script), s.script = .reset :: rest → whoMoves s = some .host →
    ∃ t, step s = .next t ∧
      t = { State.resetWith s.params with script := rest, sched := t.sched, bindings := s.bindings, draws := s.draws }

/-- The machine right after reset meets the invariant, with every legal choice of parameters. -/
def Obligations.ResetMeetsInvariant : Prop :=
  ∀ p : Params, p.legal = true → Inv (State.resetWith p)

/-- Every step keeps the invariant: legal parameters, a consistent STATUS and latch, memories in canonical form and
within their bounds, counts in range, and in the node pool either no tree or a tree of the shape R156 gives. -/
def Obligations.StepKeepsInvariant : Prop :=
  ∀ s t : State, Inv s → step s = .next t → Inv t

/-! ### The host port -/

/-- R22, R37, R24 and the register map. ID and the capability registers always read their constants and STATUS always
reads its fields in their places, and writes to all read-only registers are ignored; while BUSY = 0 every other register
reads its field, and a write to a read-write one stores the full word and changes nothing else. -/
def Obligations.RegisterMapAccess : Prop :=
  ∀ (s : State) (d v : Word),
    portRead s 0x00#32 d = 0x48554631#32 ∧
    portRead s 0x40#32 d = BitVec.ofNat 32 s.params.nMax ∧ portRead s 0x44#32 d = BitVec.ofNat 32 s.params.outMax ∧
    portRead s 0x48#32 d = BitVec.ofNat 32 s.params.rleMax ∧
    ((portRead s 0x08#32 d).getLsbD 0 = s.status.busy ∧ (portRead s 0x08#32 d).getLsbD 1 = s.status.done ∧
      (portRead s 0x08#32 d).getLsbD 2 = s.status.err ∧ (portRead s 0x08#32 d).extractLsb' 4 4 = s.status.errCode ∧
      (portRead s 0x08#32 d).extractLsb' 8 8 = s.status.lastOp ∧
      ∀ k, k = 3 ∨ 16 ≤ k → (portRead s 0x08#32 d).getLsbD k = false) ∧
    (∀ a ∈ [0x00#32, 0x08#32, 0x18#32, 0x1C#32, 0x20#32, 0x24#32, 0x28#32, 0x2C#32, 0x30#32, 0x3C#32, 0x40#32,
      0x44#32, 0x48#32], portWrite s a v = s) ∧
    (s.status.busy = false →
      portRead s 0x04#32 d = 0#32 ∧
      portRead s 0x0C#32 d = s.shapeH ∧ portRead s 0x10#32 d = s.shapeW ∧ portRead s 0x14#32 d = s.shapeC ∧
      portRead s 0x18#32 d =
        BitVec.ofNat 32 (min (s.shapeH.toNat * s.shapeW.toNat * s.shapeC.toNat) 0xFFFFFFFF) ∧
      portRead s 0x1C#32 d = s.leafCount.setWidth 32 ∧ portRead s 0x20#32 d = s.nodeCount.setWidth 32 ∧
      portRead s 0x24#32 d = s.root.setWidth 32 ∧ portRead s 0x28#32 d = s.maxCodeLen.setWidth 32 ∧
      portRead s 0x2C#32 d = s.totalBits ∧ portRead s 0x30#32 d = s.padding.setWidth 32 ∧
      portRead s 0x34#32 d = s.outLen ∧ portRead s 0x38#32 d = s.rleCount ∧ portRead s 0x3C#32 d = s.decCount ∧
      portWrite s 0x0C#32 v = { s with shapeH := v } ∧ portWrite s 0x10#32 v = { s with shapeW := v } ∧
      portWrite s 0x14#32 v = { s with shapeC := v } ∧ portWrite s 0x34#32 v = { s with outLen := v } ∧
      portWrite s 0x38#32 v = { s with rleCount := v })

/-- R66, R67: while BUSY = 0, a read of a misaligned or reserved address returns 0, and a write to one is ignored. -/
def Obligations.ReservedAndMisalignedDoNothing : Prop :=
  ∀ (s : State) (a d v : Word), s.status.busy = false → a.extractLsb' 0 2 ≠ 0#2 ∨ reservedAddr s.params a →
    portRead s a d = 0#32 ∧ portWrite s a v = s

/-- R63, R38, R16: what each window index reads while BUSY = 0, zero-extended; an UNSPECIFIED element reads as a free
value of its width, whatever the free word `d` of this read is. -/
def Obligations.WindowsReadTheirElements : Prop :=
  ∀ (s : State) (d : Word), s.params.legal = true → s.status.busy = false →
    (∀ i < s.params.nMax, portRead s (symAddr i) d = ((s.symAt i).getD (d.setWidth 8)).setWidth 32 ∧
      portRead s (decAddr i) d = ((s.decAt i).getD (d.setWidth 8)).setWidth 32) ∧
    (∀ i < 256, portRead s (freqAddr i) d = s.freqAt i) ∧
    (∀ j < s.params.outMax, portRead s (outAddr j) d = ((s.outAt j).getD (d.setWidth 8)).setWidth 32) ∧
    ∀ k < s.params.rleMax, portRead s (rleSymAddr k) d = ((s.rleSymAt k).getD (d.setWidth 8)).setWidth 32 ∧
      portRead s (rleRunAddr k) d = (s.rleRunAt k).getD d

/-- R65, R62: what a write to each window stores while BUSY = 0 (the element's width of the word), that every other
element keeps its value, and that NODE and DEC ignore writes. -/
def Obligations.WindowWritesStoreTheirElements : Prop :=
  ∀ (s : State) (v : Word), s.params.legal = true → s.status.busy = false →
    (∀ i < s.params.nMax, ∃ t, portWrite s (symAddr i) v = t ∧ t = { s with mem := { s.mem with sym := t.mem.sym } } ∧
      ∀ j, t.symAt j = if j = i then some (v.setWidth 8) else s.symAt j) ∧
    (∀ i < 256, ∃ t, portWrite s (freqAddr i) v = t ∧ t = { s with mem := { s.mem with freq := t.mem.freq } } ∧
      ∀ j, t.freqAt j = if j = i then v else s.freqAt j) ∧
    (∀ i < s.params.outMax, ∃ t, portWrite s (outAddr i) v = t ∧ t = { s with mem := { s.mem with out := t.mem.out } } ∧
      ∀ j, t.outAt j = if j = i then some (v.setWidth 8) else s.outAt j) ∧
    (∀ i < s.params.rleMax, ∃ t, portWrite s (rleSymAddr i) v = t ∧
      t = { s with mem := { s.mem with rleSym := t.mem.rleSym } } ∧
      ∀ j, t.rleSymAt j = if j = i then some (v.setWidth 8) else s.rleSymAt j) ∧
    (∀ i < s.params.rleMax, ∃ t, portWrite s (rleRunAddr i) v = t ∧
      t = { s with mem := { s.mem with rleRun := t.mem.rleRun } } ∧
      ∀ j, t.rleRunAt j = if j = i then some v else s.rleRunAt j) ∧
    (∀ id < 511, ∀ w < 4, portWrite s (nodeAddr id w) v = s) ∧
    ∀ i < s.params.nMax, portWrite s (decAddr i) v = s

/-- R44: the window layout of CODE while BUSY = 0. Word 0 is CODE_LEN; code bit k stands in word 1 + (k div 32) at bit
31 - (k mod 32); words 9 to 15 read 0 and ignore writes; a write of word 0 stores bits [7:0], and a write of words 1 to
8 changes exactly the 32 code bits of that word. -/
def Obligations.CodeWindowLayout : Prop :=
  ∀ (s : State) (d v : Word) (c : Nat), s.status.busy = false → c < 256 →
    portRead s (codeAddr c 0) d = (s.codeLenAt c).setWidth 32 ∧
    (∀ k < 256, (portRead s (codeAddr c (1 + k / 32)) d).getLsbD (31 - k % 32) = (s.codeBitsAt c).getMsbD k) ∧
    (∀ w, 9 ≤ w → w < 16 → portRead s (codeAddr c w) d = 0#32 ∧ portWrite s (codeAddr c w) v = s) ∧
    (∃ t, portWrite s (codeAddr c 0) v = t ∧ t = { s with mem := { s.mem with codeLen := t.mem.codeLen } } ∧
      ∀ j, t.codeLenAt j = if j = c then v.setWidth 8 else s.codeLenAt j) ∧
    ∀ w, 1 ≤ w → w ≤ 8 → ∃ t, portWrite s (codeAddr c w) v = t ∧
      t = { s with mem := { s.mem with codeBits := t.mem.codeBits } } ∧
      (∀ j, j ≠ c → t.codeBitsAt j = s.codeBitsAt j) ∧
      ∀ k < 256, (t.codeBitsAt c).getMsbD k =
        if 1 + k / 32 = w then v.getLsbD (31 - k % 32) else (s.codeBitsAt c).getMsbD k

/-- R42, R41, R16: the window layout of NODE while BUSY = 0. A written entry reads FREQ; IS_LEAF at bit 31 and SYMBOL at
bits [7:0] with 0 between; LEFT; RIGHT. An UNSPECIFIED entry reads free values in those fields and 0 between (log 5). -/
def Obligations.NodeWindowLayout : Prop :=
  ∀ (s : State) (d : Word) (id : Nat), s.status.busy = false → id < 511 →
    (∀ k, 8 ≤ k → k < 31 → (portRead s (nodeAddr id 1) d).getLsbD k = false) ∧
    (∀ n, s.nodeAt id = some n →
      portRead s (nodeAddr id 0) d = n.freq ∧
      (portRead s (nodeAddr id 1) d).getLsbD 31 = n.isLeaf ∧
      (portRead s (nodeAddr id 1) d).setWidth 8 = n.symbol ∧
      portRead s (nodeAddr id 2) d = n.left.setWidth 32 ∧ portRead s (nodeAddr id 3) d = n.right.setWidth 32) ∧
    (s.nodeAt id = none →
      portRead s (nodeAddr id 0) d = d ∧
      (portRead s (nodeAddr id 1) d).getLsbD 31 = d.getLsbD 31 ∧
      (portRead s (nodeAddr id 1) d).setWidth 8 = d.setWidth 8 ∧
      portRead s (nodeAddr id 2) d = (d.setWidth 9).setWidth 32 ∧
      portRead s (nodeAddr id 3) d = (d.setWidth 9).setWidth 32)

/-- R284, R64: while BUSY = 1, STATUS, ID, CAP_N, CAP_OUT and CAP_RLE read true, and every other read returns the free word
`d` of that read, whatever it is. That "every other read" takes in reserved, misaligned and CMD addresses, which R23, R66
and R67 give 0 without naming BUSY, is the model's reading (log 6). -/
def Obligations.BusyReadsAreUnspecified : Prop :=
  ∀ (s : State) (d : Word), s.status.busy = true →
    portRead s 0x08#32 d = s.status.word ∧ portRead s 0x00#32 d = 0x48554631#32 ∧
    portRead s 0x40#32 d = BitVec.ofNat 32 s.params.nMax ∧ portRead s 0x44#32 d = BitVec.ofNat 32 s.params.outMax ∧
    portRead s 0x48#32 d = BitVec.ofNat 32 s.params.rleMax ∧
    ∀ a, a ∉ [0x08#32, 0x00#32, 0x40#32, 0x44#32, 0x48#32] → portRead s a d = d

/-- R283: while BUSY = 1 the port ignores every write, CMD included, and the model treats a host write as a fault of the
host program. -/
def Obligations.BusyWritesFault : Prop :=
  ∀ (s : State) (a v : Word) (rest : Script), s.status.busy = true →
    portWrite s a v = s ∧
    (s.script = .wr a v :: rest → whoMoves s = some .host → step s = .fault (.hostWriteWhileBusy a v))

/-- R70: a host program that holds a narrow access is refused before it runs, a program that holds none is taken as it
is; a narrow access that comes up in a script is refused too, which is the model's choice (log 8). -/
def Obligations.NarrowAccessesRefused : Prop :=
  (∀ (p : Script) (s : State), (p.wellFormed = true → loadScript p s = .next { s with script := s.script ++ p }) ∧
    (p.wellFormed = false → ∃ a n, loadScript p s = .refused (.narrowAccess a n))) ∧
  ∀ (s : State) (a v : Word) (n : Nat) (x : String) (rest : Script), whoMoves s = some .host →
    (s.script = .narrowRead a n x :: rest → step s = .refused (.narrowAccess a n)) ∧
    (s.script = .narrowWrite a n v :: rest → step s = .refused (.narrowAccess a n))

/-- R71, R64: a read changes nothing of the block: a host RD step changes only the host's own fields (script, schedule,
bindings, draw counter), and binds the name to what PortRead returns with the free word of this read (logs 5 and 20). -/
def Obligations.ReadsHaveNoSideEffect : Prop :=
  ∀ (s : State) (a : Word) (x : String) (rest : Script), s.script = .rd a x :: rest → whoMoves s = some .host →
    ∃ t, step s = .next t ∧ boundValue x t = some (portRead s a (Config.freeWord s.draws)) ∧
      t = { s with script := rest, sched := t.sched, bindings := t.bindings, draws := s.draws + 1 }

/-- R39: the flattening of a grid is row-major and channel-interleaved, stays within the grid's size, and is undone by
the reshape, in both directions. -/
def Obligations.FlatteningIsInvertible : Prop :=
  ∀ h w ch : Nat,
    (∀ y x c, y < h → x < w → c < ch →
      flattenIndex w ch y x c = (y * w + x) * ch + c ∧ flattenIndex w ch y x c < h * w * ch ∧
      reshapeIndex w ch (flattenIndex w ch y x c) = (y, x, c)) ∧
    ∀ i < h * w * ch, (reshapeIndex w ch i).1 < h ∧ (reshapeIndex w ch i).2.1 < w ∧ (reshapeIndex w ch i).2.2 < ch ∧
      flattenIndex w ch (reshapeIndex w ch i).1 (reshapeIndex w ch i).2.1 (reshapeIndex w ch i).2.2 = i

/-! ### Control commands and CheckN -/

/-- R110: NOP does nothing but complete; its word is 0; after acceptance it leaves STATUS 0x00000002; with RSV set it is
no NOP and raises ILLEGAL_COMMAND. -/
def Obligations.NopOnlyCompletes : Prop :=
  (∀ s : State, exec .nop s = .next (completed s)) ∧ decode 0x00000000#32 = .ok .nop ∧
  (∀ s : State, ∃ t, exec .nop (accept 0x00000000#32 s) = .next t ∧ t.status.word = 0x00000002#32) ∧
  ∀ (c : Word) (s : State), c.extractLsb' 0 8 = 0#8 → c.extractLsb' 8 24 ≠ 0#24 →
    engineStep (accept c s) = .next (failed 7#4 (accept c s))

/-- R111: CLEAR sets the shape and result registers, FREQ and CODE to 0 and keeps everything else; a second CLEAR
changes nothing further; after it TREE_BUILD raises EMPTY_INPUT and CODE_GEN raises NO_TREE. -/
def Obligations.ClearZeroesRegistersAndTables : Prop :=
  decode 0x00000001#32 = .ok .clear ∧
  ∀ s : State, ∃ t, exec .clear s = .next t ∧
    (∀ v, t.freqAt v = 0#32 ∧ t.codeLenAt v = 0#8 ∧ t.codeBitsAt v = 0#256) ∧
    t = { completed s with
      shapeH := 0#32, shapeW := 0#32, shapeC := 0#32, leafCount := 0#9, nodeCount := 0#10, root := 0#9
      maxCodeLen := 0#8, totalBits := 0#32, padding := 0#4, outLen := 0#32, rleCount := 0#32, decCount := 0#32
      mem := { s.mem with freq := t.mem.freq, codeLen := t.mem.codeLen, codeBits := t.mem.codeBits } } ∧
    exec .clear t = .next t ∧ exec .treeBuild t = .next (failed 1#4 t) ∧ exec .codeGen t = .next (failed 6#4 t) ∧
    ∃ u, exec .clear (accept 0x00000001#32 s) = .next u ∧ u.status.word = 0x00000102#32

/-- R112, R255: the shape check of the six commands that use it: N = 0 raises EMPTY_INPUT and N > N_MAX raises CAPACITY,
before anything else, and nothing but STATUS and the pending bit changes. N is the exact product (R17). -/
def Obligations.ShapeCheckComesFirst : Prop :=
  ∀ (s : State) (i : Instr), i ∈ [.freqCount, .rleEncode, .rleDecode, .pack, .unpack, .huffEncode] →
    (s.shapeH.toNat * s.shapeW.toNat * s.shapeC.toNat = 0 → exec i s = .next (failed 1#4 s)) ∧
    (s.params.nMax < s.shapeH.toNat * s.shapeW.toNat * s.shapeC.toNat → exec i s = .next (failed 3#4 s))

/-- R286 (93_implementation_defined.md row 9): a command that reaches an UNSPECIFIED operand element faults, at the
first such element in index order (log 12). -/
def Obligations.UnwrittenOperandFaults : Prop :=
  ∀ (s : State) (k : Nat), 1 ≤ gridSize s → gridSize s ≤ s.params.nMax → k < gridSize s → s.symAt k = none →
    (∀ j < k, s.symAt j ≠ none) →
    (∀ i ∈ [Instr.freqCount, .rleEncode, .huffEncode], exec i s = .fault (.unwrittenOperand .sym k)) ∧
    ((∀ j < k, ∀ v, s.symAt j = some v → s.codeLenAt v.toNat ≠ 0#8) →
      exec .pack s = .fault (.unwrittenOperand .sym k))

/-! ### Frequency Counter -/

/-- R120: FREQ_COUNT leaves in FREQ the number of times each symbol occurs in SYM[0..N-1], and changes nothing else but
STATUS and the pending bit; its errors change only these. -/
def Obligations.FreqCountCounts : Prop :=
  decode 0x00000010#32 = .ok .freqCount ∧
  ∀ s : State,
    (∀ syms, GridLoaded s syms → ∃ t, exec .freqCount s = .next t ∧
      (∀ v : Byte, t.freqAt v.toNat = BitVec.ofNat 32 (syms.count v)) ∧
      t = { completed s with mem := { s.mem with freq := t.mem.freq } }) ∧
    (gridSize s = 0 → exec .freqCount s = .next (failed 1#4 s)) ∧
    (s.params.nMax < gridSize s → exec .freqCount s = .next (failed 3#4 s))

/-- R121 (which the spec derives from R120): after a successful FREQ_COUNT the entries of FREQ sum to N, an entry is
above 0 exactly when its symbol occurs, and at most 256 and at most N entries are nonzero. -/
def Obligations.FreqCountTotals : Prop :=
  ∀ (s t : State) (syms : List Byte), s.params.legal = true → GridLoaded s syms → exec .freqCount s = .next t →
    frequencySum t = gridSize s ∧ (∀ v : Byte, t.freqAt v.toNat ≠ 0#32 ↔ v ∈ syms) ∧
    (List.range 256).countP (fun v => decide (t.freqAt v ≠ 0#32)) ≤ min 256 (gridSize s)

/-- R122, R222 (which the spec derives from R120): no history: FREQ after FREQ_COUNT depends only on SHAPE and
SYM[0..N-1]. -/
def Obligations.FreqCountHasNoHistory : Prop :=
  ∀ (s s' t t' : State), s'.shapeH = s.shapeH → s'.shapeW = s.shapeW → s'.shapeC = s.shapeC →
    (∀ k < gridSize s, s'.symAt k = s.symAt k) → 1 ≤ gridSize s → gridSize s ≤ s.params.nMax →
    gridSize s ≤ s'.params.nMax → exec .freqCount s = .next t → exec .freqCount s' = .next t' →
    t'.mem.freq = t.mem.freq

/-! ### Run-length coding -/

/-- R131, and R132, which the spec derives from it: RLE_ENCODE leaves the maximal runs of SYM[0..N-1]: every run is at
least 1, they sum to N, adjacent tokens differ, and their expansion is the input; tokens beyond RLE_COUNT and everything
else keep their contents. -/
def Obligations.RleEncodeEmitsMaximalRuns : Prop :=
  decode 0x00000020#32 = .ok .rleEncode ∧
  ∀ s : State,
    (∀ syms, s.params.legal = true → GridLoaded s syms → ∃ t ts, exec .rleEncode s = .next t ∧ HoldsTokens t ts ∧
      (∀ x ∈ ts, 1 ≤ x.2.toNat) ∧ runSum ts = gridSize s ∧
      (∀ k, ∀ h : k + 1 < ts.length, ts[k].1 ≠ ts[k + 1].1) ∧ expandTokens ts = syms ∧
      t = { completed s with
        rleCount := t.rleCount, mem := { s.mem with rleSym := t.mem.rleSym, rleRun := t.mem.rleRun } } ∧
      ∀ k, ts.length ≤ k → t.rleSymAt k = s.rleSymAt k ∧ t.rleRunAt k = s.rleRunAt k) ∧
    (gridSize s = 0 → exec .rleEncode s = .next (failed 1#4 s)) ∧
    (s.params.nMax < gridSize s → exec .rleEncode s = .next (failed 3#4 s))

/-- R134: RLE_DECODE expands the tokens into DEC where every run is at least 1 and they sum to N; it raises CAPACITY
where RLE_COUNT > RLE_MAX and DECODE_MISMATCH where some run is 0 or the sum differs, and then changes only STATUS and
the pending bit. -/
def Obligations.RleDecodeExpandsTokens : Prop :=
  decode 0x00000021#32 = .ok .rleDecode ∧
  ∀ s : State,
    (gridSize s = 0 → exec .rleDecode s = .next (failed 1#4 s)) ∧
    (s.params.nMax < gridSize s → exec .rleDecode s = .next (failed 3#4 s)) ∧
    (1 ≤ gridSize s → gridSize s ≤ s.params.nMax →
      (s.params.rleMax < s.rleCount.toNat → exec .rleDecode s = .next (failed 3#4 s)) ∧
      (s.rleCount.toNat ≤ s.params.rleMax →
        (∀ ts, HoldsTokens s ts → (∀ x ∈ ts, 1 ≤ x.2.toNat) → runSum ts = gridSize s →
          ∃ t, exec .rleDecode s = .next t ∧
            (∀ i, ∀ h : i < (expandTokens ts).length, t.decAt i = some (expandTokens ts)[i]) ∧
            (∀ i, gridSize s ≤ i → t.decAt i = s.decAt i) ∧
            t = { completed s with
              decCount := BitVec.ofNat 32 (gridSize s), mem := { s.mem with dec := t.mem.dec } }) ∧
        ∀ runs : List Word, runs.length = s.rleCount.toNat →
          (∀ k, ∀ h : k < runs.length, s.rleRunAt k = some runs[k]) →
          ((∃ r ∈ runs, r = 0#32) ∨ (runs.map BitVec.toNat).sum ≠ gridSize s) →
          exec .rleDecode s = .next (failed 2#4 s)))

/-- R135 (which the spec derives): the RLE round trip. After a successful RLE_ENCODE, RLE_DECODE in any state with the
same SHAPE, RLE_COUNT and tokens succeeds and leaves the symbols in DEC. -/
def Obligations.RleRoundTrip : Prop :=
  ∀ (s t t' : State) (syms : List Byte), s.params.legal = true → GridLoaded s syms → exec .rleEncode s = .next t →
    t'.params = t.params → t'.shapeH = t.shapeH → t'.shapeW = t.shapeW → t'.shapeC = t.shapeC →
    t'.rleCount = t.rleCount →
    (∀ k < t.rleCount.toNat, t'.rleSymAt k = t.rleSymAt k ∧ t'.rleRunAt k = t.rleRunAt k) →
    ∃ u, exec .rleDecode t' = .next u ∧ u.status.err = t'.status.err ∧
      (∀ i, ∀ h : i < syms.length, u.decAt i = some syms[i]) ∧ u.decCount.toNat = gridSize s

/-! ### Huffman tree -/

/-- R152: a FREQ that sums to 0 raises EMPTY_INPUT, one that sums to more than 2^32 - 1 raises CAPACITY, and nothing but
STATUS and the pending bit changes; a FREQ that FREQ_COUNT made is never the CAPACITY case. -/
def Obligations.TreeBuildChecksTheSum : Prop :=
  (∀ s : State, (frequencySum s = 0 → exec .treeBuild s = .next (failed 1#4 s)) ∧
    (0xFFFFFFFF < frequencySum s → exec .treeBuild s = .next (failed 3#4 s))) ∧
  ∀ (s t : State) (syms : List Byte), s.params.legal = true → GridLoaded s syms → exec .freqCount s = .next t →
    frequencySum t ≤ 2 ^ 24

/-- R150, and R156, which the spec derives from it: TREE_BUILD completes on every FREQ whose sum is in range, and leaves
a tree of the shape R156 gives: k leaves in ascending symbol order, one for every nonzero entry and with its frequency;
2k - 1 nodes, the root last; children below their parents; every node but the root with one parent; each frequency the
sum of its children's and the root's the sum of FREQ; no path longer than k - 1. Entries at NODE_COUNT and above and
everything else are unchanged. -/
def Obligations.TreeBuildMakesTheTree : Prop :=
  ∀ s : State, 0 < frequencySum s → frequencySum s ≤ 0xFFFFFFFF → ∃ t, exec .treeBuild s = .next t ∧
    t.leafCount.toNat = (List.range 256).countP (fun v => decide (s.freqAt v ≠ 0#32)) ∧
    TreeShape t.mem.node t.leafCount.toNat t.nodeCount.toNat t.root.toNat ∧
    (∀ id n, id < t.leafCount.toNat → t.nodeAt id = some n → n.freq = s.freqAt n.symbol.toNat) ∧
    (∀ v : Byte, s.freqAt v.toNat ≠ 0#32 ↔ hasLeaf t v) ∧
    (∃ n, t.nodeAt t.root.toNat = some n ∧ n.freq.toNat = frequencySum s) ∧
    (∀ p id, followPath t.mem.node t.root.toNat p = some id → p.length ≤ t.leafCount.toNat - 1) ∧
    (∀ k, t.nodeCount.toNat ≤ k → t.nodeAt k = s.nodeAt k) ∧
    t = { completed s with
      leafCount := t.leafCount, nodeCount := t.nodeCount, root := t.root, mem := { s.mem with node := t.mem.node } }

/-- R150, R151, R154: every merge takes the two least keys. When internal node `id` is made, its LEFT child has the
least key of all nodes still in the queue and its RIGHT child the next, by frequency and at equal frequency by node id.
-/
def Obligations.MergesTakeTheTwoLeastKeys : Prop :=
  ∀ (s t : State) (id : Nat) (n : NodeEntry), 0 < frequencySum s → frequencySum s ≤ 0xFFFFFFFF →
    exec .treeBuild s = .next t → t.leafCount.toNat ≤ id → id < t.nodeCount.toNat → t.nodeAt id = some n →
    stillQueued t.mem.node n.left.toNat id ∧ stillQueued t.mem.node n.right.toNat id ∧
    keyLess t.mem.node n.left.toNat n.right.toNat ∧
    ∀ c, stillQueued t.mem.node c id → c ≠ n.left.toNat → c ≠ n.right.toNat → keyLess t.mem.node n.right.toNat c

/-- R155: exactly one nonzero entry makes the degenerate tree: node 0 is its leaf and the root. -/
def Obligations.OneSymbolMakesALeafRoot : Prop :=
  ∀ (s : State) (v : Byte), s.freqAt v.toNat ≠ 0#32 → (∀ w : Byte, w ≠ v → s.freqAt w.toNat = 0#32) →
    ∃ t, exec .treeBuild s = .next t ∧ t.leafCount = 1#9 ∧ t.nodeCount = 1#10 ∧ t.root = 0#9 ∧
      t.nodeAt 0 = some { freq := s.freqAt v.toNat, isLeaf := true, symbol := v, left := 0#9, right := 0#9 }

/-- R157 (which the spec derives): TREE_BUILD is a function of FREQ alone. -/
def Obligations.TreeDependsOnFrequenciesAlone : Prop :=
  ∀ s s' t t' : State, (∀ v < 256, s'.freqAt v = s.freqAt v) → 0 < frequencySum s → frequencySum s ≤ 0xFFFFFFFF →
    exec .treeBuild s = .next t → exec .treeBuild s' = .next t' →
    t'.leafCount = t.leafCount ∧ t'.nodeCount = t.nodeCount ∧ t'.root = t.root ∧
    ∀ id < t.nodeCount.toNat, t'.nodeAt id = t.nodeAt id

/-! ### Code table -/

/-- R174: with NODE_COUNT = 0, CODE_GEN raises NO_TREE and changes only STATUS and the pending bit. -/
def Obligations.CodeGenNeedsATree : Prop :=
  ∀ s : State, s.nodeCount = 0#10 → exec .codeGen s = .next (failed 6#4 s)

/-- R170 to R173: on every tree, CODE_GEN completes; each leaf's symbol gets the path from the root to it ("0" for LEFT,
"1" for RIGHT) as its code, a leaf root gets "0", the cells after a code are 0, a symbol with no leaf has no code,
MAX_CODE_LEN is the greatest length, and nothing else changes. -/
def Obligations.CodesAreRootToLeafPaths : Prop :=
  decode 0x00000040#32 = .ok .codeGen ∧
  ∀ s : State, Inv s → s.nodeCount ≠ 0#10 → ∃ t, exec .codeGen s = .next t ∧
    (∀ id n, id < s.leafCount.toNat → s.nodeAt id = some n →
      (codeOf t.mem n.symbol).length = (t.codeLenAt n.symbol.toNat).toNat ∧
      1 ≤ (t.codeLenAt n.symbol.toNat).toNat ∧
      (s.leafCount = 1#9 → codeOf t.mem n.symbol = [false]) ∧
      (s.leafCount ≠ 1#9 → followPath s.mem.node s.root.toNat (codeOf t.mem n.symbol) = some id) ∧
      ∀ k, (t.codeLenAt n.symbol.toNat).toNat ≤ k → k < 256 → (t.codeBitsAt n.symbol.toNat).getMsbD k = false) ∧
    (∀ v : Byte, ¬ hasLeaf s v → t.codeLenAt v.toNat = 0#8 ∧ t.codeBitsAt v.toNat = 0#256) ∧
    (∀ v < 256, (t.codeLenAt v).toNat ≤ t.maxCodeLen.toNat) ∧ (∃ v < 256, t.codeLenAt v = t.maxCodeLen) ∧
    t = { completed s with
      maxCodeLen := t.maxCodeLen, mem := { s.mem with codeLen := t.mem.codeLen, codeBits := t.mem.codeBits } }

/-- R175 (which the spec derives from R170 and R156): after a successful CODE_GEN, exactly the symbols with a leaf have
a code, the codes are prefix-free, and with two leaves or more the Kraft sum is 1 (scaled by 2^255) and every infinite
bitstring begins with exactly one code; with one leaf the code is "0". -/
def Obligations.CodeTableIsPrefixFree : Prop :=
  ∀ s t : State, Inv s → s.nodeCount ≠ 0#10 → exec .codeGen s = .next t →
    (∀ v : Byte, t.codeLenAt v.toNat ≠ 0#8 ↔ hasLeaf s v) ∧ PrefixFree t.mem ∧
    (2 ≤ s.leafCount.toNat →
      ((List.range 256).map fun v =>
        if t.codeLenAt v = 0#8 then 0 else 2 ^ (255 - (t.codeLenAt v).toNat)).sum = 2 ^ 255 ∧
      ∀ f : Nat → Bool, ∃! v : Byte, t.codeLenAt v.toNat ≠ 0#8 ∧
        codeOf t.mem v = (List.range (t.codeLenAt v.toNat).toNat).map f) ∧
    (s.leafCount.toNat = 1 → ∀ v : Byte, t.codeLenAt v.toNat ≠ 0#8 → codeOf t.mem v = [false])

/-! ### Bit packing -/

/-- R190, R191: PACK writes the padding header, the concatenated codes most significant bit first, and zero padding
bits, with OUT_LEN = 2 + floor(b/8); a symbol without a code raises NO_CODE, a stream longer than OUT_MAX raises
OUTPUT_OVERFLOW, and then only STATUS and the pending bit change. -/
def Obligations.PackWritesTheStream : Prop :=
  decode 0x00000050#32 = .ok .pack ∧
  ∀ s : State,
    (gridSize s = 0 → exec .pack s = .next (failed 1#4 s)) ∧
    (s.params.nMax < gridSize s → exec .pack s = .next (failed 3#4 s)) ∧
    ∀ syms, GridLoaded s syms →
      ((∃ v ∈ syms, s.codeLenAt v.toNat = 0#8) → exec .pack s = .next (failed 4#4 s)) ∧
      ((∀ v ∈ syms, s.codeLenAt v.toNat ≠ 0#8) → ∀ bits, bits = (syms.map (codeOf s.mem)).flatten →
        (s.params.outMax < 2 + bits.length / 8 → exec .pack s = .next (failed 5#4 s)) ∧
        (2 + bits.length / 8 ≤ s.params.outMax → ∃ t, exec .pack s = .next t ∧
          t.outAt 0 = some (BitVec.ofNat 8 (8 - bits.length % 8)) ∧
          (∀ i, ∀ h : i < bits.length, ∃ b, t.outAt (1 + i / 8) = some b ∧ b.getMsbD (i % 8) = bits[i]) ∧
          (∀ i, bits.length ≤ i → i < bits.length + (8 - bits.length % 8) →
            ∃ b, t.outAt (1 + i / 8) = some b ∧ b.getMsbD (i % 8) = false) ∧
          (∀ j, 2 + bits.length / 8 ≤ j → t.outAt j = s.outAt j) ∧
          t = { completed s with
            outLen := BitVec.ofNat 32 (2 + bits.length / 8), totalBits := BitVec.ofNat 32 bits.length
            padding := BitVec.ofNat 4 (8 - bits.length % 8), mem := { s.mem with out := t.mem.out } }))

/-- R195: Match returns the shortest code that begins the data, the lowest symbol where two symbols have it, and FAIL
exactly where no code begins the data; on a prefix-free table it returns the unique code that begins the data. -/
def Obligations.MatchFindsTheShortestCode : Prop :=
  ∀ (m : Memory) (data : Bits),
    (∀ v rest, matchCode (codeTable m) (greatestCodeLen m) [] data = some (v, rest) ↔ IsMatch m data v rest) ∧
    (matchCode (codeTable m) (greatestCodeLen m) [] data = none ↔
      ∀ w : Byte, Sparse.read m.codeLen w.toNat ≠ 0#8 → ¬ codeOf m w <+: data) ∧
    (PrefixFree m → ∀ v rest, Sparse.read m.codeLen v.toNat ≠ 0#8 → data = codeOf m v ++ rest →
      matchCode (codeTable m) (greatestCodeLen m) [] data = some (v, rest))

/-- R196, R199, R201: UNPACK decodes OUT[0..OUT_LEN-1] with the CODE table. Where the data bits decode to exactly N
symbols it leaves them in DEC and sets DEC_COUNT, PADDING and TOTAL_BITS; an empty OUT, a header above 8 or above the
number of data bits, or data bits that do not decode to N symbols raise DECODE_MISMATCH and leave what R254 says;
OUT_LEN > OUT_MAX raises CAPACITY. -/
def Obligations.UnpackDecodesOrMismatches : Prop :=
  decode 0x00000051#32 = .ok .unpack ∧
  ∀ s : State,
    (gridSize s = 0 → exec .unpack s = .next (failed 1#4 s)) ∧
    (s.params.nMax < gridSize s → exec .unpack s = .next (failed 3#4 s)) ∧
    (1 ≤ gridSize s → gridSize s ≤ s.params.nMax →
      (s.params.outMax < s.outLen.toNat → exec .unpack s = .next (failed 3#4 s)) ∧
      (s.outLen.toNat ≤ s.params.outMax →
        (s.outLen = 0#32 → ∃ t, exec .unpack s = .next t ∧ UnpackMismatch s t) ∧
        ∀ (p : Byte) (bytes : List Byte), HoldsBytes s (p :: bytes) →
          (8 < p.toNat ∨ 8 * bytes.length < p.toNat ∨
            (∀ syms, syms.length = gridSize s → ¬ Decodes s.mem syms (dataBits (p :: bytes) p.toNat)) →
            ∃ t, exec .unpack s = .next t ∧ UnpackMismatch s t) ∧
          (p.toNat ≤ 8 → p.toNat ≤ 8 * bytes.length → ∀ syms, syms.length = gridSize s →
            Decodes s.mem syms (dataBits (p :: bytes) p.toNat) →
            ∃ t, exec .unpack s = .next t ∧ (∀ i, ∀ h : i < syms.length, t.decAt i = some syms[i]) ∧
              (∀ i, gridSize s ≤ i → t.decAt i = s.decAt i) ∧
              t = { completed s with
                decCount := BitVec.ofNat 32 (gridSize s), padding := p.setWidth 4
                totalBits := BitVec.ofNat 32 (8 * bytes.length - p.toNat)
                mem := { s.mem with dec := t.mem.dec } })))

/-- R200 (which the spec derives): the Huffman round trip, degenerate table included. After a successful HUFF_ENCODE, or
a successful PACK with the codes that FREQ_COUNT, TREE_BUILD and CODE_GEN made of the same symbols, UNPACK in any state
with the same SHAPE, CODE, OUT_LEN and OUT bytes succeeds and leaves the symbols in DEC, with PADDING and TOTAL_BITS as
PACK left them. -/
def Obligations.HuffmanRoundTrip : Prop :=
  ∀ (s t t' : State) (syms : List Byte), s.params.legal = true → s.status.err = false → GridLoaded s syms →
    (exec .huffEncode s = .next t ∨
      ∃ s0 s1 s2 s3, GridLoaded s0 syms ∧ exec .freqCount s0 = .next s1 ∧ exec .treeBuild s1 = .next s2 ∧
        exec .codeGen s2 = .next s3 ∧
        (∀ v < 256, s.codeLenAt v = s3.codeLenAt v ∧ s.codeBitsAt v = s3.codeBitsAt v) ∧ exec .pack s = .next t) →
    t.status.err = false → t'.params = t.params → t'.shapeH = t.shapeH → t'.shapeW = t.shapeW →
    t'.shapeC = t.shapeC → t'.outLen = t.outLen → (∀ j < t.outLen.toNat, t'.outAt j = t.outAt j) →
    (∀ v < 256, t'.codeLenAt v = t.codeLenAt v ∧ t'.codeBitsAt v = t.codeBitsAt v) →
    ∃ u, exec .unpack t' = .next u ∧ u.status.err = t'.status.err ∧
      (∀ i, ∀ h : i < syms.length, u.decAt i = some syms[i]) ∧ u.decCount.toNat = gridSize s ∧
      u.padding = t.padding ∧ u.totalBits = t.totalBits

/-! ### The pipeline command -/

/-- R220: HUFF_ENCODE leaves exactly what FREQ_COUNT, TREE_BUILD, CODE_GEN and PACK leave when they run one after the
other; where one of them fails, it ends with that error and keeps the writes of the ones before it. -/
def Obligations.HuffEncodeIsTheFourCommands : Prop :=
  decode 0x00000060#32 = .ok .huffEncode ∧
  ∀ s s1 : State, s.status.err = false → exec .freqCount s = .next s1 →
    (s1.status.err = true → exec .huffEncode s = .next s1) ∧
    (s1.status.err = false → ∀ s2, exec .treeBuild s1 = .next s2 →
      (s2.status.err = true → exec .huffEncode s = .next s2) ∧
      (s2.status.err = false → ∀ s3, exec .codeGen s2 = .next s3 →
        (s3.status.err = true → exec .huffEncode s = .next s3) ∧
        (s3.status.err = false → ∀ s4, exec .pack s3 = .next s4 → exec .huffEncode s = .next s4)))

/-- R220, R120, R150, R170, R191: what HUFF_ENCODE leaves on every loaded grid: the counts in FREQ, a tree of R156's
shape whose leaves are the symbols of the input, each leaf's path as its code, and the packed stream of the input's
codes; where that stream is longer than OUT_MAX, OUTPUT_OVERFLOW with OUT and its registers unchanged. OUT_MAX is any
number here: with a legal one this last case never happens (R221), which HuffEncodeCannotFail states. -/
def Obligations.HuffEncodeLeavesTheBlock : Prop :=
  ∀ (s : State) (syms : List Byte), s.params.nMax ≤ 2 ^ 24 → GridLoaded s syms → ∃ t, exec .huffEncode s = .next t ∧
    (∀ v : Byte, t.freqAt v.toNat = BitVec.ofNat 32 (syms.count v)) ∧
    TreeShape t.mem.node t.leafCount.toNat t.nodeCount.toNat t.root.toNat ∧
    (∀ v : Byte, hasLeaf t v ↔ v ∈ syms) ∧ (∀ v : Byte, t.codeLenAt v.toNat ≠ 0#8 ↔ v ∈ syms) ∧
    (∀ id n, id < t.leafCount.toNat → t.nodeAt id = some n →
      if t.leafCount = 1#9 then codeOf t.mem n.symbol = [false]
      else followPath t.mem.node t.root.toNat (codeOf t.mem n.symbol) = some id) ∧
    ∀ bits, bits = (syms.map (codeOf t.mem)).flatten →
      (s.params.outMax < 2 + bits.length / 8 →
        t.status.err = true ∧ t.status.errCode = 5#4 ∧ t.outLen = s.outLen ∧ t.totalBits = s.totalBits ∧
        t.padding = s.padding ∧ t.mem.out = s.mem.out) ∧
      (2 + bits.length / 8 ≤ s.params.outMax →
        t.status.err = s.status.err ∧ t.outLen.toNat = 2 + bits.length / 8 ∧ t.totalBits.toNat = bits.length ∧
        t.padding.toNat = 8 - bits.length % 8 ∧ t.outAt 0 = some (BitVec.ofNat 8 (8 - bits.length % 8)) ∧
        (∀ i, ∀ h : i < bits.length, ∃ b, t.outAt (1 + i / 8) = some b ∧ b.getMsbD (i % 8) = bits[i]) ∧
        ∀ i, bits.length ≤ i → i < bits.length + (8 - bits.length % 8) →
          ∃ b, t.outAt (1 + i / 8) = some b ∧ b.getMsbD (i % 8) = false)

/-- R221 (which the spec derives, with two facts of general knowledge, 93_implementation_defined.md G1 and G2):
HUFF_ENCODE after a good CheckN cannot fail: it completes with no error, FREQ sums to N, there is a tree, every
symbol of the input has a code, the code bits are at most 8N and OUT_LEN is at most N + 2. -/
def Obligations.HuffEncodeCannotFail : Prop :=
  ∀ (s : State) (syms : List Byte), s.params.legal = true → s.status.err = false → GridLoaded s syms →
    ∃ t, exec .huffEncode s = .next t ∧ t.status.err = false ∧ frequencySum t = gridSize s ∧ t.nodeCount ≠ 0#10 ∧
      (∀ v ∈ syms, t.codeLenAt v.toNat ≠ 0#8) ∧ t.totalBits.toNat ≤ 8 * gridSize s ∧
      t.outLen.toNat ≤ gridSize s + 2

/-! ### Accounting -/

/-- R236, R237: the ratio is 0 on an original size of 0; above 0 it is below 100 where the compressed size is above 0,
exactly 100 where it is 0, and negative exactly on expansion (log 19); and the sizes of a successful encode's outputs
are at least 2 bytes. -/
def Obligations.RatioBounds : Prop :=
  (∀ c : Nat, ratio 0 c = 0) ∧
  (∀ o c : Nat, 0 < o → (0 < c → ratio o c < 100) ∧ ratio o 0 = 100 ∧ (ratio o c < 0 ↔ o < c)) ∧
  ∀ (s t : State) (syms : List Byte), s.params.legal = true → s.status.err = false → GridLoaded s syms →
    (exec .pack s = .next t → t.status.err = false → 2 ≤ t.outLen.toNat) ∧
    (exec .rleEncode s = .next t → 2 ≤ 2 * t.rleCount.toNat)
end

