-- ==== Sys2Proof/Laws/Memory.lean ====
section
/-! SUPPORT. The laws of sparse memories (read after write, the canonical form, the bounds), and that every memory
operation keeps the canonical form. -/

namespace Sys2Proof.Machine

/-! ### Reading after writing -/

@[simp] theorem get?_nil {α : Type} (k : Nat) : Sparse.get? ([] : Sparse α) k = none := rfl

/-- Read after write. -/
theorem get?_set {α : Type} (m : Sparse α) (k : Nat) (v : α) (j : Nat) :
    Sparse.get? (Sparse.set m k v) j = if j = k then some v else Sparse.get? m j := by
  induction m with
  | nil => simp [Sparse.set, Sparse.get?]
  | cons e m ih =>
    obtain ⟨i, w⟩ := e
    rcases lt_trichotomy k i with h | h | h
    · simp [Sparse.set, Sparse.get?, h]
    · subst h
      by_cases hj : j = k <;> simp [Sparse.set, Sparse.get?, hj]
    · have h1 : ¬ k < i := by omega
      have h2 : ¬ k = i := by omega
      by_cases hj : j = i
      · have : ¬ j = k := by omega
        simp [Sparse.set, Sparse.get?, h1, h2, hj, Ne.symm h2]
      · simp [Sparse.set, Sparse.get?, h1, h2, hj, ih]

@[simp] theorem get?_set_self {α : Type} (m : Sparse α) (k : Nat) (v : α) :
    Sparse.get? (Sparse.set m k v) k = some v := by
  simp [get?_set]

theorem get?_set_ne {α : Type} (m : Sparse α) {k j : Nat} (v : α) (h : j ≠ k) :
    Sparse.get? (Sparse.set m k v) j = Sparse.get? m j := by
  simp [get?_set, h]

/-- A filter on indices keeps what it lets pass and forgets the rest. -/
theorem get?_filter {α : Type} (m : Sparse α) (p : Nat → Bool) (j : Nat) :
    Sparse.get? (m.filter fun e => p e.1) j = if p j then Sparse.get? m j else none := by
  induction m with
  | nil => simp [Sparse.get?]
  | cons e m ih =>
    obtain ⟨i, w⟩ := e
    by_cases hp : p i
    · by_cases hj : j = i
      · subst hj; simp [hp, Sparse.get?]
      · simp only [List.filter_cons, hp, if_true, Sparse.get?, hj, if_false, ih]
    · simp only [List.filter_cons, hp, Bool.false_eq_true, if_false, ih, Sparse.get?]
      by_cases hj : j = i
      · subst hj; simp [hp]
      · simp [hj]

theorem get?_forgetBelow {α : Type} (m : Sparse α) (n j : Nat) :
    Sparse.get? (Sparse.forgetBelow m n) j = if n ≤ j then Sparse.get? m j else none := by
  have h := get?_filter m (fun k => decide (n ≤ k)) j
  simpa [Sparse.forgetBelow] using h

/-- Read after write, where unlisted elements are 0. -/
theorem read_write {w : Nat} (m : Sparse (BitVec w)) (k : Nat) (v : BitVec w) (j : Nat) :
    Sparse.read (Sparse.write m k v) j = if j = k then v else Sparse.read m j := by
  unfold Sparse.read Sparse.write
  by_cases hv : v = 0#w
  · have h := get?_filter m (fun i => decide (i ≠ k)) j
    rw [if_pos hv, h]
    by_cases hj : j = k <;> simp [hj, hv]
  · rw [if_neg hv, get?_set]
    by_cases hj : j = k <;> simp [hj]

@[simp] theorem read_nil {w : Nat} (k : Nat) : Sparse.read ([] : Sparse (BitVec w)) k = 0#w := rfl

/-- The elements a range write stores, and that it leaves every other element alone. -/
theorem get?_setRange {α : Type} (vs : List α) (m : Sparse α) (k j : Nat) :
    Sparse.get? (Sparse.setRange m k vs) j =
      if k ≤ j ∧ j < k + vs.length then vs[j - k]? else Sparse.get? m j := by
  induction vs generalizing m k with
  | nil => simp [Sparse.setRange]
  | cons v vs ih =>
    rw [Sparse.setRange, ih, get?_set]
    by_cases h1 : j = k
    · subst h1
      have h2 : ¬ (j + 1 ≤ j ∧ j < j + 1 + vs.length) := by omega
      simp
    · by_cases h2 : k + 1 ≤ j ∧ j < k + 1 + vs.length
      · have h3 : k ≤ j ∧ j < k + (v :: vs).length := by simp only [List.length_cons]; omega
        have h4 : j - k = (j - (k + 1)) + 1 := by omega
        rw [if_pos h2, if_pos h3, h4, List.getElem?_cons_succ]
      · have h3 : ¬ (k ≤ j ∧ j < k + (v :: vs).length) := by simp only [List.length_cons]; omega
        rw [if_neg h2, if_neg h3, if_neg h1]

/-! ### The canonical form -/

/-- The first index of a sorted memory is below every later one. -/
theorem sorted_cons_iff {α : Type} (i : Nat) (w : α) (m : Sparse α) :
    Sparse.sorted ((i, w) :: m) = true ↔ (∀ e ∈ m, i < e.1) ∧ Sparse.sorted m = true := by
  induction m generalizing i w with
  | nil => simp [Sparse.sorted]
  | cons e m ih =>
    obtain ⟨j, u⟩ := e
    have h : Sparse.sorted ((i, w) :: (j, u) :: m) = (decide (i < j) && Sparse.sorted ((j, u) :: m)) := rfl
    rw [h, Bool.and_eq_true, decide_eq_true_eq]
    constructor
    · rintro ⟨hij, hs⟩
      refine ⟨?_, hs⟩
      intro e he
      rcases List.mem_cons.mp he with rfl | he
      · exact hij
      · exact lt_trans hij (((ih j u).mp hs).1 e he)
    · rintro ⟨hlt, hs⟩
      exact ⟨hlt (j, u) List.mem_cons_self, hs⟩

/-- What a write may list: the entry written, and entries that were listed before. -/
theorem mem_set {α : Type} {m : Sparse α} {k : Nat} {v : α} {e : Nat × α} (h : e ∈ Sparse.set m k v) :
    e = (k, v) ∨ e ∈ m := by
  induction m with
  | nil => simpa [Sparse.set] using h
  | cons a m ih =>
    obtain ⟨i, w⟩ := a
    simp only [Sparse.set] at h
    split_ifs at h with h1 h2
    · rcases List.mem_cons.mp h with h | h
      · exact .inl h
      · exact .inr h
    · rcases List.mem_cons.mp h with h | h
      · exact .inl h
      · exact .inr (List.mem_cons_of_mem _ h)
    · rcases List.mem_cons.mp h with h | h
      · exact .inr (h ▸ List.mem_cons_self)
      · rcases ih h with h | h
        · exact .inl h
        · exact .inr (List.mem_cons_of_mem _ h)

theorem sorted_set {α : Type} (m : Sparse α) (k : Nat) (v : α) (h : Sparse.sorted m = true) :
    Sparse.sorted (Sparse.set m k v) = true := by
  induction m with
  | nil => rfl
  | cons e m ih =>
    obtain ⟨i, w⟩ := e
    obtain ⟨hlt, hs⟩ := (sorted_cons_iff i w m).mp h
    simp only [Sparse.set]
    split_ifs with h1 h2
    · refine (sorted_cons_iff k v _).mpr ⟨?_, h⟩
      intro e he
      rcases List.mem_cons.mp he with rfl | he
      · exact h1
      · exact lt_trans h1 (hlt e he)
    · subst h2
      exact (sorted_cons_iff k v m).mpr ⟨hlt, hs⟩
    · refine (sorted_cons_iff i w _).mpr ⟨?_, ih hs⟩
      intro e he
      rcases mem_set he with rfl | he
      · simp only; omega
      · exact hlt e he

theorem sorted_filter {α : Type} (m : Sparse α) (p : Nat × α → Bool) (h : Sparse.sorted m = true) :
    Sparse.sorted (m.filter p) = true := by
  induction m with
  | nil => rfl
  | cons e m ih =>
    obtain ⟨i, w⟩ := e
    obtain ⟨hlt, hs⟩ := (sorted_cons_iff i w m).mp h
    by_cases hp : p (i, w)
    · rw [List.filter_cons_of_pos hp]
      exact (sorted_cons_iff i w _).mpr ⟨fun e he => hlt e (List.mem_of_mem_filter he), ih hs⟩
    · rw [List.filter_cons_of_neg hp]
      exact ih hs

theorem sorted_forgetBelow {α : Type} (m : Sparse α) (n : Nat) (h : Sparse.sorted m = true) :
    Sparse.sorted (Sparse.forgetBelow m n) = true :=
  sorted_filter m _ h

theorem sorted_setRange {α : Type} (vs : List α) (m : Sparse α) (k : Nat) (h : Sparse.sorted m = true) :
    Sparse.sorted (Sparse.setRange m k vs) = true := by
  induction vs generalizing m k with
  | nil => exact h
  | cons v vs ih => exact ih _ _ (sorted_set m k v h)

theorem sorted_write {w : Nat} (m : Sparse (BitVec w)) (k : Nat) (v : BitVec w) (h : Sparse.sorted m = true) :
    Sparse.sorted (Sparse.write m k v) = true := by
  unfold Sparse.write
  split_ifs
  · exact sorted_filter m _ h
  · exact sorted_set m k v h

theorem noZero_iff {w : Nat} (m : Sparse (BitVec w)) : Sparse.noZero m = true ↔ ∀ e ∈ m, e.2 ≠ 0#w := by
  simp [Sparse.noZero, List.all_eq_true]

theorem noZero_write {w : Nat} (m : Sparse (BitVec w)) (k : Nat) (v : BitVec w) (h : Sparse.noZero m = true) :
    Sparse.noZero (Sparse.write m k v) = true := by
  rw [noZero_iff] at h ⊢
  unfold Sparse.write
  split_ifs with hv
  · exact fun e he => h e (List.mem_of_mem_filter he)
  · intro e he
    rcases mem_set he with rfl | he
    · exact hv
    · exact h e he

/-- Two memories in canonical form that read the same are the same data. -/
theorem sorted_ext {α : Type} (m n : Sparse α) (hm : Sparse.sorted m = true) (hn : Sparse.sorted n = true)
    (h : ∀ k, Sparse.get? m k = Sparse.get? n k) : m = n := by
  have get?_none : ∀ (m : Sparse α) (k : Nat), (∀ e ∈ m, k < e.1) → Sparse.get? m k = none := by
    intro m k
    induction m with
    | nil => intro _; rfl
    | cons e m ih =>
      obtain ⟨i, w⟩ := e
      intro hlt
      have hi : k < i := hlt (i, w) List.mem_cons_self
      have hne : ¬ k = i := by omega
      simp only [Sparse.get?, hne, if_false]
      exact ih fun e he => hlt e (List.mem_cons_of_mem _ he)
  induction m generalizing n with
  | nil =>
    cases n with
    | nil => rfl
    | cons e n => obtain ⟨i, w⟩ := e; simpa [Sparse.get?] using h i
  | cons e m ih =>
    obtain ⟨i, w⟩ := e
    obtain ⟨hlt, hs⟩ := (sorted_cons_iff i w m).mp hm
    cases n with
    | nil => simpa [Sparse.get?] using h i
    | cons f n =>
      obtain ⟨j, u⟩ := f
      obtain ⟨hlt', hs'⟩ := (sorted_cons_iff j u n).mp hn
      have hij : i = j := by
        rcases lt_trichotomy i j with hc | hc | hc
        · have h1 := h i
          rw [get?_none ((j, u) :: n) i (by
            intro e he
            rcases List.mem_cons.mp he with rfl | he
            · exact hc
            · exact lt_trans hc (hlt' e he))] at h1
          simp [Sparse.get?] at h1
        · exact hc
        · have h1 := h j
          rw [get?_none ((i, w) :: m) j (by
            intro e he
            rcases List.mem_cons.mp he with rfl | he
            · exact hc
            · exact lt_trans hc (hlt e he))] at h1
          simp [Sparse.get?] at h1
      subst hij
      have hwu : w = u := by simpa [Sparse.get?] using h i
      subst hwu
      have : m = n := by
        refine ih n hs hs' fun k => ?_
        have h1 := h k
        by_cases hk : k = i
        · subst hk; rw [get?_none m k hlt, get?_none n k hlt']
        · simpa [Sparse.get?, hk] using h1
      rw [this]

/-! ### Every memory operation keeps the canonical form -/

/-- The canonical form, one memory at a time. -/
theorem wf_iff (m : Memory) : m.wf = true ↔
    Sparse.sorted m.sym = true ∧ (Sparse.sorted m.freq = true ∧ Sparse.noZero m.freq = true) ∧
    Sparse.sorted m.node = true ∧ (Sparse.sorted m.codeLen = true ∧ Sparse.noZero m.codeLen = true) ∧
    (Sparse.sorted m.codeBits = true ∧ Sparse.noZero m.codeBits = true) ∧ Sparse.sorted m.out = true ∧
    Sparse.sorted m.rleSym = true ∧ Sparse.sorted m.rleRun = true ∧ Sparse.sorted m.dec = true := by
  simp only [Memory.wf, Bool.and_eq_true]
  tauto

theorem reset_memory_wf (p : Params) : (State.resetWith p).mem.wf = true := rfl

/-- A host write keeps the canonical form. -/
theorem writeTarget_wf (s : State) (v : Word) (t : Target) (h : s.mem.wf = true) :
    (writeTarget s v t).mem.wf = true := by
  have h' := (wf_iff s.mem).mp h
  obtain ⟨h1, ⟨h2, h3⟩, h4, ⟨h5, h6⟩, ⟨h7, h8⟩, h9, h10, h11, h12⟩ := h'
  cases t with
  | reg r => cases r <;> exact h
  | sym i => exact (wf_iff _).mpr ⟨sorted_set _ _ _ h1, ⟨h2, h3⟩, h4, ⟨h5, h6⟩, ⟨h7, h8⟩, h9, h10, h11, h12⟩
  | freq k =>
    exact (wf_iff _).mpr
      ⟨h1, ⟨sorted_write _ _ _ h2, noZero_write _ _ _ h3⟩, h4, ⟨h5, h6⟩, ⟨h7, h8⟩, h9, h10, h11, h12⟩
  | node _ _ => exact h
  | codeLen k =>
    exact (wf_iff _).mpr
      ⟨h1, ⟨h2, h3⟩, h4, ⟨sorted_write _ _ _ h5, noZero_write _ _ _ h6⟩, ⟨h7, h8⟩, h9, h10, h11, h12⟩
  | codeBits k j =>
    exact (wf_iff _).mpr
      ⟨h1, ⟨h2, h3⟩, h4, ⟨h5, h6⟩, ⟨sorted_write _ _ _ h7, noZero_write _ _ _ h8⟩, h9, h10, h11, h12⟩
  | out j => exact (wf_iff _).mpr ⟨h1, ⟨h2, h3⟩, h4, ⟨h5, h6⟩, ⟨h7, h8⟩, sorted_set _ _ _ h9, h10, h11, h12⟩
  | rleSym t => exact (wf_iff _).mpr ⟨h1, ⟨h2, h3⟩, h4, ⟨h5, h6⟩, ⟨h7, h8⟩, h9, sorted_set _ _ _ h10, h11, h12⟩
  | rleRun t => exact (wf_iff _).mpr ⟨h1, ⟨h2, h3⟩, h4, ⟨h5, h6⟩, ⟨h7, h8⟩, h9, h10, sorted_set _ _ _ h11, h12⟩
  | dec _ => exact h

theorem portWrite_wf (s : State) (a v : Word) (h : s.mem.wf = true) : (portWrite s a v).mem.wf = true := by
  unfold portWrite
  split
  · exact h
  · split
    · exact writeTarget_wf s v _ h
    · exact h

/-- CLEAR's writes keep the canonical form. -/
theorem clearState_wf (s : State) (h : s.mem.wf = true) : (clearState s).mem.wf = true := by
  obtain ⟨h1, -, h4, -, -, h9, h10, h11, h12⟩ := (wf_iff s.mem).mp h
  exact (wf_iff _).mpr ⟨h1, ⟨rfl, rfl⟩, h4, ⟨rfl, rfl⟩, ⟨rfl, rfl⟩, h9, h10, h11, h12⟩

/-- FREQ after counting is in canonical form, whatever it was before. -/
theorem countSymbols_wf (syms : List Byte) :
    Sparse.sorted (countSymbols syms) = true ∧ Sparse.noZero (countSymbols syms) = true := by
  have h : ∀ f : Sparse Word, Sparse.sorted f = true → Sparse.noZero f = true →
      Sparse.sorted (syms.foldl countSymbol f) = true ∧ Sparse.noZero (syms.foldl countSymbol f) = true := by
    induction syms with
    | nil => exact fun f h1 h2 => ⟨h1, h2⟩
    | cons v vs ih => exact fun f h1 h2 => ih _ (sorted_write _ _ _ h1) (noZero_write _ _ _ h2)
  exact h [] rfl rfl

/-- Recording codes keeps the canonical form. -/
theorem recordCodes_wf (m : Memory) (codes : List (Byte × Bits)) (h : m.wf = true) :
    (recordCodes m codes).wf = true := by
  have step : ∀ m : Memory, m.wf = true → (codes.foldl recordCode m).wf = true := by
    induction codes with
    | nil => exact fun m h => h
    | cons c cs ih =>
      intro m h
      refine ih _ ?_
      obtain ⟨h1, h2, h4, ⟨h5, h6⟩, ⟨h7, h8⟩, h9⟩ := (wf_iff m).mp h
      exact (wf_iff _).mpr ⟨h1, h2, h4, ⟨sorted_write _ _ _ h5, noZero_write _ _ _ h6⟩,
        ⟨sorted_write _ _ _ h7, noZero_write _ _ _ h8⟩, h9⟩
  refine step _ ?_
  obtain ⟨h1, h2, h4, -, -, h9⟩ := (wf_iff m).mp h
  exact (wf_iff _).mpr ⟨h1, h2, h4, ⟨rfl, rfl⟩, ⟨rfl, rfl⟩, h9⟩

/-- What UNPACK's DECODE_MISMATCH leaves is in canonical form. -/
theorem forgetDecoded_wf (s : State) (h : s.mem.wf = true) : (forgetDecoded s).mem.wf = true := by
  obtain ⟨h1, h2, h4, h5, h7, h9, h10, h11, h12⟩ := (wf_iff s.mem).mp h
  exact (wf_iff _).mpr ⟨h1, h2, h4, h5, h7, h9, h10, h11, sorted_forgetBelow _ _ h12⟩

end Sys2Proof.Machine
end

