-- ==== Sys2Proof/Laws/State.lean ====
section
/-! SUPPORT. What each named update of State does to each of its fields, so that no proof unfolds a record update. -/

namespace Sys2Proof.Machine

/-! ### acceptance (R258) -/

@[simp] theorem accept_params (c : Word) (s : State) : (accept c s).params = s.params := rfl
@[simp] theorem accept_status (c : Word) (s : State) : (accept c s).status = Status.accept (opField c) := rfl
@[simp] theorem accept_latch (c : Word) (s : State) : (accept c s).latch = c := rfl
@[simp] theorem accept_pending (c : Word) (s : State) : (accept c s).pending = true := rfl
@[simp] theorem accept_shapeH (c : Word) (s : State) : (accept c s).shapeH = s.shapeH := rfl
@[simp] theorem accept_shapeW (c : Word) (s : State) : (accept c s).shapeW = s.shapeW := rfl
@[simp] theorem accept_shapeC (c : Word) (s : State) : (accept c s).shapeC = s.shapeC := rfl
@[simp] theorem accept_leafCount (c : Word) (s : State) : (accept c s).leafCount = s.leafCount := rfl
@[simp] theorem accept_nodeCount (c : Word) (s : State) : (accept c s).nodeCount = s.nodeCount := rfl
@[simp] theorem accept_root (c : Word) (s : State) : (accept c s).root = s.root := rfl
@[simp] theorem accept_maxCodeLen (c : Word) (s : State) : (accept c s).maxCodeLen = s.maxCodeLen := rfl
@[simp] theorem accept_totalBits (c : Word) (s : State) : (accept c s).totalBits = s.totalBits := rfl
@[simp] theorem accept_padding (c : Word) (s : State) : (accept c s).padding = s.padding := rfl
@[simp] theorem accept_outLen (c : Word) (s : State) : (accept c s).outLen = s.outLen := rfl
@[simp] theorem accept_rleCount (c : Word) (s : State) : (accept c s).rleCount = s.rleCount := rfl
@[simp] theorem accept_decCount (c : Word) (s : State) : (accept c s).decCount = s.decCount := rfl
@[simp] theorem accept_mem (c : Word) (s : State) : (accept c s).mem = s.mem := rfl
@[simp] theorem accept_script (c : Word) (s : State) : (accept c s).script = s.script := rfl
@[simp] theorem accept_sched (c : Word) (s : State) : (accept c s).sched = s.sched := rfl
@[simp] theorem accept_bindings (c : Word) (s : State) : (accept c s).bindings = s.bindings := rfl
@[simp] theorem accept_draws (c : Word) (s : State) : (accept c s).draws = s.draws := rfl

/-! ### completion (R259) -/

@[simp] theorem completeCommand_params (e : Option ErrorCode) (s : State) : (completeCommand e s).params = s.params := rfl
@[simp] theorem completeCommand_status (e : Option ErrorCode) (s : State) : (completeCommand e s).status = Status.complete e s.status := rfl
@[simp] theorem completeCommand_latch (e : Option ErrorCode) (s : State) : (completeCommand e s).latch = s.latch := rfl
@[simp] theorem completeCommand_pending (e : Option ErrorCode) (s : State) : (completeCommand e s).pending = false := rfl
@[simp] theorem completeCommand_shapeH (e : Option ErrorCode) (s : State) : (completeCommand e s).shapeH = s.shapeH := rfl
@[simp] theorem completeCommand_shapeW (e : Option ErrorCode) (s : State) : (completeCommand e s).shapeW = s.shapeW := rfl
@[simp] theorem completeCommand_shapeC (e : Option ErrorCode) (s : State) : (completeCommand e s).shapeC = s.shapeC := rfl
@[simp] theorem completeCommand_leafCount (e : Option ErrorCode) (s : State) : (completeCommand e s).leafCount = s.leafCount := rfl
@[simp] theorem completeCommand_nodeCount (e : Option ErrorCode) (s : State) : (completeCommand e s).nodeCount = s.nodeCount := rfl
@[simp] theorem completeCommand_root (e : Option ErrorCode) (s : State) : (completeCommand e s).root = s.root := rfl
@[simp] theorem completeCommand_maxCodeLen (e : Option ErrorCode) (s : State) : (completeCommand e s).maxCodeLen = s.maxCodeLen := rfl
@[simp] theorem completeCommand_totalBits (e : Option ErrorCode) (s : State) : (completeCommand e s).totalBits = s.totalBits := rfl
@[simp] theorem completeCommand_padding (e : Option ErrorCode) (s : State) : (completeCommand e s).padding = s.padding := rfl
@[simp] theorem completeCommand_outLen (e : Option ErrorCode) (s : State) : (completeCommand e s).outLen = s.outLen := rfl
@[simp] theorem completeCommand_rleCount (e : Option ErrorCode) (s : State) : (completeCommand e s).rleCount = s.rleCount := rfl
@[simp] theorem completeCommand_decCount (e : Option ErrorCode) (s : State) : (completeCommand e s).decCount = s.decCount := rfl
@[simp] theorem completeCommand_mem (e : Option ErrorCode) (s : State) : (completeCommand e s).mem = s.mem := rfl
@[simp] theorem completeCommand_script (e : Option ErrorCode) (s : State) : (completeCommand e s).script = s.script := rfl
@[simp] theorem completeCommand_sched (e : Option ErrorCode) (s : State) : (completeCommand e s).sched = s.sched := rfl
@[simp] theorem completeCommand_bindings (e : Option ErrorCode) (s : State) : (completeCommand e s).bindings = s.bindings := rfl
@[simp] theorem completeCommand_draws (e : Option ErrorCode) (s : State) : (completeCommand e s).draws = s.draws := rfl

/-! ### the use of one choice between the agents -/

@[simp] theorem takeTurn_params (s : State) : (takeTurn s).params = s.params := rfl
@[simp] theorem takeTurn_status (s : State) : (takeTurn s).status = s.status := rfl
@[simp] theorem takeTurn_latch (s : State) : (takeTurn s).latch = s.latch := rfl
@[simp] theorem takeTurn_pending (s : State) : (takeTurn s).pending = s.pending := rfl
@[simp] theorem takeTurn_shapeH (s : State) : (takeTurn s).shapeH = s.shapeH := rfl
@[simp] theorem takeTurn_shapeW (s : State) : (takeTurn s).shapeW = s.shapeW := rfl
@[simp] theorem takeTurn_shapeC (s : State) : (takeTurn s).shapeC = s.shapeC := rfl
@[simp] theorem takeTurn_leafCount (s : State) : (takeTurn s).leafCount = s.leafCount := rfl
@[simp] theorem takeTurn_nodeCount (s : State) : (takeTurn s).nodeCount = s.nodeCount := rfl
@[simp] theorem takeTurn_root (s : State) : (takeTurn s).root = s.root := rfl
@[simp] theorem takeTurn_maxCodeLen (s : State) : (takeTurn s).maxCodeLen = s.maxCodeLen := rfl
@[simp] theorem takeTurn_totalBits (s : State) : (takeTurn s).totalBits = s.totalBits := rfl
@[simp] theorem takeTurn_padding (s : State) : (takeTurn s).padding = s.padding := rfl
@[simp] theorem takeTurn_outLen (s : State) : (takeTurn s).outLen = s.outLen := rfl
@[simp] theorem takeTurn_rleCount (s : State) : (takeTurn s).rleCount = s.rleCount := rfl
@[simp] theorem takeTurn_decCount (s : State) : (takeTurn s).decCount = s.decCount := rfl
@[simp] theorem takeTurn_mem (s : State) : (takeTurn s).mem = s.mem := rfl
@[simp] theorem takeTurn_script (s : State) : (takeTurn s).script = s.script := rfl
@[simp] theorem takeTurn_sched (s : State) : (takeTurn s).sched = if s.pending then s.sched.tail else s.sched := rfl
@[simp] theorem takeTurn_bindings (s : State) : (takeTurn s).bindings = s.bindings := rfl
@[simp] theorem takeTurn_draws (s : State) : (takeTurn s).draws = s.draws := rfl

/-! ### the binding of a read (R96) -/

@[simp] theorem bindRead_params (x : String) (v : Word) (s : State) : (bindRead x v s).params = s.params := rfl
@[simp] theorem bindRead_status (x : String) (v : Word) (s : State) : (bindRead x v s).status = s.status := rfl
@[simp] theorem bindRead_latch (x : String) (v : Word) (s : State) : (bindRead x v s).latch = s.latch := rfl
@[simp] theorem bindRead_pending (x : String) (v : Word) (s : State) : (bindRead x v s).pending = s.pending := rfl
@[simp] theorem bindRead_shapeH (x : String) (v : Word) (s : State) : (bindRead x v s).shapeH = s.shapeH := rfl
@[simp] theorem bindRead_shapeW (x : String) (v : Word) (s : State) : (bindRead x v s).shapeW = s.shapeW := rfl
@[simp] theorem bindRead_shapeC (x : String) (v : Word) (s : State) : (bindRead x v s).shapeC = s.shapeC := rfl
@[simp] theorem bindRead_leafCount (x : String) (v : Word) (s : State) : (bindRead x v s).leafCount = s.leafCount := rfl
@[simp] theorem bindRead_nodeCount (x : String) (v : Word) (s : State) : (bindRead x v s).nodeCount = s.nodeCount := rfl
@[simp] theorem bindRead_root (x : String) (v : Word) (s : State) : (bindRead x v s).root = s.root := rfl
@[simp] theorem bindRead_maxCodeLen (x : String) (v : Word) (s : State) : (bindRead x v s).maxCodeLen = s.maxCodeLen := rfl
@[simp] theorem bindRead_totalBits (x : String) (v : Word) (s : State) : (bindRead x v s).totalBits = s.totalBits := rfl
@[simp] theorem bindRead_padding (x : String) (v : Word) (s : State) : (bindRead x v s).padding = s.padding := rfl
@[simp] theorem bindRead_outLen (x : String) (v : Word) (s : State) : (bindRead x v s).outLen = s.outLen := rfl
@[simp] theorem bindRead_rleCount (x : String) (v : Word) (s : State) : (bindRead x v s).rleCount = s.rleCount := rfl
@[simp] theorem bindRead_decCount (x : String) (v : Word) (s : State) : (bindRead x v s).decCount = s.decCount := rfl
@[simp] theorem bindRead_mem (x : String) (v : Word) (s : State) : (bindRead x v s).mem = s.mem := rfl
@[simp] theorem bindRead_script (x : String) (v : Word) (s : State) : (bindRead x v s).script = s.script := rfl
@[simp] theorem bindRead_sched (x : String) (v : Word) (s : State) : (bindRead x v s).sched = s.sched := rfl
@[simp] theorem bindRead_bindings (x : String) (v : Word) (s : State) : (bindRead x v s).bindings = (x, v) :: s.bindings := rfl
@[simp] theorem bindRead_draws (x : String) (v : Word) (s : State) : (bindRead x v s).draws = s.draws + 1 := rfl

/-! ### UNPACK's DECODE_MISMATCH (R254) -/

@[simp] theorem forgetDecoded_params (s : State) : (forgetDecoded s).params = s.params := rfl
@[simp] theorem forgetDecoded_status (s : State) : (forgetDecoded s).status = s.status := rfl
@[simp] theorem forgetDecoded_latch (s : State) : (forgetDecoded s).latch = s.latch := rfl
@[simp] theorem forgetDecoded_pending (s : State) : (forgetDecoded s).pending = s.pending := rfl
@[simp] theorem forgetDecoded_shapeH (s : State) : (forgetDecoded s).shapeH = s.shapeH := rfl
@[simp] theorem forgetDecoded_shapeW (s : State) : (forgetDecoded s).shapeW = s.shapeW := rfl
@[simp] theorem forgetDecoded_shapeC (s : State) : (forgetDecoded s).shapeC = s.shapeC := rfl
@[simp] theorem forgetDecoded_leafCount (s : State) : (forgetDecoded s).leafCount = s.leafCount := rfl
@[simp] theorem forgetDecoded_nodeCount (s : State) : (forgetDecoded s).nodeCount = s.nodeCount := rfl
@[simp] theorem forgetDecoded_root (s : State) : (forgetDecoded s).root = s.root := rfl
@[simp] theorem forgetDecoded_maxCodeLen (s : State) : (forgetDecoded s).maxCodeLen = s.maxCodeLen := rfl
@[simp] theorem forgetDecoded_totalBits (s : State) : (forgetDecoded s).totalBits = s.totalBits := rfl
@[simp] theorem forgetDecoded_padding (s : State) : (forgetDecoded s).padding = s.padding := rfl
@[simp] theorem forgetDecoded_outLen (s : State) : (forgetDecoded s).outLen = s.outLen := rfl
@[simp] theorem forgetDecoded_rleCount (s : State) : (forgetDecoded s).rleCount = s.rleCount := rfl
@[simp] theorem forgetDecoded_decCount (s : State) : (forgetDecoded s).decCount = 0#32 := rfl
@[simp] theorem forgetDecoded_mem (s : State) : (forgetDecoded s).mem = { s.mem with dec := Sparse.forgetBelow s.mem.dec (gridSize s) } := rfl
@[simp] theorem forgetDecoded_script (s : State) : (forgetDecoded s).script = s.script := rfl
@[simp] theorem forgetDecoded_sched (s : State) : (forgetDecoded s).sched = s.sched := rfl
@[simp] theorem forgetDecoded_bindings (s : State) : (forgetDecoded s).bindings = s.bindings := rfl
@[simp] theorem forgetDecoded_draws (s : State) : (forgetDecoded s).draws = s.draws := rfl

/-! ### CLEAR (R111) -/

@[simp] theorem clearState_params (s : State) : (clearState s).params = s.params := rfl
@[simp] theorem clearState_status (s : State) : (clearState s).status = s.status := rfl
@[simp] theorem clearState_latch (s : State) : (clearState s).latch = s.latch := rfl
@[simp] theorem clearState_pending (s : State) : (clearState s).pending = s.pending := rfl
@[simp] theorem clearState_shapeH (s : State) : (clearState s).shapeH = 0#32 := rfl
@[simp] theorem clearState_shapeW (s : State) : (clearState s).shapeW = 0#32 := rfl
@[simp] theorem clearState_shapeC (s : State) : (clearState s).shapeC = 0#32 := rfl
@[simp] theorem clearState_leafCount (s : State) : (clearState s).leafCount = 0#9 := rfl
@[simp] theorem clearState_nodeCount (s : State) : (clearState s).nodeCount = 0#10 := rfl
@[simp] theorem clearState_root (s : State) : (clearState s).root = 0#9 := rfl
@[simp] theorem clearState_maxCodeLen (s : State) : (clearState s).maxCodeLen = 0#8 := rfl
@[simp] theorem clearState_totalBits (s : State) : (clearState s).totalBits = 0#32 := rfl
@[simp] theorem clearState_padding (s : State) : (clearState s).padding = 0#4 := rfl
@[simp] theorem clearState_outLen (s : State) : (clearState s).outLen = 0#32 := rfl
@[simp] theorem clearState_rleCount (s : State) : (clearState s).rleCount = 0#32 := rfl
@[simp] theorem clearState_decCount (s : State) : (clearState s).decCount = 0#32 := rfl
@[simp] theorem clearState_mem (s : State) : (clearState s).mem = { s.mem with freq := [], codeLen := [], codeBits := [] } := rfl
@[simp] theorem clearState_script (s : State) : (clearState s).script = s.script := rfl
@[simp] theorem clearState_sched (s : State) : (clearState s).sched = s.sched := rfl
@[simp] theorem clearState_bindings (s : State) : (clearState s).bindings = s.bindings := rfl
@[simp] theorem clearState_draws (s : State) : (clearState s).draws = s.draws := rfl

/-! ### the reset event (R280) -/

@[simp] theorem resetEvent_params (s : State) : (resetEvent s).params = s.params := rfl
@[simp] theorem resetEvent_status (s : State) : (resetEvent s).status = Status.reset := rfl
@[simp] theorem resetEvent_latch (s : State) : (resetEvent s).latch = 0#32 := rfl
@[simp] theorem resetEvent_pending (s : State) : (resetEvent s).pending = false := rfl
@[simp] theorem resetEvent_shapeH (s : State) : (resetEvent s).shapeH = 0#32 := rfl
@[simp] theorem resetEvent_shapeW (s : State) : (resetEvent s).shapeW = 0#32 := rfl
@[simp] theorem resetEvent_shapeC (s : State) : (resetEvent s).shapeC = 0#32 := rfl
@[simp] theorem resetEvent_leafCount (s : State) : (resetEvent s).leafCount = 0#9 := rfl
@[simp] theorem resetEvent_nodeCount (s : State) : (resetEvent s).nodeCount = 0#10 := rfl
@[simp] theorem resetEvent_root (s : State) : (resetEvent s).root = 0#9 := rfl
@[simp] theorem resetEvent_maxCodeLen (s : State) : (resetEvent s).maxCodeLen = 0#8 := rfl
@[simp] theorem resetEvent_totalBits (s : State) : (resetEvent s).totalBits = 0#32 := rfl
@[simp] theorem resetEvent_padding (s : State) : (resetEvent s).padding = 0#4 := rfl
@[simp] theorem resetEvent_outLen (s : State) : (resetEvent s).outLen = 0#32 := rfl
@[simp] theorem resetEvent_rleCount (s : State) : (resetEvent s).rleCount = 0#32 := rfl
@[simp] theorem resetEvent_decCount (s : State) : (resetEvent s).decCount = 0#32 := rfl
@[simp] theorem resetEvent_mem (s : State) : (resetEvent s).mem = Memory.reset := rfl
@[simp] theorem resetEvent_script (s : State) : (resetEvent s).script = s.script := rfl
@[simp] theorem resetEvent_sched (s : State) : (resetEvent s).sched = s.sched := rfl
@[simp] theorem resetEvent_bindings (s : State) : (resetEvent s).bindings = s.bindings := rfl
@[simp] theorem resetEvent_draws (s : State) : (resetEvent s).draws = s.draws := rfl

/-! ### STATUS -/

@[simp] theorem status_accept_busy (op : Byte) : (Status.accept op).busy = true := rfl
@[simp] theorem status_accept_done (op : Byte) : (Status.accept op).done = false := rfl
@[simp] theorem status_accept_err (op : Byte) : (Status.accept op).err = false := rfl
@[simp] theorem status_accept_errCode (op : Byte) : (Status.accept op).errCode = 0#4 := rfl
@[simp] theorem status_accept_lastOp (op : Byte) : (Status.accept op).lastOp = op := rfl
@[simp] theorem status_complete_none_busy (st : Status) : (Status.complete none st).busy = false := rfl
@[simp] theorem status_complete_none_done (st : Status) : (Status.complete none st).done = true := rfl
@[simp] theorem status_complete_none_err (st : Status) : (Status.complete none st).err = st.err := rfl
@[simp] theorem status_complete_none_errCode (st : Status) : (Status.complete none st).errCode = st.errCode := rfl
@[simp] theorem status_complete_none_lastOp (st : Status) : (Status.complete none st).lastOp = st.lastOp := rfl
@[simp] theorem status_complete_some_busy (e : ErrorCode) (st : Status) : (Status.complete (some e) st).busy = false := rfl
@[simp] theorem status_complete_some_done (e : ErrorCode) (st : Status) : (Status.complete (some e) st).done = true := rfl
@[simp] theorem status_complete_some_err (e : ErrorCode) (st : Status) : (Status.complete (some e) st).err = true := rfl
@[simp] theorem status_complete_some_errCode (e : ErrorCode) (st : Status) : (Status.complete (some e) st).errCode = e.code := rfl
@[simp] theorem status_complete_some_lastOp (e : ErrorCode) (st : Status) : (Status.complete (some e) st).lastOp = st.lastOp := rfl

/-- Completion always clears BUSY, sets DONE and keeps LAST_OP (R26). -/
theorem status_complete_fields (e : Option ErrorCode) (st : Status) :
    (Status.complete e st).busy = false ∧ (Status.complete e st).done = true ∧ (Status.complete e st).lastOp = st.lastOp := by
  cases e <;> exact ⟨rfl, rfl, rfl⟩

/-- An error code is 1 to 7 (R251). -/
theorem errorCode_range (e : ErrorCode) : 1 ≤ e.code.toNat ∧ e.code.toNat ≤ 7 := by
  cases e <;> decide

end Sys2Proof.Machine
end

