-- ==== Sys2Proof/Laws/Operations.lean ====
section
/-! SUPPORT. One lemma for each shared operation that says once what it can do, the inversion of each command's
pseudocode, and the inversion of the step. -/

namespace Sys2Proof.Machine

/-! ### Checks and operand reads -/

/-- CheckN gets through exactly on 1 ≤ N ≤ N_MAX, and returns N (R112). -/
theorem checkN_ok_iff (s : State) (n : Nat) :
    checkN s = .ok n ↔ gridSize s = n ∧ 1 ≤ n ∧ n ≤ s.params.nMax := by
  unfold checkN
  split_ifs with h1 h2
  · simp; omega
  · simp; omega
  · simp; omega

/-- CheckN ends in EMPTY_INPUT on N = 0 and in CAPACITY on N > N_MAX, and never faults (R112). -/
theorem checkN_error {s : State} {x : Stop} (h : checkN s = .error x) :
    (x = .raised .emptyInput ∧ gridSize s = 0) ∨
    (x = .raised .capacity ∧ gridSize s ≠ 0 ∧ s.params.nMax < gridSize s) := by
  unfold checkN at h
  split_ifs at h with h1 h2
  · exact .inl ⟨by simpa using h.symm, h1⟩
  · exact .inr ⟨by simpa using h.symm, h1, h2⟩

/-- An operand read answers exactly the element that is listed. -/
theorem readOperand_ok_iff {α : Type} (name : Operand) (m : Sparse α) (i : Nat) (v : α) :
    readOperand name m i = .ok v ↔ Sparse.get? m i = some v := by
  unfold readOperand
  split <;> simp [*]

/-- An operand read ends in a fault exactly where the element is UNSPECIFIED (R286). -/
theorem readOperand_error_iff {α : Type} (name : Operand) (m : Sparse α) (i : Nat) (x : Stop) :
    readOperand name m i = .error x ↔ Sparse.get? m i = none ∧ x = .fault (.unwrittenOperand name i) := by
  unfold readOperand
  split <;> simp [*, eq_comm]

/-- A range read answers exactly the elements that are listed, in index order. -/
theorem readRange_ok_iff {α : Type} (name : Operand) (m : Sparse α) (i n : Nat) (vs : List α) :
    readRange name m i n = .ok vs ↔ vs.length = n ∧ ∀ k < n, Sparse.get? m (i + k) = vs[k]? := by
  induction n generalizing i vs with
  | zero =>
    simp only [readRange, Except.ok.injEq, Nat.not_lt_zero, false_implies, implies_true, and_true]
    exact ⟨fun h => h ▸ rfl, fun h => (List.length_eq_zero_iff.mp h).symm⟩
  | succ n ih =>
    constructor
    · intro h
      cases hv : readOperand name m i with
      | error x => simp [readRange, hv, bind, Except.bind] at h
      | ok v =>
        cases hr : readRange name m (i + 1) n with
        | error x => simp [readRange, hv, hr, bind, Except.bind] at h
        | ok ws =>
          simp only [readRange, hv, hr, bind, Except.bind, pure, Except.pure, Except.ok.injEq] at h
          subst h
          obtain ⟨hl, hk⟩ := (ih (i + 1) ws).mp hr
          refine ⟨by simp [hl], fun k hlt => ?_⟩
          cases k with
          | zero => simpa using (readOperand_ok_iff name m i v).mp hv
          | succ k =>
            have h1 := hk k (by omega)
            have h2 : i + (k + 1) = i + 1 + k := by omega
            rw [h2, h1, List.getElem?_cons_succ]
    · rintro ⟨hl, hk⟩
      cases vs with
      | nil => simp at hl
      | cons v ws =>
        have hv : readOperand name m i = .ok v := (readOperand_ok_iff name m i v).mpr (by simpa using hk 0 (by omega))
        have hr : readRange name m (i + 1) n = .ok ws := by
          refine (ih (i + 1) ws).mpr ⟨by simpa using hl, fun k hlt => ?_⟩
          have h1 := hk (k + 1) (by omega)
          have h2 : i + (k + 1) = i + 1 + k := by omega
          rw [h2, List.getElem?_cons_succ] at h1
          exact h1
        simp [readRange, hv, hr, bind, Except.bind, pure, Except.pure]

/-- A range read stops only with a fault, at an UNSPECIFIED element of the range (R286). -/
theorem readRange_error {α : Type} {name : Operand} {m : Sparse α} {i n : Nat} {x : Stop}
    (h : readRange name m i n = .error x) :
    ∃ k, i ≤ k ∧ k < i + n ∧ Sparse.get? m k = none ∧ x = .fault (.unwrittenOperand name k) := by
  induction n generalizing i with
  | zero => simp [readRange] at h
  | succ n ih =>
    cases hv : readOperand name m i with
    | error y =>
      simp only [readRange, hv, bind, Except.bind, Except.error.injEq] at h
      obtain ⟨h1, h2⟩ := (readOperand_error_iff name m i y).mp hv
      exact ⟨i, le_refl i, by omega, h1, h ▸ h2⟩
    | ok v =>
      cases hr : readRange name m (i + 1) n with
      | ok ws => simp [readRange, hv, hr, bind, Except.bind, pure, Except.pure] at h
      | error y =>
        simp only [readRange, hv, hr, bind, Except.bind, Except.error.injEq] at h
        subst h
        obtain ⟨k, h1, h2, h3, h4⟩ := ih hr
        exact ⟨k, by omega, by omega, h3, h4⟩

/-! ### How a command ends -/

/-- The engine step ends in a next state exactly where the pseudocode ended, in an error or in none (R259). -/
theorem finish_next_iff (r : CommandResult) (t : State) :
    finish r = .next t ↔
      (∃ s, r = .done s ∧ t = succeed s) ∨ (∃ e s, r = .raised e s ∧ t = raiseError e s) := by
  cases r <;> simp [finish, eq_comm]

/-- A command whose checks come first ends in one of three ways (R250, R254, R286). -/
theorem ofExcept_cases (s : State) (x : Except Stop State) :
    (∃ t, x = .ok t ∧ CommandResult.ofExcept s x = .done t) ∨
    (∃ e, x = .error (.raised e) ∧ CommandResult.ofExcept s x = .raised e s) ∨
    (∃ f, x = .error (.fault f) ∧ CommandResult.ofExcept s x = .fault f) := by
  rcases x with (e | f) | t
  · exact .inr (.inl ⟨e, rfl, rfl⟩)
  · exact .inr (.inr ⟨f, rfl, rfl⟩)
  · exact .inl ⟨t, rfl, rfl⟩

/-- Such a command answers a next state exactly where it ran to its end or raised, and a raise leaves the state it
started from, but for STATUS and the pending bit (R254). -/
theorem finish_ofExcept_next_iff (s : State) (x : Except Stop State) (t : State) :
    finish (.ofExcept s x) = .next t ↔
      (∃ u, x = .ok u ∧ t = succeed u) ∨ (∃ e, x = .error (.raised e) ∧ t = raiseError e s) := by
  rcases x with (e | f) | u <;> simp [CommandResult.ofExcept, finish, eq_comm]

/-- Two pseudocodes in sequence: an error of the first ends both and keeps its writes (R220). -/
theorem andThen_cases (r : CommandResult) (f : State → CommandResult) :
    (∃ s, r = .done s ∧ r.andThen f = f s) ∨ (∃ e s, r = .raised e s ∧ r.andThen f = .raised e s) ∨
    (∃ x, r = .fault x ∧ r.andThen f = .fault x) := by
  cases r with
  | done s => exact .inl ⟨s, rfl, rfl⟩
  | raised e s => exact .inr (.inl ⟨e, s, rfl, rfl⟩)
  | fault x => exact .inr (.inr ⟨x, rfl, rfl⟩)

/-! ### The inversion of each command's pseudocode -/

/-- A successful FREQ_COUNT (R120). -/
theorem freqCount_ok {s t : State} (h : freqCount s = .ok t) :
    ∃ syms, 1 ≤ gridSize s ∧ gridSize s ≤ s.params.nMax ∧ syms.length = gridSize s ∧
      (∀ k < gridSize s, s.symAt k = syms[k]?) ∧
      t = { s with mem := { s.mem with freq := countSymbols syms } } := by
  unfold freqCount at h
  cases hn : checkN s with
  | error x => simp [hn, bind, Except.bind] at h
  | ok n =>
    obtain ⟨rfl, h1, h2⟩ := (checkN_ok_iff s n).mp hn
    cases hr : readRange .sym s.mem.sym 0 (gridSize s) with
    | error x => simp [hn, hr, bind, Except.bind] at h
    | ok syms =>
      obtain ⟨hl, hk⟩ := (readRange_ok_iff _ _ _ _ _).mp hr
      simp only [hn, hr, bind, Except.bind, pure, Except.pure, Except.ok.injEq] at h
      exact ⟨syms, h1, h2, hl, fun k hlt => by simpa [State.symAt] using hk k hlt, h.symm⟩

/-- A successful RLE_ENCODE (R131). -/
theorem rleEncode_ok {s t : State} (h : rleEncode s = .ok t) :
    ∃ syms, 1 ≤ gridSize s ∧ gridSize s ≤ s.params.nMax ∧ syms.length = gridSize s ∧
      (∀ k < gridSize s, s.symAt k = syms[k]?) ∧
      t = { s with
        rleCount := BitVec.ofNat 32 (rleTokens syms).length
        mem := { s.mem with
          rleSym := Sparse.setRange s.mem.rleSym 0 ((rleTokens syms).map Prod.fst)
          rleRun := Sparse.setRange s.mem.rleRun 0 ((rleTokens syms).map fun x => BitVec.ofNat 32 x.2) } } := by
  unfold rleEncode at h
  cases hn : checkN s with
  | error x => simp [hn, bind, Except.bind] at h
  | ok n =>
    obtain ⟨rfl, h1, h2⟩ := (checkN_ok_iff s n).mp hn
    cases hr : readRange .sym s.mem.sym 0 (gridSize s) with
    | error x => simp [hn, hr, bind, Except.bind] at h
    | ok syms =>
      obtain ⟨hl, hk⟩ := (readRange_ok_iff _ _ _ _ _).mp hr
      simp only [hn, hr, bind, Except.bind, pure, Except.pure, Except.ok.injEq] at h
      exact ⟨syms, h1, h2, hl, fun k hlt => by simpa [State.symAt] using hk k hlt, h.symm⟩

/-- A successful RLE_DECODE (R134). -/
theorem rleDecode_ok {s t : State} (h : rleDecode s = .ok t) :
    ∃ syms, 1 ≤ gridSize s ∧ gridSize s ≤ s.params.nMax ∧ s.rleCount.toNat ≤ s.params.rleMax ∧
      sumRuns s.mem 0 s.rleCount.toNat = .ok (gridSize s) ∧ expandRuns s.mem 0 s.rleCount.toNat = .ok syms ∧
      t = { s with
        decCount := BitVec.ofNat 32 (gridSize s)
        mem := { s.mem with dec := Sparse.setRange s.mem.dec 0 syms } } := by
  unfold rleDecode at h
  cases hn : checkN s with
  | error x => simp [hn, bind, Except.bind] at h
  | ok n =>
    obtain ⟨rfl, h1, h2⟩ := (checkN_ok_iff s n).mp hn
    by_cases hc : s.params.rleMax < s.rleCount.toNat
    · simp [hn, hc, bind, Except.bind] at h
    · cases hs : sumRuns s.mem 0 s.rleCount.toNat with
      | error x => simp [hn, hc, hs, bind, Except.bind] at h
      | ok total =>
        by_cases ht : total = gridSize s
        · cases he : expandRuns s.mem 0 s.rleCount.toNat with
          | error x => simp [hn, hc, hs, ht, he, bind, Except.bind] at h
          | ok syms =>
            simp [hn, hc, hs, ht, he, bind, Except.bind, pure, Except.pure] at h
            exact ⟨syms, h1, h2, by omega, ht ▸ rfl, rfl, h.symm⟩
        · simp [hn, hc, hs, ht, bind, Except.bind] at h

/-- A successful TREE_BUILD (R150). -/
theorem treeBuild_ok {s t : State} (h : treeBuild s = .ok t) :
    freqSum s.mem.freq ≠ 0 ∧ freqSum s.mem.freq ≤ Config.freqSumMax ∧
      ∃ merged, merged = mergeLoop (Config.alphabet - 1) (queueOf 0 (leaves s.mem.freq)) (leaves s.mem.freq).length ∧
        t = { s with
          leafCount := BitVec.ofNat 9 (leaves s.mem.freq).length
          nodeCount := BitVec.ofNat 10 ((leaves s.mem.freq).length + merged.1.length)
          root := BitVec.ofNat 9 merged.2
          mem := { s.mem with node := Sparse.setRange s.mem.node 0 (leaves s.mem.freq ++ merged.1) } } := by
  unfold treeBuild at h
  by_cases h1 : freqSum s.mem.freq = 0
  · simp [h1] at h
  · by_cases h2 : Config.freqSumMax < freqSum s.mem.freq
    · simp [h1, h2] at h
    · simp only [h1, h2, if_false, Except.ok.injEq] at h
      exact ⟨h1, by omega, _, rfl, h.symm⟩

/-- TREE_BUILD stops only by raising (R152). -/
theorem treeBuild_error {s : State} {x : Stop} (h : treeBuild s = .error x) :
    (x = .raised .emptyInput ∧ freqSum s.mem.freq = 0) ∨
    (x = .raised .capacity ∧ Config.freqSumMax < freqSum s.mem.freq) := by
  unfold treeBuild at h
  by_cases h1 : freqSum s.mem.freq = 0
  · simp only [h1, if_true, Except.error.injEq] at h
    exact .inl ⟨h.symm, h1⟩
  · by_cases h2 : Config.freqSumMax < freqSum s.mem.freq
    · simp only [h1, h2, if_true, if_false, Except.error.injEq] at h
      exact .inr ⟨h.symm, h2⟩
    · simp [h1, h2] at h

/-- A successful CODE_GEN (R170). -/
theorem codeGen_ok {s t : State} (h : codeGen s = .ok t) :
    s.nodeCount ≠ 0#10 ∧ ∃ codes, treeCodes s.mem.node s.root.toNat = .ok codes ∧
      t = { s with
        maxCodeLen := BitVec.ofNat 8 (greatestCodeLen (recordCodes s.mem codes))
        mem := recordCodes s.mem codes } := by
  unfold codeGen at h
  by_cases h1 : s.nodeCount = 0#10
  · simp [h1] at h
  · cases hc : treeCodes s.mem.node s.root.toNat with
    | error x => simp [h1, hc, bind, Except.bind] at h
    | ok codes =>
      simp only [h1, hc, if_false, bind, Except.bind, pure, Except.pure, Except.ok.injEq] at h
      exact ⟨h1, codes, rfl, h.symm⟩

/-- A successful PACK (R191). -/
theorem pack_ok {s t : State} (h : pack s = .ok t) :
    ∃ codes, 1 ≤ gridSize s ∧ gridSize s ≤ s.params.nMax ∧ readCodes s.mem 0 (gridSize s) = .ok codes ∧
      packedLen codes.flatten.length ≤ s.params.outMax ∧
      t = { s with
        outLen := BitVec.ofNat 32 (packedLen codes.flatten.length)
        totalBits := BitVec.ofNat 32 codes.flatten.length
        padding := BitVec.ofNat 4 (paddingOf codes.flatten.length)
        mem := { s.mem with
          out := Sparse.setRange s.mem.out 0
            (streamBytes (packedLen codes.flatten.length) (packedStream codes.flatten)) } } := by
  unfold pack at h
  cases hn : checkN s with
  | error x => simp [hn, bind, Except.bind] at h
  | ok n =>
    obtain ⟨rfl, h1, h2⟩ := (checkN_ok_iff s n).mp hn
    cases hr : readCodes s.mem 0 (gridSize s) with
    | error x => simp [hn, hr, bind, Except.bind] at h
    | ok codes =>
      by_cases ho : s.params.outMax < packedLen codes.flatten.length
      · simp only [hn, hr, ho, bind, Except.bind, if_true] at h
        cases h
      · simp only [hn, hr, ho, bind, Except.bind, pure, Except.pure, if_false, Except.ok.injEq] at h
        exact ⟨codes, h1, h2, rfl, by omega, h.symm⟩

/-- A successful UNPACK (R196, R199). -/
theorem unpack_ok {s t : State} (h : unpack s = .ok t) :
    ∃ p bytes syms, 1 ≤ gridSize s ∧ gridSize s ≤ s.params.nMax ∧ 1 ≤ s.outLen.toNat ∧
      s.outLen.toNat ≤ s.params.outMax ∧ s.outAt 0 = some p ∧ p.toNat ≤ 8 ∧ p.toNat ≤ 8 * (s.outLen.toNat - 1) ∧
      readRange .out s.mem.out 1 (s.outLen.toNat - 1) = .ok bytes ∧
      decodeSymbols (codeTable s.mem) (greatestCodeLen s.mem) (gridSize s)
        ((bitsOfBytes bytes).take (8 * (s.outLen.toNat - 1) - p.toNat)) = some syms ∧
      t = { s with
        decCount := BitVec.ofNat 32 (gridSize s)
        padding := p.setWidth 4
        totalBits := BitVec.ofNat 32 (8 * (s.outLen.toNat - 1) - p.toNat)
        mem := { s.mem with dec := Sparse.setRange s.mem.dec 0 syms } } := by
  unfold unpack at h
  cases hn : checkN s with
  | error x => simp [hn, bind, Except.bind] at h
  | ok n =>
    obtain ⟨rfl, h1, h2⟩ := (checkN_ok_iff s n).mp hn
    simp only [hn, bind, Except.bind] at h
    split_ifs at h with h3 h4
    cases hp : readOperand .out s.mem.out 0 with
    | error x => simp [hp] at h
    | ok p =>
      simp only [hp] at h
      split_ifs at h with h5 h6
      cases hb : readRange .out s.mem.out 1 (s.outLen.toNat - 1) with
      | error x => simp [hb] at h
      | ok bytes =>
        simp only [hb] at h
        cases hd : decodeSymbols (codeTable s.mem) (greatestCodeLen s.mem) (gridSize s)
            ((bitsOfBytes bytes).take (8 * (s.outLen.toNat - 1) - p.toNat)) with
        | none => simp [hd] at h
        | some syms =>
          simp only [hd, pure, Except.pure, Except.ok.injEq] at h
          exact ⟨p, bytes, syms, h1, h2, by omega, by omega,
            (readOperand_ok_iff _ _ _ _).mp hp, by omega, by omega, rfl, hd, h.symm⟩

/-! ### Every command keeps the canonical form of memory -/

theorem freqCount_wf {s t : State} (h : freqCount s = .ok t) (hw : s.mem.wf = true) : t.mem.wf = true := by
  obtain ⟨syms, -, -, -, -, rfl⟩ := freqCount_ok h
  obtain ⟨h1, -, h4, h5⟩ := (wf_iff s.mem).mp hw
  exact (wf_iff _).mpr ⟨h1, countSymbols_wf syms, h4, h5⟩

theorem rleEncode_wf {s t : State} (h : rleEncode s = .ok t) (hw : s.mem.wf = true) : t.mem.wf = true := by
  obtain ⟨syms, -, -, -, -, rfl⟩ := rleEncode_ok h
  obtain ⟨h1, h2, h4, h5, h7, h9, h10, h11, h12⟩ := (wf_iff s.mem).mp hw
  exact (wf_iff _).mpr ⟨h1, h2, h4, h5, h7, h9, sorted_setRange _ _ _ h10, sorted_setRange _ _ _ h11, h12⟩

theorem rleDecode_wf {s t : State} (h : rleDecode s = .ok t) (hw : s.mem.wf = true) : t.mem.wf = true := by
  obtain ⟨syms, -, -, -, -, -, rfl⟩ := rleDecode_ok h
  obtain ⟨h1, h2, h4, h5, h7, h9, h10, h11, h12⟩ := (wf_iff s.mem).mp hw
  exact (wf_iff _).mpr ⟨h1, h2, h4, h5, h7, h9, h10, h11, sorted_setRange _ _ _ h12⟩

theorem treeBuild_wf {s t : State} (h : treeBuild s = .ok t) (hw : s.mem.wf = true) : t.mem.wf = true := by
  obtain ⟨-, -, merged, -, rfl⟩ := treeBuild_ok h
  obtain ⟨h1, h2, h4, h5⟩ := (wf_iff s.mem).mp hw
  exact (wf_iff _).mpr ⟨h1, h2, sorted_setRange _ _ _ h4, h5⟩

theorem codeGen_wf {s t : State} (h : codeGen s = .ok t) (hw : s.mem.wf = true) : t.mem.wf = true := by
  obtain ⟨-, codes, -, rfl⟩ := codeGen_ok h
  exact recordCodes_wf s.mem codes hw

theorem pack_wf {s t : State} (h : pack s = .ok t) (hw : s.mem.wf = true) : t.mem.wf = true := by
  obtain ⟨codes, -, -, -, -, rfl⟩ := pack_ok h
  obtain ⟨h1, h2, h4, h5, h7, h9, h10⟩ := (wf_iff s.mem).mp hw
  exact (wf_iff _).mpr ⟨h1, h2, h4, h5, h7, sorted_setRange _ _ _ h9, h10⟩

theorem unpack_wf {s t : State} (h : unpack s = .ok t) (hw : s.mem.wf = true) : t.mem.wf = true := by
  obtain ⟨p, bytes, syms, -, -, -, -, -, -, -, -, -, rfl⟩ := unpack_ok h
  obtain ⟨h1, h2, h4, h5, h7, h9, h10, h11, h12⟩ := (wf_iff s.mem).mp hw
  exact (wf_iff _).mpr ⟨h1, h2, h4, h5, h7, h9, h10, h11, sorted_setRange _ _ _ h12⟩

/-! ### The step -/

/-- Which agent moves (R259, R75). -/
theorem whoMoves_engine_iff (s : State) :
    whoMoves s = some .engine ↔ s.pending = true ∧ ¬ (s.sched.head? = some .host ∧ s.script ≠ []) := by
  unfold whoMoves
  split_ifs with h1 h2 h3 <;> simp [*]

theorem whoMoves_host_iff (s : State) :
    whoMoves s = some .host ↔ s.script ≠ [] ∧ (s.pending = true → s.sched.head? = some .host) := by
  unfold whoMoves
  split_ifs with h1 h2 h3
  · simp [h1, h2]
  · simp [h1]; tauto
  · simp [h1, h3]
  · simp [h1]; simpa using h3

theorem whoMoves_none_iff (s : State) : whoMoves s = none ↔ s.pending = false ∧ s.script = [] := by
  unfold whoMoves
  split_ifs with h1 h2 h3 <;> simp_all

/-- What a step can do: the engine runs the latched command or rejects the latched word, the host performs one
statement, or the idle block holds its state. -/
theorem step_next_cases {s t : State} (h : step s = .next t) :
    (whoMoves s = some .engine ∧ ∃ i, decode s.latch = .ok i ∧ exec i (takeTurn s) = .next t) ∨
    (whoMoves s = some .engine ∧ (∃ e, decode s.latch = .error e) ∧ t = raiseError .illegalCommand (takeTurn s)) ∨
    (whoMoves s = some .host ∧ hostStep (takeTurn s) = .next t) ∨
    (whoMoves s = none ∧ t = s) := by
  unfold step at h
  cases hw : whoMoves s with
  | none => rw [hw] at h; exact .inr (.inr (.inr ⟨rfl, by simpa using h.symm⟩))
  | some a =>
    rw [hw] at h
    cases a with
    | host => exact .inr (.inr (.inl ⟨rfl, h⟩))
    | engine =>
      simp only [engineStep, fetch, takeTurn_latch] at h
      cases hd : decode s.latch with
      | ok i => rw [hd] at h; exact .inl ⟨rfl, i, rfl, h⟩
      | error e =>
        rw [hd] at h
        refine .inr (.inl ⟨rfl, ⟨e, rfl⟩, ?_⟩)
        simpa [illegalCommand, finish] using h.symm

/-- What the host's step can do (R96, R280, R283). -/
theorem hostStep_next_cases {s t : State} (h : hostStep s = .next t) :
    (s.script = [] ∧ t = s) ∨
    (∃ a v rest, s.script = .wr a v :: rest ∧ s.status.busy = false ∧
      t = portWrite { s with script := rest } a v) ∨
    (∃ a name rest, s.script = .rd a name :: rest ∧ t = hostRead a name { s with script := rest }) ∨
    (∃ rest, s.script = .wait :: rest ∧
      (t = hostRead (regAddr .status) "s" s ∨ t = hostRead (regAddr .status) "s" { s with script := rest })) ∨
    (∃ rest, s.script = .reset :: rest ∧ t = resetEvent { s with script := rest }) := by
  unfold hostStep at h
  split at h
  · next hs => exact .inl ⟨hs, by simpa using h.symm⟩
  · next a v rest hs =>
    split_ifs at h with hb
    exact .inr (.inl ⟨a, v, rest, hs, by simpa using hb, by simpa using h.symm⟩)
  · next a name rest hs => exact .inr (.inr (.inl ⟨a, name, rest, hs, by simpa using h.symm⟩))
  · next rest hs =>
    refine .inr (.inr (.inr (.inl ⟨rest, hs, ?_⟩)))
    split_ifs at h with hb
    · exact .inl (by simpa using h.symm)
    · exact .inr (by simpa using h.symm)
  · simp at h
  · simp at h
  · next rest hs => exact .inr (.inr (.inr (.inr ⟨rest, hs, by simpa using h.symm⟩)))

end Sys2Proof.Machine
end

