-- ==== Sys2Proof/Laws/PerInstr.lean ====
section
/-! SUPPORT. The statements made for every command as syntax, one lemma per constructor. -/

namespace Sys2Proof.Laws.TableWord

/-- A command is well formed, its word is its opcode with RSV = 0, and no field of its encoding is dropped
(30_encoding.md R90 to R93). -/
def Statement (i : Instr) : Prop :=
  i.wellFormed = true ∧ opField (encode i) = opcode i ∧ rsvField (encode i) = 0#24 ∧ decodeOp (opcode i) = .ok i

theorem nop : Statement .nop := by unfold Statement; decide
theorem clear : Statement .clear := by unfold Statement; decide
theorem freqCount : Statement .freqCount := by unfold Statement; decide
theorem rleEncode : Statement .rleEncode := by unfold Statement; decide
theorem rleDecode : Statement .rleDecode := by unfold Statement; decide
theorem treeBuild : Statement .treeBuild := by unfold Statement; decide
theorem codeGen : Statement .codeGen := by unfold Statement; decide
theorem pack : Statement .pack := by unfold Statement; decide
theorem unpack : Statement .unpack := by unfold Statement; decide
theorem huffEncode : Statement .huffEncode := by unfold Statement; decide

end Sys2Proof.Laws.TableWord
end

