-- ==== Sys2Proof/Tests/Slice0.lean ====
section
/-! SUPPORT. The model's own tests: the checks of WellFormed, decoding, one small step per command with results from
95_test_vectors.md, and for every statement with hypotheses a witness that meets them together. -/

namespace Sys2Proof.Tests

set_option Elab.async false

open Sys2Proof.Machine Sys2Proof.Stated

/-! ### Helpers -/

/-- The next state of an outcome, where it has one. -/
def nextOf : Host.Outcome State Fault Refusal → Option State
  | .next s => some s
  | .fault _ => none
  | .refused _ => none

/-- The fault of an outcome, where it has one. -/
def faultOf : Host.Outcome State Fault Refusal → Option Fault
  | .next _ => none
  | .fault f => some f
  | .refused _ => none

theorem eq_next_of_nextOf {o : Host.Outcome State Fault Refusal} {t : State} (h : nextOf o = some t) : o = .next t := by
  cases o <;> simp_all [nextOf]

theorem exists_next_of_nextOf {o : Host.Outcome State Fault Refusal} (p : State → Bool)
    (h : (nextOf o).any p = true) : ∃ t, o = .next t ∧ p t = true := by
  cases o <;> simp_all [nextOf]

/-- A small legal machine. -/
def small : Params := { nMax := 12, outMax := 14, rleMax := 12 }

/-- The small machine after reset. -/
def start : State := State.resetWith small

/-- A memory that holds these elements from index 0 on. -/
def listed {α : Type} (vs : List α) : Sparse α := Sparse.setRange [] 0 vs

/-- The small machine with these symbols in SYM and SHAPE = (len, 1, 1). -/
def gridOf (vs : List Byte) : State :=
  { start with
    shapeH := BitVec.ofNat 32 vs.length, shapeW := 1#32, shapeC := 1#32
    mem := { start.mem with sym := listed vs } }

/-- The small machine with N = n and these bytes in OUT. -/
def packedOf (n : Word) (bs : List Byte) : State :=
  { start with
    shapeH := n, shapeW := 1#32, shapeC := 1#32, outLen := BitVec.ofNat 32 bs.length
    mem := { start.mem with out := listed bs } }

/-- The small machine with N = n and these tokens in RLE. -/
def tokensOf (n : Word) (ts : List (Byte × Word)) : State :=
  { start with
    shapeH := n, shapeW := 1#32, shapeC := 1#32, rleCount := BitVec.ofNat 32 ts.length
    mem := { start.mem with rleSym := listed (ts.map Prod.fst), rleRun := listed (ts.map Prod.snd) } }

/-- The state with these codes, each a symbol, a length and window word 1. -/
def withCodes (cs : List (Nat × Byte × Word)) (s : State) : State :=
  { s with
    mem := { s.mem with
      codeLen := cs.foldl (fun m c => Sparse.write m c.1 c.2.1) []
      codeBits := cs.foldl (fun m c => Sparse.write m c.1 (setCellWord 0#256 0 c.2.2)) [] } }

/-- The state with these frequencies. -/
def withFreq (fs : List (Nat × Word)) (s : State) : State :=
  { s with mem := { s.mem with freq := fs.foldl (fun m f => Sparse.write m f.1 f.2) [] } }

/-- The codes of 95_test_vectors.md 2.8 row (a). -/
def rowA : List (Nat × Byte × Word) :=
  [(10, 1#8, 0x80000000#32), (20, 2#8, 0#32), (30, 2#8, 0x40000000#32)]

/-- The SYM of the example of 43_tree.md R150 and 45_packer.md R196. -/
def nine : List Byte := [10, 10, 10, 10, 10, 20, 20, 30, 30]

/-- The two-leaf tree of FREQ[1] = 3, FREQ[2] = 2 (41_frequency.md R120's example): R150 pops leaf 1 first. -/
def twoLeaves : State :=
  { start with
    leafCount := 2#9, nodeCount := 3#10, root := 2#9
    mem := { start.mem with
      node := [(0, { freq := 3#32, isLeaf := true, symbol := 1#8, left := 0#9, right := 0#9 }),
               (1, { freq := 2#32, isLeaf := true, symbol := 2#8, left := 0#9, right := 0#9 }),
               (2, { freq := 5#32, isLeaf := false, symbol := 0#8, left := 1#9, right := 0#9 })] } }

/-- The degenerate tree of R155, 95_test_vectors.md 2.7 (h). -/
def oneLeaf : State :=
  { start with
    leafCount := 1#9, nodeCount := 1#10, root := 0#9
    mem := { start.mem with
      node := [(0, { freq := 1#32, isLeaf := true, symbol := 42#8, left := 0#9, right := 0#9 })] } }

/-- What STATUS reads after a command is accepted and executed; 0 where the model stops. -/
def statusAfter (i : Instr) (s : State) : Word :=
  ((nextOf (exec i (accept (encode i) s))).map fun t => t.status.word).getD 0#32

/-! ### WellFormed -/

theorem test_params_legal_bounds :
    Params.legal ⟨1, 3, 1⟩ = true ∧ Params.legal ⟨2 ^ 24, 2 ^ 26, 2 ^ 25⟩ = true ∧ Config.params.legal = true := by decide

theorem test_params_refuse_nMax_zero : Params.legal ⟨0, 3, 1⟩ = false := by decide
theorem test_params_refuse_nMax_high : Params.legal ⟨2 ^ 24 + 1, 2 ^ 26, 2 ^ 25⟩ = false := by decide
theorem test_params_refuse_outMax_low : Params.legal ⟨5, 6, 5⟩ = false := by decide
theorem test_params_refuse_outMax_high : Params.legal ⟨5, 2 ^ 26 + 1, 5⟩ = false := by decide
theorem test_params_refuse_rleMax_low : Params.legal ⟨5, 7, 4⟩ = false := by decide
theorem test_params_refuse_rleMax_high : Params.legal ⟨5, 7, 2 ^ 25 + 1⟩ = false := by decide

theorem test_narrow_statements_ill_formed :
    HostStmt.wellFormed (.narrowRead 0x8#32 1 "s") = false ∧ HostStmt.wellFormed (.narrowWrite 0x8#32 2 5#32) = false ∧
    Script.wellFormed [.rd 0x8#32 "s", .narrowRead 0x8#32 1 "s"] = false := by decide

theorem test_whole_word_statements_well_formed :
    Script.wellFormed [.wr 0x9#32 5#32, .rd 0x8#32 "s", .wait, .reset] = true ∧ Instr.wellFormed .pack = true := by decide

/-! ### Encoding: words written out from 30_encoding.md R90, R92 and R94 -/

theorem test_decode_control :
    decode 0b00000000000000000000000000000000#32 = .ok .nop ∧
    decode 0b00000000000000000000000000000001#32 = .ok .clear := by decide

theorem test_decode_freqCount : decode 0b00000000000000000000000000010000#32 = .ok .freqCount := by decide

theorem test_decode_rle :
    decode 0b00000000000000000000000000100000#32 = .ok .rleEncode ∧
    decode 0b00000000000000000000000000100001#32 = .ok .rleDecode := by decide

theorem test_decode_treeBuild : decode 0b00000000000000000000000000110000#32 = .ok .treeBuild := by decide
theorem test_decode_codeGen : decode 0b00000000000000000000000001000000#32 = .ok .codeGen := by decide

theorem test_decode_packer :
    decode 0b00000000000000000000000001010000#32 = .ok .pack ∧
    decode 0b00000000000000000000000001010001#32 = .ok .unpack := by decide

theorem test_decode_huffEncode : decode 0b00000000000000000000000001100000#32 = .ok .huffEncode := by decide

theorem test_decode_undefined_opcodes :
    ([0x02#32, 0x0F#32, 0x11#32, 0x1F#32, 0x22#32, 0x2F#32, 0x31#32, 0x3F#32, 0x41#32, 0x4F#32, 0x52#32, 0x5F#32,
      0x61#32, 0xFF#32].all fun op => decide (decode op = .error .undefinedOpcode)) = true := by decide +kernel

theorem test_decode_reserved_bits :
    decode 0x00000100#32 = .error .reservedBitsSet ∧ decode 0x80000010#32 = .error .reservedBitsSet := by decide

theorem test_decode_bytes :
    decodeBytes [0x51#8, 0#8, 0#8, 0#8] = .ok .unpack ∧ decodeBytes [0#8, 0#8, 0#8, 0x51#8] = .error .reservedBitsSet ∧
    decodeBytes [0x51#8, 0#8, 0#8] = .error .notOneWord := by decide

theorem test_decode_table_word :
    decodeTableWord 32 0x30 = some .treeBuild ∧ decodeTableWord 8 0x60 = some .huffEncode ∧
    decodeTableWord 32 0x130 = none ∧ decodeTableWord 64 (2 ^ 32 + 0x30) = none := by decide

/-- R99's worked encodings. -/
theorem test_script_encoding :
    cmdStmt .treeBuild = .wr 0x00000004#32 0x00000030#32 ∧ freqAddr 7 = 0x2000001C#32 ∧
    codeAddr 7 1 = 0x400001C4#32 ∧ rleRunAddr 3 = 0x6000001C#32 := by decide

/-- R98's expansions take any port word: 95_test_vectors.md 2.1 writes 0x1234 to SYM[0], and 2.6 the sym word 0x1FF. -/
theorem test_load_pseudo_statements :
    loadSymScript [0x1234#32, 7#32] = [.wr 0x10000000#32 0x1234#32, .wr 0x10000004#32 7#32] ∧
    loadRleScript [(0x1FF#32, 2#32)] =
      [.wr 0x60000000#32 0x1FF#32, .wr 0x60000004#32 2#32, .wr 0x00000038#32 1#32] ∧
    loadOutScript [0x03#32, 0xF8#32] =
      [.wr 0x50000000#32 0x03#32, .wr 0x50000004#32 0xF8#32, .wr 0x00000034#32 2#32] := by decide +kernel

/-! ### Commands: results from 95_test_vectors.md -/

theorem test_nop_status : statusAfter .nop start = 0x00000002#32 := by decide

theorem test_clear_status : statusAfter .clear { start with shapeH := 5#32 } = 0x00000102#32 := by decide

theorem test_clear_zeroes :
    (nextOf (exec .clear (withFreq [(7, 3#32)] (withCodes rowA (gridOf nine))))).any (fun t =>
      gridSize t == 0 && t.freqAt 7 == 0#32 && t.codeLenAt 10 == 0#8 && t.symAt 0 == some 10#8) = true := by
  decide +kernel

theorem test_illegal_word_status :
    ((nextOf (engineStep (accept 0x80000010#32 start))).map fun t => t.status.word) = some 0x00001076#32 := by
  decide +kernel

theorem test_freqCount_counts :
    (nextOf (exec .freqCount (withFreq [(9, 77#32)] (gridOf [1, 2, 1, 2, 1])))).any (fun t =>
      t.freqAt 1 == 3#32 && t.freqAt 2 == 2#32 && t.freqAt 9 == 0#32) = true := by decide +kernel

theorem test_freqCount_uses_exact_product :
    statusAfter .freqCount { start with shapeH := 0x10000#32, shapeW := 0x10000#32, shapeC := 2#32 } = 0x00001036#32 := by
  decide +kernel

theorem test_rleEncode_maximal_runs :
    (nextOf (exec .rleEncode (gridOf [3, 3, 3, 1, 1, 2, 5, 3]))).any (fun t =>
      t.rleCount == 5#32 && t.mem.rleSym == listed [3#8, 1#8, 2#8, 5#8, 3#8] &&
      t.mem.rleRun == listed [3#32, 2#32, 1#32, 1#32, 1#32]) = true := by decide +kernel

theorem test_rleEncode_empty : statusAfter .rleEncode start = 0x00002016#32 := by decide +kernel

theorem test_rleDecode_expands :
    (nextOf (exec .rleDecode (tokensOf 5#32 [(4#8, 2#32), (4#8, 3#32)]))).any (fun t =>
      t.decCount == 5#32 && t.mem.dec == listed [4#8, 4#8, 4#8, 4#8, 4#8]) = true := by decide +kernel

theorem test_rleDecode_run_zero :
    statusAfter .rleDecode (tokensOf 5#32 [(4#8, 5#32), (3#8, 0#32)]) = 0x00002126#32 := by decide +kernel

/-- 95_test_vectors.md 2.7 (b): the second merge shows the tie rule. -/
theorem test_treeBuild_tie_rule :
    (nextOf (exec .treeBuild (withFreq [(1, 2#32), (2, 1#32), (3, 4#32), (5, 1#32)] start))).any (fun t =>
      t.leafCount == 4#9 && t.nodeCount == 7#10 && t.root == 6#9 &&
      t.nodeAt 4 == some ⟨2#32, false, 0#8, 1#9, 3#9⟩ && t.nodeAt 5 == some ⟨4#32, false, 0#8, 0#9, 4#9⟩ &&
      t.nodeAt 6 == some ⟨8#32, false, 0#8, 2#9, 5#9⟩) = true := by decide +kernel

theorem test_treeBuild_sum_overflow :
    statusAfter .treeBuild (withFreq [(5, 0xFFFFFFFF#32), (6, 1#32)] start) = 0x00003036#32 := by decide +kernel

/-- The paths of `twoLeaves` by R171: symbol 2 is LEFT of the root, symbol 1 RIGHT. -/
theorem test_codeGen_bit_convention :
    (nextOf (exec .codeGen twoLeaves)).any (fun t =>
      t.codeLenAt 1 == 1#8 && t.codeLenAt 2 == 1#8 && t.maxCodeLen == 1#8 &&
      portRead t (codeAddr 1 1) 0#32 == 0x80000000#32 && portRead t (codeAddr 2 1) 0#32 == 0x00000000#32) = true := by
  decide +kernel

theorem test_codeGen_no_tree : statusAfter .codeGen start = 0x00004066#32 := by decide +kernel

theorem test_pack_stream :
    (nextOf (exec .pack (withCodes rowA (gridOf nine)))).any (fun t =>
      t.outLen == 3#32 && t.padding == 3#4 && t.totalBits == 13#32 && t.mem.out == listed [0x03#8, 0xF8#8, 0x28#8]) =
      true := by decide +kernel

/-- 95_test_vectors.md 2.9: an aligned stream still gets a whole padding byte. -/
theorem test_pack_aligned :
    (nextOf (exec .pack (withCodes [(9, 1#8, 0#32)] (gridOf (List.replicate 8 9#8))))).any (fun t =>
      t.padding == 8#4 && t.mem.out == listed [0x08#8, 0x00#8, 0x00#8]) = true := by decide +kernel

theorem test_unpack_example :
    (nextOf (exec .unpack (withCodes rowA (packedOf 9#32 [0x03#8, 0xF8#8, 0x28#8])))).any (fun t =>
      t.decCount == 9#32 && t.padding == 3#4 && t.totalBits == 13#32 && t.mem.dec == listed nine) = true := by
  decide +kernel

theorem test_unpack_header_nine :
    statusAfter .unpack (withCodes [(7, 1#8, 0#32)] (packedOf 1#32 [0x09#8, 0x00#8, 0x00#8])) = 0x00005126#32 := by
  decide +kernel

/-- R220's example. -/
theorem test_huffEncode_example :
    (nextOf (exec .huffEncode { gridOf [3, 3, 3, 1, 1, 2, 5, 3] with shapeH := 2#32, shapeW := 2#32, shapeC := 2#32 })).any
      (fun t => t.totalBits == 14#32 && t.padding == 2#4 && t.outLen == 3#32 &&
        t.mem.out == listed [0x02#8, 0x15#8, 0xB8#8]) = true := by decide +kernel

theorem test_huffEncode_empty : statusAfter .huffEncode start = 0x00006016#32 := by decide +kernel

/-- The first step after State.reset runs the command placed with withFetchWord, for every command. -/
theorem test_first_step_after_reset :
    ∀ i ∈ [Instr.nop, .clear, .freqCount, .rleEncode, .rleDecode, .treeBuild, .codeGen, .pack, .unpack, .huffEncode],
      (nextOf (step (State.reset.withFetchWord 32 (encode i).toNat))).any (fun t =>
        t.status.done && t.status.lastOp == opcode i) = true := by decide +kernel

/-- 95_test_vectors.md 2.1: the saturated N and the 8-bit element. -/
theorem test_port_vectors :
    portRead { start with shapeH := 0x10000#32, shapeW := 0x10000#32, shapeC := 1#32 } 0x18#32 0#32 = 0xFFFFFFFF#32 ∧
    portRead (portWrite start 0x10000000#32 0x1234#32) 0x10000000#32 0#32 = 0x34#32 ∧
    portRead (portWrite start 0x60000000#32 0x1FF#32) 0x60000000#32 0#32 = 0xFF#32 ∧
    portWrite start 0x10000002#32 7#32 = start ∧ portWrite start 0x40000024#32 5#32 = start := by decide +kernel

/-! ### Witnesses: the hypotheses of every statement can be met together -/

theorem gridLoaded_nine : GridLoaded (gridOf nine) nine :=
  ⟨by decide +kernel, by decide +kernel, by decide +kernel, by decide +kernel⟩

/-- N = 1 and N = N_MAX, the two ends of CheckN. -/
theorem gridLoaded_ends :
    GridLoaded (gridOf [42]) [42] ∧ GridLoaded (gridOf (List.replicate 12 5#8)) (List.replicate 12 5#8) :=
  ⟨⟨by decide +kernel, by decide +kernel, by decide +kernel, by decide +kernel⟩,
   ⟨by decide +kernel, by decide +kernel, by decide +kernel, by decide +kernel⟩⟩

theorem small_legal : small.legal = true := by decide

/-- A state without a tree meets the invariant where its decidable parts hold. -/
theorem inv_of_no_tree {s : State}
    (hp : s.params.legal = true) (hb : s.pending = s.status.busy)
    (hd : s.status.busy = true → s.status.done = false ∧ s.status.err = false)
    (he : s.status.err = false) (hc : s.status.errCode = 0#4) (ho : s.pending = true → s.status.lastOp = opField s.latch)
    (hw : s.mem.wf = true) (hm : s.mem.inBounds s.params = true) (hl : s.leafCount = 0#9) (hn : s.nodeCount = 0#10)
    (hr : s.root = 0#9) (hq : s.padding.toNat ≤ 8) (hk : s.decCount.toNat ≤ s.params.nMax) : Inv s where
  params_legal := hp
  status_ok := ⟨hb, hd, by simp [he], by simp [he], fun _ => hc, ho⟩
  memory_wf := hw
  memory_inBounds := hm
  counts_ok := ⟨by simp [hl], by simp [hn], by simp [hr], hq, hk⟩
  tree_ok := by simp [TreeOk, hn, hl, hr]

theorem inv_start : Inv start := by
  apply inv_of_no_tree <;> decide

theorem inv_accepted : Inv (accept (encode .huffEncode) (gridOf nine)) := by
  apply inv_of_no_tree <;> decide +kernel

theorem twoLeaves_shape : TreeShape twoLeaves.mem.node 2 3 2 where
  leaf_pos := by decide
  leaf_le := by decide
  count_eq := by decide
  root_eq := by decide
  leaf_node := by
    intro id h
    interval_cases id <;> exact ⟨_, rfl, by decide⟩
  leaf_order := by
    intro i j m n hij hj hm hn
    interval_cases j
    · omega
    · interval_cases i
      cases hm
      cases hn
      decide
  internal_node := by
    intro id h h'
    interval_cases id
    exact ⟨_, _, _, rfl, rfl, rfl, by decide, by decide, by decide, rfl, rfl, by decide⟩
  parent_unique := by
    intro id h
    refine ⟨2, by decide, ?_, ?_⟩
    · interval_cases id
      · exact ⟨_, rfl, rfl, Or.inr rfl⟩
      · exact ⟨_, rfl, rfl, Or.inl rfl⟩
    · rintro r hr ⟨n, hn, hc⟩
      interval_cases r
      · cases hn; cases hc.1
      · cases hn; cases hc.1
      · rfl

theorem oneLeaf_shape : TreeShape oneLeaf.mem.node 1 1 0 where
  leaf_pos := by decide
  leaf_le := by decide
  count_eq := by decide
  root_eq := by decide
  leaf_node := by
    intro id h
    interval_cases id
    exact ⟨_, rfl, by decide⟩
  leaf_order := by
    intro i j m n hij hj
    omega
  internal_node := by
    intro id h h'
    omega
  parent_unique := by
    intro id h
    omega

/-- The two tree states meet the invariant and have a tree: two leaves, and the leaf root. -/
theorem inv_twoLeaves : Inv twoLeaves ∧ twoLeaves.nodeCount ≠ 0#10 ∧ 2 ≤ twoLeaves.leafCount.toNat :=
  ⟨{ params_legal := by decide
     status_ok := ⟨by decide, by decide, by decide, by decide, by decide, by decide⟩
     memory_wf := by decide
     memory_inBounds := by decide
     counts_ok := ⟨by decide, by decide, by decide, by decide, by decide⟩
     tree_ok := by rw [TreeOk, if_neg (by decide)]; exact twoLeaves_shape }, by decide, by decide⟩

theorem inv_oneLeaf : Inv oneLeaf ∧ oneLeaf.nodeCount ≠ 0#10 ∧ oneLeaf.leafCount.toNat = 1 :=
  ⟨{ params_legal := by decide
     status_ok := ⟨by decide, by decide, by decide, by decide, by decide, by decide⟩
     memory_wf := by decide
     memory_inBounds := by decide
     counts_ok := ⟨by decide, by decide, by decide, by decide, by decide⟩
     tree_ok := by rw [TreeOk, if_neg (by decide)]; exact oneLeaf_shape }, by decide, by decide⟩

/-- An illegal word of each kind: RSV set, an undefined opcode. -/
theorem witness_LegalWordsAreExactlyTheTable :
    (∀ i, decode 0x00000100#32 ≠ .ok i) ∧ ∀ i, decode 0x00000002#32 ≠ .ok i :=
  ⟨fun i => by cases i <;> decide, fun i => by cases i <;> decide⟩

/-- A pending command with no choice left, and one where the schedule names the engine before a waiting script. -/
theorem witness_StepRunsDecodedCommand :
    ∀ s ∈ [accept 0#32 start, { accept 0#32 start with sched := [.engine, .host], script := [.wait] }],
      s.pending = true ∧ ¬ (s.sched.head? = some .host ∧ s.script ≠ []) ∧ decode s.latch = .ok .nop := by decide

theorem witness_CmdWriteSubmits : start.status.busy = false ∧ (accept 0#32 start).status.busy = true := by decide

/-- A success, an error with code 1 and one with code 6. -/
theorem witness_CompletionUpdatesStatus :
    (∃ t, exec .nop start = .next t) ∧ (∃ t, exec .pack start = .next t ∧ (t.status.errCode == 1#4) = true) ∧
    ∃ t, exec .codeGen start = .next t ∧ (t.status.errCode == 6#4) = true :=
  ⟨⟨_, rfl⟩, exists_next_of_nextOf _ (by decide +kernel), exists_next_of_nextOf _ (by decide +kernel)⟩

/-- A read while a command is pending, an accepting write and a reset, each taken by the host. -/
theorem witness_HostStepsKeepStatus :
    ∀ s ∈ [{ accept 0#32 start with sched := [.host], script := [.wr 0x4#32 0#32] },
        { start with script := [.wr 0x4#32 0#32] }, { start with script := [.reset] },
        { accept 0#32 start with sched := [.host], script := [.rd 0x8#32 "s"] }], whoMoves s = some .host := by decide

theorem witness_HostStepsKeepStatus_next :
    (∃ t, step { accept 0#32 start with sched := [.host], script := [.rd 0x8#32 "s"] } = .next t) ∧
    (∃ t, step { start with script := [.wr 0x4#32 0#32] } = .next t) ∧
    ∃ t, step { start with script := [.reset] } = .next t :=
  ⟨⟨_, rfl⟩, ⟨_, rfl⟩, ⟨_, rfl⟩⟩

theorem witness_FailedCommandChangesOnlyStatus :
    Instr.treeBuild ≠ .huffEncode ∧ start.status.err = false ∧
    (∃ t, exec .treeBuild start = .next t ∧ t.status.err = true) ∧
    ∃ t, exec .unpack (packedOf 1#32 []) = .next t ∧ t.status.err = true :=
  ⟨by decide, by decide, exists_next_of_nextOf _ (by decide +kernel), exists_next_of_nextOf _ (by decide +kernel)⟩

/-- A success of every command. -/
theorem witness_EachCommandKeepsItsFrame :
    small.legal = true ∧
    ∀ x ∈ [(Instr.nop, start), (.clear, start), (.freqCount, gridOf nine), (.rleEncode, gridOf nine),
        (.rleDecode, tokensOf 5#32 [(4#8, 5#32)]), (.treeBuild, withFreq [(5, 1#32)] start), (.codeGen, twoLeaves),
        (.pack, withCodes rowA (gridOf nine)), (.unpack, withCodes rowA (packedOf 9#32 [0x03#8, 0xF8#8, 0x28#8])),
        (.huffEncode, gridOf nine)],
      (nextOf (exec x.1 x.2)).any (fun t => t.status.done && !t.status.err) = true :=
  ⟨by decide, by decide +kernel⟩

theorem witness_CommandsDoNotReadStatus : ∃ t, exec .clear start = .next t := ⟨_, rfl⟩

theorem witness_EveryCommandCompletes :
    Inv (accept (encode .huffEncode) (gridOf nine)) ∧
    ∀ i : Instr, operandsWritten i (accept (encode .huffEncode) (gridOf nine)) := by
  refine ⟨inv_accepted, fun i => ?_⟩
  cases i <;> simp only [operandsWritten] <;> decide +kernel

/-- A pending command with a WAIT, and a schedule that lets the host poll twice first. -/
theorem witness_WaitEndsWithBusyClear :
    ∃ s : State, Inv s ∧ s.pending = true ∧ s.script = .wait :: [] ∧ s.sched = [.host, .host] ∧
      ∀ i, decode s.latch = .ok i → operandsWritten i s := by
  refine ⟨{ accept (encode .huffEncode) (gridOf nine) with script := [.wait], sched := [.host, .host] },
    by apply inv_of_no_tree <;> decide +kernel, by decide, rfl, rfl, fun i _ => ?_⟩
  cases i <;> simp only [operandsWritten] <;> decide +kernel

/-- The reset event while a command is pending. -/
theorem witness_ResetEventResets :
    ∃ s : State, s.pending = true ∧ s.script = .reset :: [.wait] ∧ whoMoves s = some .host :=
  ⟨{ accept 0x60#32 (gridOf nine) with script := [.reset, .wait], sched := [.host] }, by decide, rfl, by decide⟩

theorem witness_ResetMeetsInvariant : ∀ p ∈ [small, ⟨1, 3, 1⟩, Config.params], p.legal = true := by decide

theorem witness_StepKeepsInvariant :
    Inv (accept (encode .huffEncode) (gridOf nine)) ∧
    ∃ t, step (accept (encode .huffEncode) (gridOf nine)) = .next t ∧ (t.nodeCount == 5#10) = true :=
  ⟨inv_accepted, exists_next_of_nextOf _ (by decide +kernel)⟩

/-- A NOP word with RSV set. -/
theorem witness_NopOnlyCompletes :
    (0x00000100#32).extractLsb' 0 8 = 0#8 ∧ (0x00000100#32).extractLsb' 8 24 ≠ 0#24 := by decide

theorem witness_RegisterMapAccess : start.status.busy = false := by decide

/-- A misaligned address, and the first reserved address of every window. -/
theorem witness_ReservedAndMisalignedDoNothing :
    start.status.busy = false ∧ (0x00000009#32).extractLsb' 0 2 ≠ 0#2 ∧
    ∀ a ∈ [0x0000004C#32, symAddr 12, freqAddr 256, nodeAddr 511 0, codeAddr 0 9, codeAddr 256 0, outAddr 14,
      rleSymAddr 12, decAddr 12, 0x80000000#32, 0xF0000000#32], reservedAddr small a := by
  refine ⟨by decide, by decide, ?_⟩
  simp only [List.forall_mem_cons, List.not_mem_nil, false_imp_iff, implies_true, and_true]
  refine ⟨?_, ?_, ?_, ?_, ?_, ?_, ?_, ?_, ?_, ?_, ?_⟩ <;>
    simp [reservedAddr, symAddr, freqAddr, nodeAddr, codeAddr, outAddr, rleSymAddr, decAddr, windowAddr, small]

/-- A machine with one element of every window written, and the rest UNSPECIFIED. -/
theorem witness_WindowsReadTheirElements :
    small.legal = true ∧ (gridOf [42]).status.busy = false ∧ (gridOf [42]).symAt 0 = some 42#8 ∧
    (gridOf [42]).symAt (small.nMax - 1) = none := by decide

theorem witness_WindowWritesStoreTheirElements :
    start.params.legal = true ∧ start.status.busy = false ∧ 0 < start.params.nMax ∧ 0 < start.params.outMax ∧
    0 < start.params.rleMax := by decide

theorem witness_CodeWindowLayout : start.status.busy = false ∧ 0 < 256 ∧ 255 < 256 := by decide

theorem witness_NodeWindowLayout :
    twoLeaves.status.busy = false ∧ 510 < 511 ∧ twoLeaves.nodeAt 510 = none ∧
    twoLeaves.nodeAt 2 = some ⟨5#32, false, 0#8, 1#9, 0#9⟩ := by decide

theorem witness_BusyReadsAreUnspecified : (accept 0#32 start).status.busy = true := by decide

theorem witness_BusyWritesFault :
    ∃ s : State, s.status.busy = true ∧ s.script = .wr 0x0000000C#32 5#32 :: [] ∧ whoMoves s = some .host :=
  ⟨{ accept 0#32 start with script := [.wr 0x0000000C#32 5#32], sched := [.host] }, by decide, rfl, by decide⟩

theorem witness_NarrowAccessesRefused :
    Script.wellFormed [.wait] = true ∧ Script.wellFormed [.narrowWrite 0x8#32 1 5#32] = false ∧
    whoMoves { start with script := [.narrowRead 0x8#32 1 "x"] } = some .host ∧
    whoMoves { start with script := [.narrowWrite 0x8#32 3 5#32] } = some .host := by decide

theorem witness_ReadsHaveNoSideEffect :
    ∃ s : State, s.script = .rd 0x10000000#32 "x" :: [] ∧ whoMoves s = some .host ∧ s.status.busy = true :=
  ⟨{ accept 0#32 start with script := [.rd 0x10000000#32 "x"], sched := [.host] }, rfl, by decide, by decide⟩

/-- A grid of 2 by 3 pixels with 3 channels: its first and its last component. -/
theorem witness_FlatteningIsInvertible :
    (0 < 2 ∧ 0 < 3 ∧ flattenIndex 3 3 0 0 0 = 0) ∧ flattenIndex 3 3 1 2 2 = 17 ∧ 17 < 2 * 3 * 3 := by decide

theorem witness_ShapeCheckComesFirst :
    start.shapeH.toNat * start.shapeW.toNat * start.shapeC.toNat = 0 ∧
    ∃ s : State, s.params.nMax + 1 = s.shapeH.toNat * s.shapeW.toNat * s.shapeC.toNat :=
  ⟨by decide, { start with shapeH := 13#32, shapeW := 1#32, shapeC := 1#32 }, by decide⟩

/-- Three symbols are written of four; and PACK's extra hypothesis is met where both have codes. -/
theorem witness_UnwrittenOperandFaults :
    ∃ s : State, 1 ≤ gridSize s ∧ gridSize s ≤ s.params.nMax ∧ 3 < gridSize s ∧ s.symAt 3 = none ∧
      (∀ j < 3, s.symAt j ≠ none) ∧ ∀ j < 3, ∀ v, s.symAt j = some v → s.codeLenAt v.toNat ≠ 0#8 := by
  refine ⟨withCodes rowA { gridOf [10, 20, 30] with shapeH := 4#32 }, by decide, by decide, by decide, by decide +kernel,
    by decide +kernel, fun j hj v hv => ?_⟩
  interval_cases j <;> cases hv <;> decide +kernel

theorem witness_FreqCountCounts :
    GridLoaded (gridOf nine) nine ∧ gridSize start = 0 ∧
    ∃ s : State, s.params.nMax < gridSize s :=
  ⟨gridLoaded_nine, by decide, { start with shapeH := 13#32, shapeW := 1#32, shapeC := 1#32 }, by decide⟩

theorem witness_FreqCountTotals :
    (gridOf nine).params.legal = true ∧ GridLoaded (gridOf nine) nine ∧ ∃ t, exec .freqCount (gridOf nine) = .next t ∧
      (t.freqAt 10 == 5#32) = true :=
  ⟨by decide, gridLoaded_nine, exists_next_of_nextOf _ (by decide +kernel)⟩

/-- Two states with the same SHAPE and SYM and another FREQ. -/
theorem witness_FreqCountHasNoHistory :
    ∃ s s' : State, s'.shapeH = s.shapeH ∧ s'.shapeW = s.shapeW ∧ s'.shapeC = s.shapeC ∧
      (∀ k < gridSize s, s'.symAt k = s.symAt k) ∧ 1 ≤ gridSize s ∧ gridSize s ≤ s.params.nMax ∧
      gridSize s ≤ s'.params.nMax ∧ s ≠ s' ∧ (nextOf (exec .freqCount s)).isSome = true ∧
      (nextOf (exec .freqCount s')).isSome = true :=
  ⟨gridOf nine, withFreq [(9, 77#32)] (gridOf nine), rfl, rfl, rfl, by decide +kernel, by decide, by decide, by decide,
    by decide +kernel, by decide +kernel, by decide +kernel⟩

theorem witness_RleEncodeEmitsMaximalRuns :
    (gridOf nine).params.legal = true ∧ GridLoaded (gridOf nine) nine ∧ gridSize start = 0 ∧
    ∃ s : State, s.params.nMax < gridSize s :=
  ⟨by decide, gridLoaded_nine, by decide, { start with shapeH := 13#32, shapeW := 1#32, shapeC := 1#32 }, by decide⟩

theorem holdsTokens_example :
    HoldsTokens (tokensOf 5#32 [(4#8, 2#32), (4#8, 3#32)]) [(4#8, 2#32), (4#8, 3#32)] :=
  ⟨by decide, by decide, by decide⟩

/-- A good decode; a run of 0; a wrong sum; no token at all; RLE_COUNT at RLE_MAX + 1. -/
theorem witness_RleDecodeExpandsTokens :
    (∃ ts, HoldsTokens (tokensOf 5#32 ts) ts ∧ (∀ x ∈ ts, 1 ≤ x.2.toNat) ∧
      runSum ts = gridSize (tokensOf 5#32 ts) ∧ (tokensOf 5#32 ts).rleCount.toNat ≤ small.rleMax ∧
      1 ≤ gridSize (tokensOf 5#32 ts) ∧ gridSize (tokensOf 5#32 ts) ≤ small.nMax) ∧
    (∃ runs : List Word, runs = [5#32, 0#32] ∧ (∃ r ∈ runs, r = 0#32) ∧
      ∀ k, ∀ h : k < runs.length, (tokensOf 5#32 [(4#8, 5#32), (3#8, 0#32)]).rleRunAt k = some runs[k]) ∧
    (∃ runs : List Word, runs = [4#32] ∧ (runs.map BitVec.toNat).sum ≠ gridSize (tokensOf 5#32 [(4#8, 4#32)]) ∧
      ∀ k, ∀ h : k < runs.length, (tokensOf 5#32 [(4#8, 4#32)]).rleRunAt k = some runs[k]) ∧
    (([] : List Word).map BitVec.toNat).sum ≠ gridSize (tokensOf 5#32 []) ∧
    ∃ s : State, s.rleCount.toNat = s.params.rleMax + 1 ∧ 1 ≤ gridSize s ∧ gridSize s ≤ s.params.nMax :=
  ⟨⟨_, holdsTokens_example, by simp, by decide, by decide, by decide, by decide⟩,
   ⟨_, rfl, ⟨0#32, by simp, rfl⟩, by decide⟩, ⟨_, rfl, by decide, by decide⟩, by decide,
   { tokensOf 5#32 [] with rleCount := 13#32 }, by decide, by decide, by decide⟩

theorem witness_RleRoundTrip :
    (gridOf nine).params.legal = true ∧ GridLoaded (gridOf nine) nine ∧
    ∃ t, exec .rleEncode (gridOf nine) = .next t ∧ (t.rleCount == 3#32) = true :=
  ⟨by decide, gridLoaded_nine, exists_next_of_nextOf _ (by decide +kernel)⟩

/-- The sums 0, 2^32 - 1 and 2^32. -/
theorem witness_TreeBuildChecksTheSum :
    frequencySum start = 0 ∧ frequencySum (withFreq [(5, 0xFFFFFFFF#32)] start) = 0xFFFFFFFF ∧
    0xFFFFFFFF < frequencySum (withFreq [(5, 0xFFFFFFFF#32), (6, 1#32)] start) ∧
    (gridOf nine).params.legal = true ∧ GridLoaded (gridOf nine) nine ∧
    (nextOf (exec .freqCount (gridOf nine))).isSome = true :=
  ⟨by decide +kernel, by decide +kernel, by decide +kernel, by decide, gridLoaded_nine, by decide +kernel⟩

/-- The greatest sum that is accepted, over two symbols and over one. -/
theorem witness_TreeBuildMakesTheTree :
    ∀ s ∈ [withFreq [(5, 0xFFFFFFFE#32), (6, 1#32)] start, withFreq [(5, 0xFFFFFFFF#32)] start,
        withFreq [(42, 1#32)] start], 0 < frequencySum s ∧ frequencySum s ≤ 0xFFFFFFFF := by decide +kernel

theorem witness_MergesTakeTheTwoLeastKeys :
    ∃ (s t : State) (id : Nat) (n : NodeEntry), 0 < frequencySum s ∧ frequencySum s ≤ 0xFFFFFFFF ∧
      exec .treeBuild s = .next t ∧ t.leafCount.toNat ≤ id ∧ id < t.nodeCount.toNat ∧ t.nodeAt id = some n := by
  obtain ⟨t, ht, hp⟩ := exists_next_of_nextOf
    (o := exec .treeBuild (withFreq [(1, 2#32), (2, 1#32), (3, 4#32), (5, 1#32)] start))
    (fun t => decide (t.leafCount.toNat ≤ 5 ∧ 5 < t.nodeCount.toNat ∧ t.nodeAt 5 = some ⟨4#32, false, 0#8, 0#9, 4#9⟩))
    (by decide +kernel)
  obtain ⟨h1, h2, h3⟩ := of_decide_eq_true hp
  exact ⟨_, t, 5, _, by decide +kernel, by decide +kernel, ht, h1, h2, h3⟩

theorem witness_OneSymbolMakesALeafRoot :
    (withFreq [(42, 1#32)] start).freqAt (42#8).toNat ≠ 0#32 ∧
    ∀ w : Byte, w ≠ 42#8 → (withFreq [(42, 1#32)] start).freqAt w.toNat = 0#32 := by
  refine ⟨by decide +kernel, fun w hw => ?_⟩
  have h : ∀ k < 256, k ≠ 42 → (withFreq [(42, 1#32)] start).freqAt k = 0#32 := by decide +kernel
  exact h w.toNat w.isLt fun e => hw (BitVec.eq_of_toNat_eq e)

/-- Two states with the same FREQ and different other state. -/
theorem witness_TreeDependsOnFrequenciesAlone :
    ∃ s s' : State, (∀ v < 256, s'.freqAt v = s.freqAt v) ∧ 0 < frequencySum s ∧ frequencySum s ≤ 0xFFFFFFFF ∧ s ≠ s' ∧
      (nextOf (exec .treeBuild s)).isSome = true ∧ (nextOf (exec .treeBuild s')).isSome = true :=
  ⟨withFreq [(1, 2#32), (2, 1#32)] start, withFreq [(1, 2#32), (2, 1#32)] twoLeaves, by decide +kernel,
    by decide +kernel, by decide +kernel, by decide +kernel, by decide +kernel, by decide +kernel⟩

theorem witness_CodeGenNeedsATree : start.nodeCount = 0#10 := by decide

/-- Both kinds of tree: k = 2 and k = 1; and a symbol with no leaf. -/
theorem witness_CodesAreRootToLeafPaths :
    (Inv twoLeaves ∧ twoLeaves.nodeCount ≠ 0#10 ∧ twoLeaves.leafCount ≠ 1#9) ∧
    (Inv oneLeaf ∧ oneLeaf.nodeCount ≠ 0#10 ∧ oneLeaf.leafCount = 1#9) ∧ ¬ hasLeaf oneLeaf 7#8 := by
  refine ⟨⟨inv_twoLeaves.1, by decide, by decide⟩, ⟨inv_oneLeaf.1, by decide, by decide⟩, ?_⟩
  rintro ⟨id, n, hid, hn, hv⟩
  have : id = 0 := by
    have : (oneLeaf.leafCount).toNat = 1 := by decide
    omega
  subst this
  cases hn
  exact absurd hv (by decide)

theorem witness_CodeTableIsPrefixFree :
    (Inv twoLeaves ∧ twoLeaves.nodeCount ≠ 0#10 ∧ 2 ≤ twoLeaves.leafCount.toNat ∧
      ∃ t, exec .codeGen twoLeaves = .next t ∧ (t.codeLenAt 1 == 1#8) = true) ∧
    Inv oneLeaf ∧ oneLeaf.nodeCount ≠ 0#10 ∧ oneLeaf.leafCount.toNat = 1 ∧
      ∃ t, exec .codeGen oneLeaf = .next t ∧ (t.codeLenAt 42 == 1#8) = true :=
  ⟨⟨inv_twoLeaves.1, inv_twoLeaves.2.1, inv_twoLeaves.2.2, exists_next_of_nextOf _ (by decide +kernel)⟩,
   inv_oneLeaf.1, inv_oneLeaf.2.1, inv_oneLeaf.2.2, exists_next_of_nextOf _ (by decide +kernel)⟩

/-- A stream that fits; a symbol without a code; the longest stream that fits OUT_MAX = 14 and one byte more. -/
theorem witness_PackWritesTheStream :
    GridLoaded (gridOf nine) nine ∧ (∀ v ∈ nine, (withCodes rowA (gridOf nine)).codeLenAt v.toNat ≠ 0#8) ∧
    (∃ v ∈ nine, (gridOf nine).codeLenAt v.toNat = 0#8) ∧
    2 + ((nine.map (codeOf (withCodes rowA (gridOf nine)).mem)).flatten).length / 8 ≤ small.outMax ∧
    (∃ s : State, 2 + (([42#8].map (codeOf s.mem)).flatten).length / 8 = s.params.outMax) ∧
    ∃ s : State, 2 + (([42#8].map (codeOf s.mem)).flatten).length / 8 = s.params.outMax + 1 :=
  ⟨gridLoaded_nine, by decide +kernel, by decide +kernel, by decide +kernel,
   ⟨withCodes [(42, 96#8, 0#32)] (gridOf [42]), by decide +kernel⟩,
   withCodes [(42, 104#8, 0#32)] (gridOf [42]), by decide +kernel⟩

/-- The small machine with the codes 1 ↦ "1" and 2 ↦ "0", N = 2, and the stream of [1, 2] packed in OUT: the bits "10" and
six zeros of padding. -/
def packedPair : State :=
  withCodes [(1, 1#8, 0x80000000#32), (2, 1#8, 0#32)] (packedOf 2#32 [0x06#8, 0x80#8])

theorem packedPair_codes (a : Byte) (h : Sparse.read packedPair.mem.codeLen a.toNat ≠ 0#8) : a = 1#8 ∨ a = 2#8 := by
  have key : ∀ a < 256, Sparse.read packedPair.mem.codeLen a ≠ 0#8 → a = 1 ∨ a = 2 := by decide +kernel
  rcases key a.toNat a.isLt h with e | e
  · exact .inl (BitVec.eq_of_toNat_eq e)
  · exact .inr (BitVec.eq_of_toNat_eq e)

theorem packedPair_prefixFree : PrefixFree packedPair.mem := by
  have h : ¬ codeOf packedPair.mem 1#8 <+: codeOf packedPair.mem 2#8 ∧
      ¬ codeOf packedPair.mem 2#8 <+: codeOf packedPair.mem 1#8 := by decide +kernel
  intro a b hab ha hb
  rcases packedPair_codes a ha with rfl | rfl <;> rcases packedPair_codes b hb with rfl | rfl
  · exact absurd rfl hab
  · exact h.1
  · exact h.2
  · exact absurd rfl hab

/-- A prefix-free table with data that begins with a code of it. -/
theorem witness_MatchFindsTheShortestCode :
    ∃ m : Memory, PrefixFree m ∧ Sparse.read m.codeLen (1#8).toNat ≠ 0#8 ∧ [true, false] = codeOf m 1#8 ++ [false] :=
  ⟨_, packedPair_prefixFree, by decide +kernel, by decide +kernel⟩

theorem packedPair_isMatch (v : Byte) (data rest : Bits) (hv : Sparse.read packedPair.mem.codeLen v.toNat ≠ 0#8)
    (hd : data = codeOf packedPair.mem v ++ rest)
    (h1 : (codeOf packedPair.mem 1#8 <+: data) → v = 1#8) (h2 : (codeOf packedPair.mem 2#8 <+: data) → v = 2#8) :
    IsMatch packedPair.mem data v rest := by
  refine ⟨hv, hd, fun w hw hp => .inr ?_⟩
  rcases packedPair_codes w hw with rfl | rfl
  · rw [h1 hp]; exact ⟨rfl, le_rfl⟩
  · rw [h2 hp]; exact ⟨rfl, le_rfl⟩

/-- The good case, with every hypothesis on it. -/
theorem witness_UnpackDecodesOrMismatches :
    1 ≤ gridSize packedPair ∧ gridSize packedPair ≤ packedPair.params.nMax ∧
    packedPair.outLen.toNat ≤ packedPair.params.outMax ∧ HoldsBytes packedPair [0x06#8, 0x80#8] ∧
    (0x06#8).toNat ≤ 8 ∧ (0x06#8).toNat ≤ 8 * [0x80#8].length ∧ [1#8, 2#8].length = gridSize packedPair ∧
    Decodes packedPair.mem [1#8, 2#8] (dataBits [0x06#8, 0x80#8] (0x06#8).toNat) := by
  refine ⟨by decide, by decide, by decide, ⟨by decide, by decide +kernel⟩, by decide, by decide, by decide, ?_⟩
  have hd : dataBits [0x06#8, 0x80#8] (0x06#8).toNat = [true, false] := by decide +kernel
  rw [hd]
  exact ⟨[false], packedPair_isMatch 1#8 _ _ (by decide +kernel) (by decide +kernel) (fun _ => rfl)
      (fun h => absurd h (by decide +kernel)), [],
    packedPair_isMatch 2#8 _ _ (by decide +kernel) (by decide +kernel) (fun h => absurd h (by decide +kernel))
      (fun _ => rfl), rfl⟩

/-- The mismatch cases: OUT_LEN = 0; OUT_LEN = OUT_MAX + 1; a header of 9; a header of 8 with no data byte; and with no
code at all, data that do not decode. -/
theorem witness_UnpackDecodesOrMismatches_mismatch :
    (packedOf 1#32 []).outLen = 0#32 ∧
    (∃ s : State, 1 ≤ gridSize s ∧ gridSize s ≤ s.params.nMax ∧ s.outLen.toNat = s.params.outMax + 1) ∧
    (HoldsBytes (packedOf 1#32 [0x09#8, 0#8, 0#8]) [0x09#8, 0#8, 0#8] ∧ 8 < (0x09#8).toNat) ∧
    (HoldsBytes (packedOf 1#32 [0x08#8]) [0x08#8] ∧ 8 * ([] : List Byte).length < (0x08#8).toNat) ∧
    HoldsBytes (packedOf 1#32 [0x07#8, 0x80#8]) [0x07#8, 0x80#8] ∧
    ∀ syms, syms.length = gridSize (packedOf 1#32 [0x07#8, 0x80#8]) →
      ¬ Decodes (packedOf 1#32 [0x07#8, 0x80#8]).mem syms (dataBits [0x07#8, 0x80#8] (0x07#8).toNat) := by
  refine ⟨by decide, ⟨{ packedOf 1#32 [] with outLen := 15#32 }, by decide, by decide, by decide⟩,
    ⟨⟨by decide, by decide +kernel⟩, by decide⟩, ⟨⟨by decide, by decide +kernel⟩, by decide⟩,
    ⟨by decide, by decide +kernel⟩, fun syms hs => ?_⟩
  match syms, hs with
  | [], hs => exact absurd hs (by decide)
  | v :: _, _ => rintro ⟨_, ⟨hv, -⟩, -⟩; exact hv rfl

theorem huffEncode_nine :
    ∃ t, exec .huffEncode (gridOf nine) = .next t ∧ (t.outLen == 3#32 && !t.status.err) = true :=
  exists_next_of_nextOf _ (by decide +kernel)

theorem fourCommands_nine :
    ∃ s1, exec .freqCount (gridOf nine) = .next s1 ∧ s1.status.err = false ∧ ∃ s2, exec .treeBuild s1 = .next s2 ∧
      s2.status.err = false ∧ ∃ s3, exec .codeGen s2 = .next s3 ∧ s3.status.err = false ∧
      ∃ s4, exec .pack s3 = .next s4 ∧ (s4.outLen == 3#32 && !s4.status.err) = true := by
  obtain ⟨s1, h1, p1⟩ := exists_next_of_nextOf (o := exec .freqCount (gridOf nine))
    (fun s1 => !s1.status.err && (nextOf (exec .treeBuild s1)).any fun s2 => !s2.status.err &&
      (nextOf (exec .codeGen s2)).any fun s3 => !s3.status.err &&
        (nextOf (exec .pack s3)).any fun s4 => s4.outLen == 3#32 && !s4.status.err) (by decide +kernel)
  simp only [Bool.and_eq_true, Bool.not_eq_true'] at p1
  obtain ⟨s2, h2, p2⟩ := exists_next_of_nextOf _ p1.2
  simp only [Bool.and_eq_true, Bool.not_eq_true'] at p2
  obtain ⟨s3, h3, p3⟩ := exists_next_of_nextOf _ p2.2
  simp only [Bool.and_eq_true, Bool.not_eq_true'] at p3
  obtain ⟨s4, h4, p4⟩ := exists_next_of_nextOf _ p3.2
  exact ⟨s1, h1, p1.1, s2, h2, p2.1, s3, h3, p3.1, s4, h4, p4⟩

/-- The grid [42] with the degenerate code 42 ↦ "0" of R172. -/
def oneCode : State := withCodes [(42, 1#8, 0#32)] (gridOf [42])

/-- Both ways to encode, HUFF_ENCODE and the single commands; the state that UNPACK runs in can be the one left. -/
theorem witness_HuffmanRoundTrip :
    (gridOf nine).params.legal = true ∧ (gridOf nine).status.err = false ∧ GridLoaded (gridOf nine) nine ∧
    (∃ t, exec .huffEncode (gridOf nine) = .next t ∧ t.status.err = false) ∧
    (∃ s : State, s.params.legal = true ∧ s.status.err = false ∧ GridLoaded s [42] ∧
      ∃ s0 s1 s2 s3 t, GridLoaded s0 [42] ∧ exec .freqCount s0 = .next s1 ∧ exec .treeBuild s1 = .next s2 ∧
        exec .codeGen s2 = .next s3 ∧ (∀ v < 256, s.codeLenAt v = s3.codeLenAt v ∧ s.codeBitsAt v = s3.codeBitsAt v) ∧
        exec .pack s = .next t ∧ t.status.err = false) := by
  obtain ⟨t, ht, hp⟩ := huffEncode_nine
  simp only [Bool.and_eq_true, Bool.not_eq_true'] at hp
  obtain ⟨s1, h1, p1⟩ := exists_next_of_nextOf (o := exec .freqCount (gridOf [42]))
    (fun s1 : State => (nextOf (exec .treeBuild s1)).any fun s2 : State => (nextOf (exec .codeGen s2)).any fun s3 : State =>
      (List.range 256).all fun v => oneCode.codeLenAt v == s3.codeLenAt v && oneCode.codeBitsAt v == s3.codeBitsAt v)
    (by decide +kernel)
  obtain ⟨s2, h2, p2⟩ := exists_next_of_nextOf _ p1
  obtain ⟨s3, h3, p3⟩ := exists_next_of_nextOf _ p2
  obtain ⟨u, hu, pu⟩ := exists_next_of_nextOf (o := exec .pack oneCode)
    (fun u : State => !u.status.err) (by decide +kernel)
  exact ⟨by decide, by decide, gridLoaded_nine, ⟨t, ht, hp.2⟩, oneCode, by decide +kernel,
    by decide +kernel, ⟨by decide +kernel, by decide +kernel, by decide +kernel, by decide +kernel⟩, gridOf [42], s1, s2, s3, u,
    gridLoaded_ends.1, h1, h2, h3, by simpa using p3, hu, by simpa using pu⟩

/-- A FREQ_COUNT that fails, and the four commands one after the other without an error. -/
theorem witness_HuffEncodeIsTheFourCommands :
    (start.status.err = false ∧ ∃ s1, exec .freqCount start = .next s1 ∧ s1.status.err = true) ∧
    (gridOf nine).status.err = false ∧
    ∃ s1, exec .freqCount (gridOf nine) = .next s1 ∧ s1.status.err = false ∧ ∃ s2, exec .treeBuild s1 = .next s2 ∧
      s2.status.err = false ∧ ∃ s3, exec .codeGen s2 = .next s3 ∧ s3.status.err = false ∧
      ∃ s4, exec .pack s3 = .next s4 := by
  obtain ⟨s1, h1, e1, s2, h2, e2, s3, h3, e3, s4, h4, -⟩ := fourCommands_nine
  exact ⟨⟨by decide, exists_next_of_nextOf _ (by decide +kernel)⟩, by decide, s1, h1, e1, s2, h2, e2, s3, h3, e3, s4, h4⟩

/-- A stream that fits, and an OUT_MAX of 2 that a stream of three bytes does not fit. -/
theorem witness_HuffEncodeLeavesTheBlock :
    ((gridOf nine).params.nMax ≤ 2 ^ 24 ∧ GridLoaded (gridOf nine) nine ∧
      ∃ t, exec .huffEncode (gridOf nine) = .next t ∧
        decide (2 + ((nine.map (codeOf t.mem)).flatten).length / 8 ≤ (gridOf nine).params.outMax) = true) ∧
    ∃ s : State, s.params.nMax ≤ 2 ^ 24 ∧ GridLoaded s nine ∧ ∃ t, exec .huffEncode s = .next t ∧
      decide (s.params.outMax < 2 + ((nine.map (codeOf t.mem)).flatten).length / 8) = true :=
  ⟨⟨by decide, gridLoaded_nine, exists_next_of_nextOf _ (by decide +kernel)⟩,
   { gridOf nine with params := ⟨12, 2, 12⟩ }, by decide,
   ⟨by decide +kernel, by decide +kernel, by decide +kernel, by decide +kernel⟩,
   exists_next_of_nextOf _ (by decide +kernel)⟩

theorem witness_HuffEncodeCannotFail :
    (gridOf nine).params.legal = true ∧ (gridOf nine).status.err = false ∧ GridLoaded (gridOf nine) nine :=
  ⟨by decide, by decide, gridLoaded_nine⟩

theorem witness_RatioBounds :
    0 < 100 ∧ 0 < 14 ∧ (withCodes rowA (gridOf nine)).params.legal = true ∧
    (withCodes rowA (gridOf nine)).status.err = false ∧
    (∃ t, exec .pack (withCodes rowA (gridOf nine)) = .next t ∧ (!t.status.err) = true) ∧
    ∃ t, exec .rleEncode (withCodes rowA (gridOf nine)) = .next t ∧ (!t.status.err) = true :=
  ⟨by decide, by decide, by decide, by decide, exists_next_of_nextOf _ (by decide +kernel),
    exists_next_of_nextOf _ (by decide +kernel)⟩

/-- 95_test_vectors.md 2.13: the ratio of scenarios 2, 3 (with a table of 10 bytes) and 6. -/
theorem test_ratio : ratio 5 10 = -100 ∧ ratio 100 24 = 76 ∧ ratio 0 7 = 0 := by
  refine ⟨?_, ?_, ?_⟩ <;> norm_num [ratio]

end Sys2Proof.Tests
end

section
/-! PROOFS. The host port: where an address leads, what a register reads and stores, and the layouts of the CODE and
NODE windows (10_state.md R22 to R44, 20_memory.md R61 to R66). -/

namespace Sys2Proof.Proofs

open Sys2Proof.Machine

/-! ### Access to a resolved address (R64, R65) -/

section Access
variable {s : State} {a : Word} {t : Target}

theorem portRead_of_resolve (d : Word) (h : resolve s.params a = some t)
    (hb : s.status.busy = false ∨ readableWhileBusy t = true) : portRead s a d = targetWord s d t := by
  rcases hb with hb | hb <;> simp [portRead, h, hb]

theorem portRead_of_unresolved (d : Word) (h : resolve s.params a = none) (hb : s.status.busy = false) :
    portRead s a d = 0#32 := by
  simp [portRead, h, hb]

theorem portWrite_of_resolve (v : Word) (h : resolve s.params a = some t) (hb : s.status.busy = false) :
    portWrite s a v = writeTarget s v t := by
  simp [portWrite, h, hb]

theorem portWrite_of_unresolved (v : Word) (h : resolve s.params a = none) : portWrite s a v = s := by
  simp [portWrite, h]

theorem portWrite_of_busy (a v : Word) (hb : s.status.busy = true) : portWrite s a v = s := by
  simp [portWrite, hb]

end Access

/-! ### The register map -/

theorem resolve_regAddr (p : Params) (r : Reg) : resolve p (regAddr r) = some (.reg r) := by
  cases r <;> rfl

theorem portRead_regAddr {s : State} (d : Word) (r : Reg)
    (hb : s.status.busy = false ∨ readableWhileBusy (.reg r) = true) : portRead s (regAddr r) d = regWord s r :=
  portRead_of_resolve d (resolve_regAddr _ r) hb

theorem portWrite_regAddr {s : State} (v : Word) (r : Reg) (hb : s.status.busy = false) :
    portWrite s (regAddr r) v = writeReg s v r :=
  portWrite_of_resolve v (resolve_regAddr _ r) hb

/-- A register that ignores writes while BUSY = 0 ignores them always (R65). -/
theorem portWrite_readOnly {s : State} (v : Word) (r : Reg) (hr : writeReg s v r = s) :
    portWrite s (regAddr r) v = s := by
  cases hb : s.status.busy with
  | true => exact portWrite_of_busy _ _ hb
  | false => rw [portWrite_regAddr v r hb, hr]

/-- Settles O5: the address of CMD leads to CMD, whose write is the acceptance of the word (R258). -/
theorem cmdWriteSubmits : Obligations.CmdWriteSubmits :=
  fun s c => ⟨fun hb => portWrite_regAddr (s := s) c .cmd hb, fun hb => portWrite_of_busy (s := s) _ c hb⟩

/-- The STATUS word, bit by bit (R24). -/
theorem getLsbD_statusWord (st : Status) (k : Nat) : st.word.getLsbD k =
    if k = 0 then st.busy else if k = 1 then st.done else if k = 2 then st.err else if k = 3 then false
    else if k < 8 then st.errCode.getLsbD (k - 4) else st.lastOp.getLsbD (k - 8) := by
  unfold Status.word
  simp only [BitVec.getLsbD_append, BitVec.getLsbD_ofBool]
  match k with
  | 0 => simp
  | 1 => simp
  | 2 => simp
  | 3 => simp
  | k + 4 =>
    have h8 : k + 4 < 8 ↔ k < 4 := by omega
    by_cases hk : k < 4
    · simp [hk, h8]
    · by_cases h : k - 4 < 8
      · simp [hk, h8, h]
      · simp [hk, h8, h, BitVec.getLsbD_of_ge _ _ (show 8 ≤ k - 4 by omega)]

/-- The fields of STATUS in their places (R24). -/
theorem statusWord_fields (st : Status) :
    st.word.getLsbD 0 = st.busy ∧ st.word.getLsbD 1 = st.done ∧ st.word.getLsbD 2 = st.err ∧
    st.word.extractLsb' 4 4 = st.errCode ∧ st.word.extractLsb' 8 8 = st.lastOp ∧
    ∀ k, k = 3 ∨ 16 ≤ k → st.word.getLsbD k = false := by
  have bit := getLsbD_statusWord st
  refine ⟨bit 0, bit 1, bit 2, ?_, ?_, ?_⟩
  · ext k hk
    rw [BitVec.getElem_extractLsb', bit, if_neg (by omega), if_neg (by omega), if_neg (by omega), if_neg (by omega),
      if_pos (by omega), Nat.add_sub_cancel_left]
    exact BitVec.getLsbD_eq_getElem hk
  · ext k hk
    rw [BitVec.getElem_extractLsb', bit, if_neg (by omega), if_neg (by omega), if_neg (by omega), if_neg (by omega),
      if_neg (by omega), Nat.add_sub_cancel_left]
    exact BitVec.getLsbD_eq_getElem hk
  · rintro k (rfl | hk)
    · exact bit 3
    · rw [bit, if_neg (by omega), if_neg (by omega), if_neg (by omega), if_neg (by omega), if_neg (by omega)]
      exact BitVec.getLsbD_of_ge _ _ (by omega)

/-- Settles O17: each register is reached at its own address, and the rest is what the register map says of it. -/
theorem registerMapAccess : Obligations.RegisterMapAccess := by
  intro s d v
  refine ⟨portRead_regAddr d .id (.inr rfl), portRead_regAddr d .capN (.inr rfl), portRead_regAddr d .capOut (.inr rfl),
    portRead_regAddr d .capRle (.inr rfl), ?_, ?_, fun hb => ?_⟩
  · rw [show portRead s 0x08#32 d = s.status.word from portRead_regAddr d .status (.inr rfl)]
    exact statusWord_fields s.status
  · have readOnly : ∀ r ∈ [Reg.id, .status, .n, .leafCount, .nodeCount, .root, .maxCodeLen, .totalBits, .padding,
        .decCount, .capN, .capOut, .capRle], portWrite s (regAddr r) v = s := by
      intro r hr
      refine portWrite_readOnly v r ?_
      fin_cases hr <;> rfl
    exact List.forall_mem_map (f := regAddr) (P := fun a => portWrite s a v = s) |>.mpr readOnly
  · have read := fun r => portRead_regAddr (s := s) d r (.inl hb)
    have write := fun r => portWrite_regAddr (s := s) v r hb
    exact ⟨read .cmd, read .shapeH, read .shapeW, read .shapeC, read .n, read .leafCount, read .nodeCount, read .root,
      read .maxCodeLen, read .totalBits, read .padding, read .outLen, read .rleCount, read .decCount, write .shapeH,
      write .shapeW, write .shapeC, write .outLen, write .rleCount⟩

/-! ### Address decoding (R61 to R63) -/

theorem regOffset_of_regAt {o : Nat} {r : Reg} (h : regAt o = some r) : o = regOffset r := by
  unfold regAt at h
  split at h <;> cases h <;> rfl

/-- An address is its region and its byte offset within it (R61). -/
theorem toNat_eq_region_offset (a : Word) : a.toNat = addrRegion a * 2 ^ 28 + addrOffset a := by
  simp only [addrRegion, addrOffset, BitVec.extractLsb'_toNat, Nat.shiftRight_eq_div_pow]
  omega

/-- What is known of a target that an address leads to: an element exists (R10, R11, R63), and a register is led to by
its own address alone. -/
def Reaches (p : Params) (a : Word) : Target → Prop
  | .reg r => a = regAddr r
  | .sym i => i < p.nMax
  | .freq v => v < 256
  | .node id w => id < 511 ∧ w < 4
  | .codeLen v => v < 256
  | .codeBits v j => v < 256 ∧ j < 8
  | .out j => j < p.outMax
  | .rleSym t => t < p.rleMax
  | .rleRun t => t < p.rleMax
  | .dec i => i < p.nMax

/-- An address in region 0 at the offset of a register is that register's address (R61, R97). -/
theorem eq_regAddr {a : Word} {r : Reg} (hr : addrRegion a = 0) (ho : regAt (addrOffset a) = some r) :
    a = regAddr r := by
  have ha := toNat_eq_region_offset a
  rw [hr, regOffset_of_regAt ho] at ha
  refine BitVec.eq_of_toNat_eq (ha.trans ?_)
  cases r <;> rfl

theorem reaches_of_resolve {p : Params} {a : Word} {t : Target} (h : resolve p a = some t) : Reaches p a t := by
  unfold resolve at h
  dsimp only at h
  split at h
  · cases h
  split at h
  · next hr =>
    obtain ⟨r, ho, rfl⟩ := Option.map_eq_some_iff.mp h
    exact eq_regAddr hr ho
  · obtain ⟨hi, ⟨⟩⟩ := Option.ite_none_right_eq_some.mp h
    exact hi
  · obtain ⟨hi, ⟨⟩⟩ := Option.ite_none_right_eq_some.mp h
    exact hi
  · obtain ⟨hi, ⟨⟩⟩ := Option.ite_none_right_eq_some.mp h
    exact ⟨by omega, by omega⟩
  · split_ifs at h with h1 h2 h3 <;> cases h
    · exact show addrIndex a / 16 < 256 by omega
    · exact ⟨by omega, by omega⟩
  · obtain ⟨hi, ⟨⟩⟩ := Option.ite_none_right_eq_some.mp h
    exact hi
  · split_ifs at h with h1 h2 <;> cases h <;> exact show addrIndex a / 2 < p.rleMax by omega
  · obtain ⟨hi, ⟨⟩⟩ := Option.ite_none_right_eq_some.mp h
    exact hi
  · cases h

theorem toNat_windowAddr {r i : Nat} (hr : r < 16) (hi : i < 2 ^ 26) : (windowAddr r i).toNat = r * 2 ^ 28 + 4 * i := by
  rw [windowAddr, BitVec.toNat_ofNat]
  exact Nat.mod_eq_of_lt (by omega)

/-- The fields of a window address (R61). -/
theorem windowAddr_fields {r i : Nat} (hr : r < 16) (hi : i < 2 ^ 26) :
    addrAlign (windowAddr r i) = 0#2 ∧ addrRegion (windowAddr r i) = r ∧ addrIndex (windowAddr r i) = i := by
  have h := toNat_windowAddr hr hi
  simp only [Nat.reducePow] at h hi
  refine ⟨BitVec.eq_of_toNat_eq ?_, ?_, ?_⟩
  · rw [addrAlign, BitVec.extractLsb'_toNat, h, Nat.shiftRight_eq_div_pow]
    show _ = 0
    omega
  · rw [addrRegion, BitVec.extractLsb'_toNat, h, Nat.shiftRight_eq_div_pow]
    omega
  · rw [addrIndex, BitVec.extractLsb'_toNat, h, Nat.shiftRight_eq_div_pow]
    omega

/-! ### The CODE window (R44) -/

theorem resolve_codeAddr (p : Params) {v w : Nat} (hv : v < 256) (hw : w < 16) :
    resolve p (codeAddr v w) =
      if w = 0 then some (.codeLen v) else if w ≤ 8 then some (.codeBits v (w - 1)) else none := by
  obtain ⟨ha, hr, hi⟩ := windowAddr_fields (r := 4) (i := 16 * v + w) (by omega) (by omega)
  have hle : ¬ 4096 ≤ 16 * v + w := by omega
  have hmod : (16 * v + w) % 16 = w := by omega
  have hdiv : (16 * v + w) / 16 = v := by omega
  simp [resolve, codeAddr, ha, hr, hi, hle, hmod, hdiv]

/-- Where the window shows code bit `k` (R44). -/
theorem getMsbD_eq_cellWord (c : CodeCells) {k : Nat} (hk : k < 256) :
    (cellWord c (k / 32)).getLsbD (31 - k % 32) = c.getMsbD k := by
  have hbit : 224 - 32 * (k / 32) + (31 - k % 32) = 255 - k := by omega
  have hlt : 31 - k % 32 < 32 := by omega
  rw [cellWord, BitVec.getLsbD_extractLsb', BitVec.getMsbD_eq_getLsbD, hbit, decide_eq_true hlt, decide_eq_true hk]

/-- Which code bits a write of a window word changes (R44). -/
theorem getMsbD_setCellWord (c : CodeCells) (v : Word) {j k : Nat} (hj : j < 8) (hk : k < 256) :
    (setCellWord c j v).getMsbD k = if k / 32 = j then v.getLsbD (31 - k % 32) else c.getMsbD k := by
  have hmask : ∀ i, (0xFFFFFFFF#256).getLsbD i = decide (i < 32) := by
    intro i
    have hones : (0xFFFFFFFF#256) = (BitVec.allOnes 32).setWidth 256 := rfl
    rw [hones, BitVec.getLsbD_setWidth, BitVec.getLsbD_allOnes]
    grind
  simp only [setCellWord, BitVec.getMsbD_eq_getLsbD, BitVec.getLsbD_or, BitVec.getLsbD_and, BitVec.getLsbD_not,
    BitVec.getLsbD_shiftLeft, BitVec.getLsbD_setWidth, hmask]
  have h1 : 256 - 1 - k < 256 := by omega
  by_cases h : k / 32 = j
  · have h2 : ¬ (256 - 1 - k < 224 - 32 * j) := by omega
    have h3 : 256 - 1 - k - (224 - 32 * j) = 31 - k % 32 := by omega
    have h4 : 31 - k % 32 < 32 := by omega
    have h5 : 31 - k % 32 < 256 := by omega
    simp [h, hk, h1, h2, h3, h4, h5]
  · have h2 : 256 - 1 - k < 224 - 32 * j ∨ 32 ≤ 256 - 1 - k - (224 - 32 * j) := by omega
    rcases h2 with h2 | h2
    · simp [h, hk, h1, h2]
    · simp [h, hk, h1, h2]

/-- Settles O21: each word of the window is a field of the symbol's CODE entry, and a code bit's place in it follows
R44. -/
theorem codeWindowLayout : Obligations.CodeWindowLayout := by
  intro s d v c hb hc
  have lenAt := resolve_codeAddr s.params hc (w := 0) (by omega)
  have bitsAt : ∀ w, 1 ≤ w → w ≤ 8 → resolve s.params (codeAddr c w) = some (.codeBits c (w - 1)) := by
    intro w h1 h8
    rw [resolve_codeAddr s.params hc (by omega), if_neg (by omega), if_pos h8]
  refine ⟨portRead_of_resolve d lenAt (.inl hb), fun k hk => ?_, fun w h9 h16 => ?_, ?_, fun w h1 h8 => ?_⟩
  · rw [portRead_of_resolve d (bitsAt (1 + k / 32) (by omega) (by omega)) (.inl hb), Nat.add_sub_cancel_left]
    exact getMsbD_eq_cellWord _ hk
  · have hnone : resolve s.params (codeAddr c w) = none := by
      rw [resolve_codeAddr s.params hc h16, if_neg (by omega), if_neg (by omega)]
    exact ⟨portRead_of_unresolved d hnone hb, portWrite_of_unresolved v hnone⟩
  · exact ⟨_, portWrite_of_resolve v lenAt hb, rfl, read_write _ _ _⟩
  · refine ⟨_, portWrite_of_resolve v (bitsAt w h1 h8) hb, rfl, fun j hj => ?_, fun k hk => ?_⟩
    · exact (read_write _ _ _ _).trans (if_neg hj)
    · have hself : (writeTarget s v (.codeBits c (w - 1))).codeBitsAt c = setCellWord (s.codeBitsAt c) (w - 1) v :=
        (read_write _ _ _ _).trans (if_pos rfl)
      rw [hself, getMsbD_setCellWord _ _ (by omega) hk]
      exact if_congr (by omega) rfl rfl

/-! ### The NODE window (R42) -/

theorem resolve_nodeAddr (p : Params) {id w : Nat} (hid : id < 511) (hw : w < 4) :
    resolve p (nodeAddr id w) = some (.node id w) := by
  obtain ⟨ha, hr, hi⟩ := windowAddr_fields (r := 3) (i := 4 * id + w) (by omega) (by omega)
  have hlt : 4 * id + w < 2044 := by omega
  have hmod : (4 * id + w) % 4 = w := by omega
  have hdiv : (4 * id + w) / 4 = id := by omega
  simp [resolve, nodeAddr, ha, hr, hi, hlt, hmod, hdiv]

/-- Word 1 of an entry, bit by bit. -/
theorem getLsbD_nodeWord_one (n : NodeEntry) (k : Nat) :
    (nodeWord n 1).getLsbD k = if k < 8 then n.symbol.getLsbD k else if k = 31 then n.isLeaf else false := by
  simp only [nodeWord, BitVec.getLsbD_append, BitVec.getLsbD_ofBool, BitVec.getLsbD_zero]
  by_cases h8 : k < 8
  · simp [h8]
  · by_cases h31 : k < 31
    · simp [h8, show k - 8 < 23 by omega, show k ≠ 31 by omega]
    · simp [h8, show ¬ k - 8 < 23 by omega, show k - 8 - 23 = 0 ↔ k = 31 by omega]

/-- The bits of word 1 of an entry that hold no field read 0. -/
theorem nodeWord_one_unused (n : NodeEntry) {k : Nat} (h8 : 8 ≤ k) (h31 : k < 31) :
    (nodeWord n 1).getLsbD k = false := by
  rw [getLsbD_nodeWord_one, if_neg (by omega), if_neg (by omega)]

/-- The fields of an entry's words. -/
theorem nodeWord_fields (n : NodeEntry) :
    nodeWord n 0 = n.freq ∧ (nodeWord n 1).getLsbD 31 = n.isLeaf ∧ (nodeWord n 1).setWidth 8 = n.symbol ∧
    nodeWord n 2 = n.left.setWidth 32 ∧ nodeWord n 3 = n.right.setWidth 32 := by
  refine ⟨rfl, getLsbD_nodeWord_one n 31, ?_, rfl, rfl⟩
  ext k hk
  rw [BitVec.getElem_setWidth, getLsbD_nodeWord_one, if_pos hk, BitVec.getLsbD_eq_getElem hk]

/-- Settles O22: a word of the window is a word of the entry, or of the free entry where it is UNSPECIFIED. -/
theorem nodeWindowLayout : Obligations.NodeWindowLayout := by
  intro s d id hb hid
  have hread : ∀ w < 4, portRead s (nodeAddr id w) d = nodeWord ((s.nodeAt id).getD (freeNode d)) w :=
    fun w hw => portRead_of_resolve d (resolve_nodeAddr s.params hid hw) (.inl hb)
  rw [hread 0 (by omega), hread 1 (by omega), hread 2 (by omega), hread 3 (by omega)]
  refine ⟨fun k h8 h31 => nodeWord_one_unused _ h8 h31, fun n hn => ?_, fun hn => ?_⟩
  · rw [hn]
    exact nodeWord_fields n
  · rw [hn]
    exact nodeWord_fields (freeNode d)

/-! ### A host write (R65) -/

/-- What a port write can do: nothing, or, while BUSY = 0, write the target that the address leads to. -/
theorem portWrite_cases (s : State) (a v : Word) :
    portWrite s a v = s ∨
    (s.status.busy = false ∧ ∃ t, Reaches s.params a t ∧ portWrite s a v = writeTarget s v t) := by
  cases hb : s.status.busy with
  | true => exact .inl (portWrite_of_busy a v hb)
  | false =>
    cases ht : resolve s.params a with
    | none => exact .inl (portWrite_of_unresolved v ht)
    | some t => exact .inr ⟨rfl, t, reaches_of_resolve ht, portWrite_of_resolve v ht hb⟩

/-- A write to any target but CMD leaves STATUS, the latch and the pending bit alone. -/
theorem writeTarget_control (s : State) (v : Word) (t : Target) :
    t = .reg .cmd ∨ ((writeTarget s v t).status = s.status ∧ (writeTarget s v t).latch = s.latch ∧
      (writeTarget s v t).pending = s.pending) := by
  cases t with
  | reg r =>
    cases r with
    | cmd => exact .inl rfl
    | _ => exact .inr ⟨rfl, rfl, rfl⟩
  | _ => exact .inr ⟨rfl, rfl, rfl⟩

/-- STATUS after a port write: as before, or as the acceptance of a command word sets it (R25). -/
theorem portWrite_status (s : State) (a v : Word) :
    (portWrite s a v).status = s.status ∨
    (a = regAddr .cmd ∧ s.status.busy = false ∧ (portWrite s a v).status = Status.accept (opField v)) := by
  rcases portWrite_cases s a v with heq | ⟨hb, t, ht, heq⟩ <;> rw [heq]
  · exact .inl rfl
  · rcases writeTarget_control s v t with rfl | ⟨hst, -, -⟩
    · exact .inr ⟨ht, hb, rfl⟩
    · exact .inl hst

/-- Settles O7: of all host statements only a write that reaches CMD, and the reset event, touch STATUS. -/
theorem hostStepsKeepStatus : Obligations.HostStepsKeepStatus := by
  intro s t hw h
  have hhost : hostStep (takeTurn s) = .next t := by
    unfold step at h
    rwa [hw] at h
  rcases hostStep_next_cases hhost with ⟨-, rfl⟩ | ⟨a, v, rest, hs, hb, rfl⟩ | ⟨a, x, rest, -, rfl⟩ |
    ⟨rest, -, rfl | rfl⟩ | ⟨rest, hs, rfl⟩
  · exact .inl rfl
  · rcases portWrite_status { takeTurn s with script := rest } a v with hst | ⟨rfl, -, hst⟩
    · exact .inl hst
    · exact .inr (.inl ⟨v, rest, hs, hb, hst⟩)
  · exact .inl rfl
  · exact .inl rfl
  · exact .inl rfl
  · exact .inr (.inr ⟨rest, hs, rfl⟩)

end Sys2Proof.Proofs
end

section
/-! PROOFS. The table of reset values (10_state.md R50) and the flattening of a grid (R39). -/

namespace Sys2Proof.Proofs

open Sys2Proof.Machine

/-! ### Reset and CLEAR -/

theorem statusWord_reset : Status.reset.word = 0#32 := by decide

theorem statusWord_after_clear :
    (Status.complete none (Status.accept (opField (encode .clear)))).word = 0x00000102#32 := by decide

/-- Settles O13: R50's two columns, one entry of the table after the other. -/
theorem resetAndClearLeaveTheTable : Obligations.ResetAndClearLeaveTheTable := by
  constructor
  · rintro p s rfl
    exact ⟨rfl, statusWord_reset, rfl, rfl, rfl, rfl, rfl, rfl, rfl, rfl, rfl, rfl, rfl, rfl, rfl, rfl, rfl, rfl, rfl,
      fun _ => ⟨rfl, rfl, rfl, rfl, rfl, rfl, rfl, rfl, rfl⟩⟩
  · intro s
    exact ⟨_, rfl, rfl, statusWord_after_clear, rfl, rfl, rfl, rfl, rfl, rfl, rfl, rfl, rfl, rfl, rfl, rfl, rfl, rfl,
      rfl, fun _ => ⟨rfl, rfl, rfl, rfl, rfl, rfl, rfl, rfl, rfl⟩⟩

/-! ### Flattening -/

/-- The lower digit of a number in mixed radix is cut off by the division. -/
theorem mul_add_div_of_lt {a b m : Nat} (hb : b < m) : (a * m + b) / m = a := by
  rw [Nat.mul_comm, Nat.mul_add_div (by omega), Nat.div_eq_of_lt hb, Nat.add_zero]

theorem flattenIndex_lt {h w ch y x c : Nat} (hy : y < h) (hx : x < w) (hc : c < ch) :
    flattenIndex w ch y x c < h * w * ch := by
  have hyx : y * w + x < h * w := Nat.mul_comm w y ▸ Nat.mul_add_lt_mul_of_lt_of_lt hy hx
  rw [flattenIndex, Nat.mul_comm (y * w + x)]
  exact Nat.mul_add_lt_mul_of_lt_of_lt hyx hc

theorem reshapeIndex_flattenIndex {w ch x c : Nat} (y : Nat) (hx : x < w) (hc : c < ch) :
    reshapeIndex w ch (flattenIndex w ch y x c) = (y, x, c) := by
  simp only [reshapeIndex, flattenIndex, mul_add_div_of_lt hc, mul_add_div_of_lt hx, Nat.mul_add_mod_of_lt hx,
    Nat.mul_add_mod_of_lt hc]

/-- Settles O27: flattening writes (y, x, c) as a number in the mixed radix (h, w, ch), and reshaping takes the digits. -/
theorem flatteningIsInvertible : Obligations.FlatteningIsInvertible := by
  intro h w ch
  refine ⟨fun y x c hy hx hc => ⟨rfl, flattenIndex_lt hy hx hc, reshapeIndex_flattenIndex y hx hc⟩, fun i hi => ?_⟩
  have hpos : h * w * ch ≠ 0 := by omega
  have hch : 0 < ch := Nat.pos_of_ne_zero (right_ne_zero_of_mul hpos)
  have hw : 0 < w := Nat.pos_of_ne_zero (right_ne_zero_of_mul (left_ne_zero_of_mul hpos))
  refine ⟨?_, Nat.mod_lt _ hw, Nat.mod_lt _ hch, ?_⟩
  · rw [reshapeIndex, Nat.div_lt_iff_lt_mul hw, Nat.div_lt_iff_lt_mul hch]
    exact hi
  · simp only [reshapeIndex, flattenIndex, Nat.div_add_mod']

end Sys2Proof.Proofs
end

section
/-! PROOFS. What all ten commands share: how they end, that they neither read nor write STATUS, and what they raise
(10_state.md R26, R27; 60_exceptions.md R251, R259). -/

namespace Sys2Proof.Proofs

open Sys2Proof.Machine

/-! ### How a command ends -/

/-- The result of a command's pseudocode, before completion. -/
def commandResult (i : Instr) (s : State) : CommandResult :=
  match i with
  | .nop => .done s
  | .clear => .done (clearState s)
  | .freqCount => .ofExcept s (freqCount s)
  | .rleEncode => .ofExcept s (rleEncode s)
  | .rleDecode => .ofExcept s (rleDecode s)
  | .treeBuild => .ofExcept s (treeBuild s)
  | .codeGen => .ofExcept s (codeGen s)
  | .pack => .ofExcept s (pack s)
  | .unpack => unpackResult s
  | .huffEncode => huffEncodeResult s

theorem exec_eq_finish (i : Instr) (s : State) : exec i s = finish (commandResult i s) := by
  cases i <;> rfl

/-- However the pseudocode ends, without an error or in one, `P` holds of that end and of the state it leaves. -/
inductive Ends (P : Option ErrorCode → State → Prop) : CommandResult → Prop
  | done {s : State} (h : P none s) : Ends P (.done s)
  | raised {e : ErrorCode} {s : State} (h : P (some e) s) : Ends P (.raised e s)
  | fault (f : Fault) : Ends P (.fault f)

theorem Ends.and {P Q : Option ErrorCode → State → Prop} {r : CommandResult} (hP : Ends P r) (hQ : Ends Q r) :
    Ends (fun e s => P e s ∧ Q e s) r := by
  cases hP with
  | done hp => cases hQ with | done hq => exact .done ⟨hp, hq⟩
  | raised hp => cases hQ with | raised hq => exact .raised ⟨hp, hq⟩
  | fault f => exact .fault f

theorem ends_ofExcept {P : Option ErrorCode → State → Prop} {s : State} {x : Except Stop State}
    (hok : ∀ t, x = .ok t → P none t) (herr : ∀ e, x = .error (.raised e) → P (some e) s) :
    Ends P (CommandResult.ofExcept s x) := by
  rcases x with (e | f) | t
  · exact .raised (herr e rfl)
  · exact .fault f
  · exact .done (hok t rfl)

theorem ends_andThen {P : Option ErrorCode → State → Prop} {r : CommandResult} {f : State → CommandResult}
    (hr : Ends P r) (hf : ∀ s, P none s → Ends P (f s)) : Ends P (r.andThen f) := by
  cases hr with
  | done h => exact hf _ h
  | raised h => exact .raised h
  | fault x => exact .fault x

/-- What holds of every end of a command's pseudocode holds of the state that its completion completes (R259). -/
theorem exec_next_of_ends {P : Option ErrorCode → State → Prop} {i : Instr} {s t : State} (h : exec i s = .next t)
    (hP : Ends P (commandResult i s)) : ∃ e u, P e u ∧ t = completeCommand e u := by
  rw [exec_eq_finish, finish_next_iff] at h
  rcases h with ⟨u, hr, ht⟩ | ⟨e, u, hr, ht⟩ <;> rw [hr] at hP
  · cases hP with | done hp => exact ⟨none, u, hp, ht⟩
  · cases hP with | raised hp => exact ⟨some e, u, hp, ht⟩

/-! ### No command reads or writes STATUS (R27) -/

/-- A state with another STATUS. -/
def withStatus (st : Status) (s : State) : State := { s with status := st }

/-- The same end, in the state that `g` makes of the state left. -/
def mapResult (g : State → State) : CommandResult → CommandResult
  | .done s => .done (g s)
  | .raised e s => .raised e (g s)
  | .fault f => .fault f

section Commuting
variable {g : State → State}

theorem bind_eq_map {α : Type} {x : Except Stop α} {f f' : α → Except Stop State} (h : ∀ a, f' a = (f a).map g) :
    (x >>= f') = (x >>= f).map g := by
  cases x with
  | error e => rfl
  | ok a => exact h a

theorem ite_eq_map {c : Prop} [Decidable c] {x y x' y' : Except Stop State} (hx : x' = x.map g) (hy : y' = y.map g) :
    (if c then x' else y') = (if c then x else y).map g := by
  split <;> assumption

theorem ofExcept_map (s : State) (x : Except Stop State) :
    CommandResult.ofExcept (g s) (x.map g) = mapResult g (CommandResult.ofExcept s x) := by
  rcases x with (e | f) | t <;> rfl

theorem andThen_mapResult {r r' : CommandResult} {f : State → CommandResult} (hr : r' = mapResult g r)
    (hf : ∀ s, f (g s) = mapResult g (f s)) : r'.andThen f = mapResult g (r.andThen f) := by
  subst hr
  cases r with
  | done s => exact hf s
  | raised e s => rfl
  | fault x => rfl

end Commuting

theorem freqCount_withStatus (st : Status) (s : State) :
    freqCount (withStatus st s) = (freqCount s).map (withStatus st) :=
  bind_eq_map fun _ => bind_eq_map fun _ => rfl

theorem rleEncode_withStatus (st : Status) (s : State) :
    rleEncode (withStatus st s) = (rleEncode s).map (withStatus st) :=
  bind_eq_map fun _ => bind_eq_map fun _ => rfl

theorem rleDecode_withStatus (st : Status) (s : State) :
    rleDecode (withStatus st s) = (rleDecode s).map (withStatus st) :=
  bind_eq_map fun _ => ite_eq_map rfl (bind_eq_map fun _ => ite_eq_map rfl (bind_eq_map fun _ => rfl))

theorem treeBuild_withStatus (st : Status) (s : State) :
    treeBuild (withStatus st s) = (treeBuild s).map (withStatus st) := by
  unfold treeBuild
  exact ite_eq_map rfl (ite_eq_map rfl rfl)

theorem codeGen_withStatus (st : Status) (s : State) :
    codeGen (withStatus st s) = (codeGen s).map (withStatus st) :=
  ite_eq_map rfl (bind_eq_map fun _ => rfl)

theorem pack_withStatus (st : Status) (s : State) : pack (withStatus st s) = (pack s).map (withStatus st) :=
  bind_eq_map fun _ => bind_eq_map fun _ => ite_eq_map rfl rfl

theorem unpack_withStatus (st : Status) (s : State) : unpack (withStatus st s) = (unpack s).map (withStatus st) := by
  refine bind_eq_map fun _ => ite_eq_map rfl (ite_eq_map rfl (bind_eq_map fun _ =>
    ite_eq_map rfl (ite_eq_map rfl (bind_eq_map fun _ => ?_))))
  dsimp only [withStatus]
  split <;> rfl

theorem unpackResult_withStatus (st : Status) (s : State) :
    unpackResult (withStatus st s) = mapResult (withStatus st) (unpackResult s) := by
  unfold unpackResult
  rw [unpack_withStatus]
  rcases unpack s with (e | f) | t
  · cases e <;> rfl
  · rfl
  · rfl

/-- Every command commutes with a change of STATUS: what it does and leaves does not depend on STATUS. -/
theorem commandResult_withStatus (i : Instr) (st : Status) (s : State) :
    commandResult i (withStatus st s) = mapResult (withStatus st) (commandResult i s) := by
  have lift : ∀ {f : State → Except Stop State}, (∀ s, f (withStatus st s) = (f s).map (withStatus st)) → ∀ s,
      CommandResult.ofExcept (withStatus st s) (f (withStatus st s)) =
        mapResult (withStatus st) (CommandResult.ofExcept s (f s)) :=
    fun hf s => by rw [hf, ofExcept_map]
  cases i with
  | nop => rfl
  | clear => rfl
  | freqCount => exact lift (freqCount_withStatus st) s
  | rleEncode => exact lift (rleEncode_withStatus st) s
  | rleDecode => exact lift (rleDecode_withStatus st) s
  | treeBuild => exact lift (treeBuild_withStatus st) s
  | codeGen => exact lift (codeGen_withStatus st) s
  | pack => exact lift (pack_withStatus st) s
  | unpack => exact unpackResult_withStatus st s
  | huffEncode =>
    exact andThen_mapResult (andThen_mapResult (andThen_mapResult (lift (freqCount_withStatus st) s)
      (lift (treeBuild_withStatus st))) (lift (codeGen_withStatus st))) (lift (pack_withStatus st))

/-- The pseudocode of a command leaves STATUS to its completion. -/
theorem commandResult_status (i : Instr) (s : State) :
    Ends (fun _ u => u.status = s.status) (commandResult i s) := by
  have h : commandResult i s = mapResult (withStatus s.status) (commandResult i s) :=
    commandResult_withStatus i s.status s
  rw [h]
  cases commandResult i s with
  | done u => exact .done rfl
  | raised e u => exact .raised rfl
  | fault f => exact .fault f

/-- Settles O10: a command's result commutes with a change of STATUS, and completion changes STATUS and the pending bit
alone. -/
theorem commandsDoNotReadStatus : Obligations.CommandsDoNotReadStatus := by
  intro i s t st h
  rw [exec_eq_finish, finish_next_iff] at h
  change ∃ u, exec i (withStatus st s) = .next u ∧ _
  rw [exec_eq_finish, commandResult_withStatus]
  rcases h with ⟨u, hr, rfl⟩ | ⟨e, u, hr, rfl⟩ <;> rw [hr] <;> exact ⟨_, rfl, rfl⟩

/-! ### What a command can raise (R251) -/

/-- The pseudocode does not raise ILLEGAL_COMMAND, which is the decoder's alone. -/
structure NotIllegal {α : Type} (x : Except Stop α) : Prop where
  ne : x ≠ .error (.raised .illegalCommand)

theorem notIllegal_bind {α β : Type} {x : Except Stop α} {f : α → Except Stop β} (hx : NotIllegal x)
    (hf : ∀ a, NotIllegal (f a)) : NotIllegal (x >>= f) := by
  cases x with
  | error e => exact ⟨fun h => hx.ne (by injection h with h; rw [h])⟩
  | ok a => exact hf a

theorem notIllegal_ite {α : Type} {c : Prop} [Decidable c] {x y : Except Stop α} (hx : NotIllegal x)
    (hy : NotIllegal y) : NotIllegal (if c then x else y) := by
  split <;> assumption

@[simp] theorem notIllegal_ok {α : Type} (a : α) : NotIllegal (.ok a) :=
  ⟨nofun⟩

@[simp] theorem notIllegal_fault {α : Type} (f : Fault) : NotIllegal (.error (.fault f) : Except Stop α) :=
  ⟨nofun⟩

@[simp] theorem notIllegal_raised {α : Type} {e : ErrorCode} (h : e ≠ .illegalCommand) :
    NotIllegal (.error (.raised e) : Except Stop α) :=
  ⟨by simpa using h⟩

theorem notIllegal_checkN (s : State) : NotIllegal (checkN s) := by
  refine ⟨fun h => ?_⟩
  rcases checkN_error h with ⟨hx, -⟩ | ⟨hx, -⟩ <;> cases hx

theorem notIllegal_readOperand {α : Type} (name : Operand) (m : Sparse α) (i : Nat) :
    NotIllegal (readOperand name m i) :=
  ⟨fun h => nomatch ((readOperand_error_iff name m i _).mp h).2⟩

theorem notIllegal_readRange {α : Type} (name : Operand) (m : Sparse α) (i n : Nat) :
    NotIllegal (readRange name m i n) := by
  refine ⟨fun h => ?_⟩
  obtain ⟨k, -, -, -, hx⟩ := readRange_error h
  cases hx

theorem notIllegal_sumRuns (m : Memory) (t n : Nat) : NotIllegal (sumRuns m t n) := by
  induction n generalizing t with
  | zero => simp [sumRuns]
  | succ n ih =>
    exact notIllegal_bind (notIllegal_readOperand ..) fun _ =>
      notIllegal_ite (by simp) (notIllegal_bind (ih _) fun _ => notIllegal_ok _)

theorem notIllegal_expandRuns (m : Memory) (t n : Nat) : NotIllegal (expandRuns m t n) := by
  induction n generalizing t with
  | zero => simp [expandRuns]
  | succ n ih =>
    exact notIllegal_bind (notIllegal_readOperand ..) fun _ => notIllegal_bind (notIllegal_readOperand ..) fun _ =>
      notIllegal_bind (ih _) fun _ => notIllegal_ok _

theorem notIllegal_readCodes (m : Memory) (i n : Nat) : NotIllegal (readCodes m i n) := by
  induction n generalizing i with
  | zero => simp [readCodes]
  | succ n ih =>
    exact notIllegal_bind (notIllegal_readOperand ..) fun _ =>
      notIllegal_ite (by simp) (notIllegal_bind (ih _) fun _ => notIllegal_ok _)

theorem notIllegal_walkTree (node : Sparse NodeEntry) (pops : Nat) (stack : List (Nat × Bits)) :
    NotIllegal (walkTree node pops stack) := by
  induction pops generalizing stack with
  | zero => cases stack <;> simp [walkTree]
  | succ pops ih =>
    cases stack with
    | nil => simp [walkTree]
    | cons top stack =>
      exact notIllegal_bind (notIllegal_readOperand ..) fun _ => notIllegal_ite
        (notIllegal_ite (by simp) (notIllegal_bind (ih _) fun _ => notIllegal_ok _)) (ih _)

theorem notIllegal_treeCodes (node : Sparse NodeEntry) (root : Nat) : NotIllegal (treeCodes node root) :=
  notIllegal_bind (notIllegal_readOperand ..) fun _ => notIllegal_ite (notIllegal_ok _) (notIllegal_walkTree ..)

theorem notIllegal_freqCount (s : State) : NotIllegal (freqCount s) :=
  notIllegal_bind (notIllegal_checkN s) fun _ => notIllegal_bind (notIllegal_readRange ..) fun _ => notIllegal_ok _

theorem notIllegal_rleEncode (s : State) : NotIllegal (rleEncode s) :=
  notIllegal_bind (notIllegal_checkN s) fun _ => notIllegal_bind (notIllegal_readRange ..) fun _ => notIllegal_ok _

theorem notIllegal_rleDecode (s : State) : NotIllegal (rleDecode s) :=
  notIllegal_bind (notIllegal_checkN s) fun _ => notIllegal_ite (by simp) <|
    notIllegal_bind (notIllegal_sumRuns ..) fun _ => notIllegal_ite (by simp) <|
      notIllegal_bind (notIllegal_expandRuns ..) fun _ => notIllegal_ok _

theorem notIllegal_treeBuild (s : State) : NotIllegal (treeBuild s) := by
  refine ⟨fun h => ?_⟩
  rcases treeBuild_error h with ⟨hx, -⟩ | ⟨hx, -⟩ <;> cases hx

theorem notIllegal_codeGen (s : State) : NotIllegal (codeGen s) :=
  notIllegal_ite (by simp) (notIllegal_bind (notIllegal_treeCodes ..) fun _ => notIllegal_ok _)

theorem notIllegal_pack (s : State) : NotIllegal (pack s) :=
  notIllegal_bind (notIllegal_checkN s) fun _ => notIllegal_bind (notIllegal_readCodes ..) fun _ =>
    notIllegal_ite (by simp) (notIllegal_ok _)

theorem notIllegal_unpack (s : State) : NotIllegal (unpack s) := by
  refine notIllegal_bind (notIllegal_checkN s) fun _ => notIllegal_ite (by simp) <| notIllegal_ite (by simp) <|
    notIllegal_bind (notIllegal_readOperand ..) fun _ => notIllegal_ite (by simp) <| notIllegal_ite (by simp) <|
      notIllegal_bind (notIllegal_readRange ..) fun _ => ?_
  dsimp only
  split
  · exact notIllegal_raised nofun
  · exact notIllegal_ok _

theorem ends_not_illegal_ofExcept {s : State} {x : Except Stop State} (h : NotIllegal x) :
    Ends (fun e _ => e ≠ some .illegalCommand) (CommandResult.ofExcept s x) :=
  ends_ofExcept (fun _ _ => nofun) fun e he hi => h.ne (by rw [he, Option.some.inj hi])

/-- No command ends in ILLEGAL_COMMAND. -/
theorem commandResult_not_illegal (i : Instr) (s : State) :
    Ends (fun e _ => e ≠ some .illegalCommand) (commandResult i s) := by
  cases i with
  | nop => exact .done nofun
  | clear => exact .done nofun
  | freqCount => exact ends_not_illegal_ofExcept (notIllegal_freqCount s)
  | rleEncode => exact ends_not_illegal_ofExcept (notIllegal_rleEncode s)
  | rleDecode => exact ends_not_illegal_ofExcept (notIllegal_rleDecode s)
  | treeBuild =>
    rw [commandResult]
    exact ends_not_illegal_ofExcept (notIllegal_treeBuild s)
  | codeGen => exact ends_not_illegal_ofExcept (notIllegal_codeGen s)
  | pack => exact ends_not_illegal_ofExcept (notIllegal_pack s)
  | unpack =>
    have h := notIllegal_unpack s
    change Ends _ (unpackResult s)
    unfold unpackResult
    rcases hu : unpack s with (e | f) | t
    · cases e with
      | illegalCommand => exact absurd hu h.ne
      | _ => exact .raised nofun
    · exact .fault f
    · exact .done nofun
  | huffEncode =>
    exact ends_andThen (ends_andThen (ends_andThen (ends_not_illegal_ofExcept (notIllegal_freqCount s))
      fun _ _ => ends_not_illegal_ofExcept (notIllegal_treeBuild _))
      fun _ _ => ends_not_illegal_ofExcept (notIllegal_codeGen _))
      fun _ _ => ends_not_illegal_ofExcept (notIllegal_pack _)

/-- Every error but ILLEGAL_COMMAND has a code from 1 to 6 (R251). -/
theorem code_range_of_ne_illegal {e : ErrorCode} (h : e ≠ .illegalCommand) : 1 ≤ e.code.toNat ∧ e.code.toNat ≤ 6 := by
  cases e with
  | illegalCommand => exact absurd rfl h
  | _ => decide

/-- Settles O6: completion sets STATUS as R26 says, the pseudocode leaves it alone, and no command raises
ILLEGAL_COMMAND. -/
theorem completionUpdatesStatus : Obligations.CompletionUpdatesStatus := by
  intro i s t h
  obtain ⟨e, u, ⟨hst, he⟩, rfl⟩ := exec_next_of_ends h ((commandResult_status i s).and (commandResult_not_illegal i s))
  rw [completeCommand_status, completeCommand_pending, hst]
  obtain ⟨hbusy, hdone, hop⟩ := status_complete_fields e s.status
  refine ⟨rfl, hbusy, hdone, hop, ?_⟩
  cases e with
  | none => exact .inl ⟨rfl, rfl⟩
  | some e => exact .inr ⟨rfl, code_range_of_ne_illegal fun h => he (congrArg some h)⟩

end Sys2Proof.Proofs
end

section
/-! PROOFS. The shape of the tree that TREE_BUILD makes (43_tree.md R150, R153, R156). -/

namespace Sys2Proof.Proofs

open Sys2Proof.Machine

/-! ### The queue -/

theorem enqueue_perm (e : QueueEntry) (q : List QueueEntry) : (enqueue e q).Perm (e :: q) := by
  induction q with
  | nil => exact .refl _
  | cons a q ih =>
    unfold enqueue
    split
    · exact .refl _
    · exact (ih.cons a).trans (.swap e a q)

/-- The queue entry of a node together with its id. -/
def entryOf (x : NodeEntry × Nat) : QueueEntry := { freq := x.1.freq.toNat, id := x.2 }

theorem queueOf_perm (ns : List NodeEntry) (id : Nat) : (queueOf id ns).Perm ((ns.zipIdx id).map entryOf) := by
  induction ns generalizing id with
  | nil => exact .refl _
  | cons n ns ih => exact (enqueue_perm _ _).trans ((ih (id + 1)).cons (entryOf (n, id)))

/-! ### Children -/

/-- The ids of a node's children, LEFT first; a leaf has none. -/
def children (n : NodeEntry) : List Nat :=
  if n.isLeaf then [] else [n.left.toNat, n.right.toNat]

theorem mem_children_iff (id : Nat) (n : NodeEntry) : id ∈ children n ↔ isChildOf id n := by
  unfold children isChildOf
  cases n.isLeaf <;> simp [eq_comm]

/-- The ids of the children of all nodes of a pool. -/
def childIds (ns : List NodeEntry) : List Nat := ns.flatMap children

theorem childIds_eq_nil {ns : List NodeEntry} (h : ∀ n ∈ ns, n.isLeaf = true) : childIds ns = [] :=
  List.flatMap_eq_nil_iff.mpr fun n hn => by simp [children, h n hn]

/-- In a pool that lists no child twice, two nodes with a common child are the same node. -/
theorem parent_eq_of_nodup {ns : List NodeEntry} (h : (childIds ns).Nodup) {i j id : Nat} {m n : NodeEntry}
    (hi : ns[i]? = some m) (hj : ns[j]? = some n) (hm : isChildOf id m) (hn : isChildOf id n) : i = j := by
  have hd := List.pairwise_iff_getElem.mp (List.nodup_flatMap.mp h).2
  obtain ⟨hil, rfl⟩ := List.getElem?_eq_some_iff.mp hi
  obtain ⟨hjl, rfl⟩ := List.getElem?_eq_some_iff.mp hj
  rw [← mem_children_iff] at hm hn
  rcases lt_trichotomy i j with hlt | heq | hlt
  · exact absurd hn (hd i j hil hjl hlt hm)
  · exact heq
  · exact absurd hm (hd j i hjl hil hlt hn)

/-! ### The merge loop -/

/-- A list keeps its elements where more are added behind them. -/
theorem getElem?_append_some {α : Type} {l : List α} {i : Nat} {x : α} (h : l[i]? = some x) (m : List α) :
    (l ++ m)[i]? = some x := by
  rw [List.getElem?_append_left (List.getElem?_eq_some_iff.mp h).1, h]

/-- Node `id` of the pool `ns` is internal as R156 says: two distinct children, both with smaller ids, whose frequencies
it sums. -/
structure InternalAt (ns : List NodeEntry) (id : Nat) (n : NodeEntry) : Prop where
  not_leaf : n.isLeaf = false
  symbol_eq : n.symbol = 0#8
  left_lt : n.left.toNat < id
  right_lt : n.right.toNat < id
  left_ne_right : n.left ≠ n.right
  freq_eq : ∃ a b, ns[n.left.toNat]? = some a ∧ ns[n.right.toNat]? = some b ∧
    n.freq.toNat = a.freq.toNat + b.freq.toNat

/-- Adding nodes behind a pool keeps its internal nodes. -/
theorem InternalAt.append {ns : List NodeEntry} {id : Nat} {n : NodeEntry} (h : InternalAt ns id n)
    (ms : List NodeEntry) : InternalAt (ns ++ ms) id n := by
  obtain ⟨h1, h2, h3, h4, h5, a, b, ha, hb, hf⟩ := h
  exact ⟨h1, h2, h3, h4, h5, a, b, getElem?_append_some ha ms, getElem?_append_some hb ms, hf⟩

/-- The invariant of the merge loop of R150: of the pool `ns` made so far, whose first `k` nodes are the leaves, and the
queue `q`. Every id of the pool is either queued or the child of exactly one node (`ids_perm`), and the queue's
frequencies always sum to the sum `total` of FREQ. -/
structure Merging (k total : Nat) (ns : List NodeEntry) (q : List QueueEntry) : Prop where
  leaf_le : k ≤ 256
  length_eq : ns.length + q.length = 2 * k
  queue_pos : 1 ≤ q.length
  ids_perm : (q.map QueueEntry.id ++ childIds ns).Perm (List.range ns.length)
  freq_eq : ∀ e ∈ q, ∃ n, ns[e.id]? = some n ∧ n.freq.toNat = e.freq
  sum_eq : (q.map QueueEntry.freq).sum = total
  last_id : q.length = 1 → q.map QueueEntry.id = [ns.length - 1]
  internal : ∀ id n, k ≤ id → ns[id]? = some n → InternalAt ns id n

theorem children_internalNode {a b : QueueEntry} (ha : a.id < 512) (hb : b.id < 512) :
    children (internalNode a b) = [a.id, b.id] := by
  simp [children, internalNode, Nat.mod_eq_of_lt ha, Nat.mod_eq_of_lt hb]

/-- The node that one merge makes, where its two queue entries are nodes of the pool. -/
theorem internalAt_internalNode {ns : List NodeEntry} {a b : QueueEntry} {m n : NodeEntry} (hl : ns.length ≤ 511)
    (hab : a.id ≠ b.id) (hs : a.freq + b.freq < 2 ^ 32) (ha : ns[a.id]? = some m) (hm : m.freq.toNat = a.freq)
    (hb : ns[b.id]? = some n) (hn : n.freq.toNat = b.freq) : InternalAt ns ns.length (internalNode a b) := by
  have hal := (List.getElem?_eq_some_iff.mp ha).1
  have hbl := (List.getElem?_eq_some_iff.mp hb).1
  have hleft : (internalNode a b).left.toNat = a.id := Nat.mod_eq_of_lt (by omega)
  have hright : (internalNode a b).right.toNat = b.id := Nat.mod_eq_of_lt (by omega)
  have hfreq : (internalNode a b).freq.toNat = a.freq + b.freq := Nat.mod_eq_of_lt hs
  refine ⟨rfl, rfl, hleft ▸ hal, hright ▸ hbl, fun h => hab ?_, m, n, hleft ▸ ha, hright ▸ hb, ?_⟩
  · rw [← hleft, ← hright, h]
  · rw [hfreq, hm, hn]

/-- The ids after a merge: the new id joins the queue `q`, and `a` and `b` leave it for the children `c`. -/
theorem perm_range_succ {n a b : Nat} {q c : List Nat} (h : (a :: b :: q ++ c).Perm (List.range n)) :
    (n :: q ++ (c ++ [a, b])).Perm (List.range (n + 1)) := by
  have hmove : (n :: q ++ (c ++ [a, b])).Perm (n :: (a :: b :: q ++ c)) := by
    simpa using (List.perm_append_comm (l₁ := q ++ c) (l₂ := [a, b])).cons n
  rw [List.range_succ]
  exact (hmove.trans (h.cons n)).trans (List.perm_append_singleton n _).symm

/-- One merge keeps the invariant. -/
theorem Merging.merge {k total : Nat} {ns : List NodeEntry} {a b : QueueEntry} {q : List QueueEntry}
    (h : Merging k total ns (a :: b :: q)) (ht : total < 2 ^ 32) :
    Merging k total (ns ++ [internalNode a b]) (enqueue { freq := a.freq + b.freq, id := ns.length } q) := by
  obtain ⟨hk, hlen, -, hperm, hfreq, hsum, -, hint⟩ := h
  have hq := enqueue_perm { freq := a.freq + b.freq, id := ns.length } q
  simp only [List.length_cons] at hlen
  obtain ⟨m, hm, hmf⟩ := hfreq a (by simp)
  obtain ⟨n, hn, hnf⟩ := hfreq b (by simp)
  have hab : a.id ≠ b.id := by
    have hnd := hperm.nodup_iff.mpr List.nodup_range
    simp only [List.map_cons, List.cons_append, List.nodup_cons, List.mem_cons] at hnd
    exact fun h => hnd.1 (.inl h)
  simp only [List.map_cons, List.sum_cons] at hsum
  have hnode : InternalAt ns ns.length (internalNode a b) :=
    internalAt_internalNode (by omega) hab (by omega) hm hmf hn hnf
  have hchild : childIds (ns ++ [internalNode a b]) = childIds ns ++ [a.id, b.id] := by
    have hal := (List.getElem?_eq_some_iff.mp hm).1
    have hbl := (List.getElem?_eq_some_iff.mp hn).1
    simp [childIds, children_internalNode (a := a) (b := b) (by omega) (by omega)]
  refine { leaf_le := hk, length_eq := ?_, queue_pos := ?_, ids_perm := ?_, freq_eq := ?_, sum_eq := ?_, last_id := ?_
           internal := ?_ }
  · simp only [hq.length_eq, List.length_append, List.length_cons, List.length_nil]; omega
  · simp [hq.length_eq]
  · have hids : ((enqueue { freq := a.freq + b.freq, id := ns.length } q).map QueueEntry.id).Perm
        (ns.length :: q.map QueueEntry.id) := hq.map _
    rw [hchild, List.length_append, List.length_singleton]
    exact (hids.append_right _).trans (perm_range_succ hperm)
  · intro e he
    rcases List.mem_cons.mp (hq.mem_iff.mp he) with rfl | he
    · exact ⟨internalNode a b, by simp, Nat.mod_eq_of_lt (by omega)⟩
    · obtain ⟨x, hx, hxf⟩ := hfreq e (by simp [he])
      exact ⟨x, getElem?_append_some hx _, hxf⟩
  · rw [(hq.map _).sum_eq]; simp; omega
  · intro h1
    rw [hq.length_eq] at h1
    obtain rfl : q = [] := List.length_eq_zero_iff.mp (by simpa using h1)
    simp [enqueue]
  · intro id x hid hx
    rcases Nat.lt_or_ge id ns.length with hlt | hge
    · rw [List.getElem?_append_left hlt] at hx
      exact (hint id x hid hx).append _
    · have hlt := (List.getElem?_eq_some_iff.mp hx).1
      simp only [List.length_append, List.length_singleton] at hlt
      obtain rfl : id = ns.length := by omega
      obtain rfl : internalNode a b = x := by simpa using hx
      exact hnode.append _

/-- A queue of one entry ends the merge loop at once. -/
theorem mergeLoop_singleton_merging {k total : Nat} {ns : List NodeEntry} {e : QueueEntry} (fuel : Nat)
    (h : Merging k total ns [e]) :
    ∃ e', e'.id = (mergeLoop fuel [e] ns.length).2 ∧ Merging k total (ns ++ (mergeLoop fuel [e] ns.length).1) [e'] := by
  cases fuel <;> exact ⟨e, rfl, by simpa [mergeLoop] using h⟩

/-- The merge loop ends with one queue entry, the root's, and keeps the invariant. -/
theorem mergeLoop_merging {k total : Nat} (ht : total < 2 ^ 32) (fuel : Nat) {ns : List NodeEntry}
    {q : List QueueEntry} (h : Merging k total ns q) (hf : q.length ≤ fuel + 1) :
    ∃ e, e.id = (mergeLoop fuel q ns.length).2 ∧ Merging k total (ns ++ (mergeLoop fuel q ns.length).1) [e] := by
  induction fuel generalizing ns q with
  | zero =>
    obtain ⟨e, rfl⟩ := List.length_eq_one_iff.mp (Nat.le_antisymm hf h.queue_pos)
    exact mergeLoop_singleton_merging 0 h
  | succ fuel ih =>
    match q, h with
    | [], h => exact absurd h.queue_pos (by simp)
    | [e], h => exact mergeLoop_singleton_merging _ h
    | a :: b :: q, h =>
      have hq := (enqueue_perm { freq := a.freq + b.freq, id := ns.length } q).length_eq
      simp only [List.length_cons] at hf hq
      obtain ⟨e, he, hm⟩ := ih (h.merge ht) (by omega)
      rw [List.length_append, List.length_singleton] at he hm
      exact ⟨e, he, by simpa [mergeLoop] using hm⟩

/-! ### The leaves -/

/-- All 256 symbols, in ascending order. -/
def allBytes : List Byte := (List.range Config.alphabet).map (BitVec.ofNat 8)

theorem allBytes_ascending : allBytes.Pairwise fun v w => v.toNat < w.toNat := by
  refine List.pairwise_map.mpr (List.pairwise_lt_range.imp_of_mem fun ha hb hlt => ?_)
  have ha := List.mem_range.mp ha
  have hb := List.mem_range.mp hb
  rw [Config.alphabet] at ha hb
  simp only [BitVec.toNat_ofNat]
  omega

/-- The leaf of a symbol; none where its frequency is 0 (R150). -/
def leafOf (freq : Sparse Word) (v : Byte) : Option NodeEntry :=
  if Sparse.read freq v.toNat = 0#32 then none else some (leafNode (Sparse.read freq v.toNat) v)

theorem leafOf_eq_some_iff (freq : Sparse Word) (v : Byte) (n : NodeEntry) :
    leafOf freq v = some n ↔ Sparse.read freq v.toNat ≠ 0#32 ∧ n = leafNode (Sparse.read freq v.toNat) v := by
  by_cases h : Sparse.read freq v.toNat = 0#32
  · simp [leafOf, h]
  · rw [leafOf, if_neg h, Option.some.injEq]
    exact ⟨fun hn => ⟨h, hn.symm⟩, fun hn => hn.2.symm⟩

theorem leaves_eq_filterMap (freq : Sparse Word) : leaves freq = allBytes.filterMap (leafOf freq) := rfl

/-- Every leaf is the leaf of its symbol, whose frequency is not 0. -/
theorem eq_leafNode_of_mem_leaves {freq : Sparse Word} {n : NodeEntry} (h : n ∈ leaves freq) :
    Sparse.read freq n.symbol.toNat ≠ 0#32 ∧ n = leafNode (Sparse.read freq n.symbol.toNat) n.symbol := by
  rw [leaves_eq_filterMap, List.mem_filterMap] at h
  obtain ⟨v, -, hv⟩ := h
  obtain ⟨hne, rfl⟩ := (leafOf_eq_some_iff freq v n).mp hv
  exact ⟨hne, rfl⟩

/-- The leaves stand in ascending symbol order (R153). -/
theorem leaves_ascending (freq : Sparse Word) : (leaves freq).Pairwise fun m n => m.symbol.toNat < n.symbol.toNat := by
  refine allBytes_ascending.filterMap _ fun v w hlt m hm n hn => ?_
  obtain ⟨-, rfl⟩ := (leafOf_eq_some_iff freq v m).mp hm
  obtain ⟨-, rfl⟩ := (leafOf_eq_some_iff freq w n).mp hn
  exact hlt

theorem length_leaves_le (freq : Sparse Word) : (leaves freq).length ≤ 256 := by
  have h := List.length_filterMap_le (leafOf freq) allBytes
  simpa [leaves_eq_filterMap, allBytes, Config.alphabet] using h

/-- The leaves' frequencies sum to FREQ's sum: the entries that have no leaf are 0. -/
theorem sum_leaves_freq (freq : Sparse Word) : ((leaves freq).map fun n => n.freq.toNat).sum = freqSum freq := by
  have hall : allBytes.map (fun v => (Sparse.read freq v.toNat).toNat) =
      (List.range Config.alphabet).map fun v => (Sparse.read freq v).toNat := by
    rw [allBytes, List.map_map]
    refine List.map_congr_left fun v hv => ?_
    have hv := List.mem_range.mp hv
    rw [Config.alphabet] at hv
    simp [Nat.mod_eq_of_lt hv]
  have hsum : ∀ vs : List Byte, ((vs.filterMap (leafOf freq)).map fun n => n.freq.toNat).sum =
      (vs.map fun v => (Sparse.read freq v.toNat).toNat).sum := by
    intro vs
    induction vs with
    | nil => rfl
    | cons v vs ih =>
      by_cases hv : Sparse.read freq v.toNat = 0#32 <;> simp [leafOf, leafNode, hv] <;> exact ih
  rw [freqSum, ← hall, ← hsum, leaves_eq_filterMap]

theorem leaves_ne_nil {freq : Sparse Word} (h : freqSum freq ≠ 0) : leaves freq ≠ [] := by
  intro hnil
  exact h (by rw [← sum_leaves_freq, hnil]; rfl)

/-- The merge loop starts in its invariant: every leaf is queued (R150). -/
theorem merging_leaves {freq : Sparse Word} (h : freqSum freq ≠ 0) :
    Merging (leaves freq).length (freqSum freq) (leaves freq) (queueOf 0 (leaves freq)) := by
  have hq := queueOf_perm (leaves freq) 0
  have hids : ((leaves freq).zipIdx.map entryOf).map QueueEntry.id = List.range (leaves freq).length := by
    rw [List.map_map, List.range_eq_range', ← List.zipIdx_map_snd]
    rfl
  have hfreqs : ((leaves freq).zipIdx.map entryOf).map QueueEntry.freq = (leaves freq).map fun n => n.freq.toNat := by
    rw [List.map_map]
    conv_rhs => rw [← List.zipIdx_map_fst 0 (leaves freq), List.map_map]
    rfl
  have hlen : (queueOf 0 (leaves freq)).length = (leaves freq).length := by simpa using hq.length_eq
  refine { leaf_le := length_leaves_le freq, length_eq := by omega, queue_pos := ?_, ids_perm := ?_, freq_eq := ?_
           sum_eq := ?_, last_id := ?_, internal := ?_ }
  · exact hlen ▸ List.length_pos_iff.mpr (leaves_ne_nil h)
  · rw [childIds_eq_nil fun n hn => by rw [(eq_leafNode_of_mem_leaves hn).2]; rfl, List.append_nil]
    exact hids ▸ hq.map _
  · intro e he
    obtain ⟨⟨n, i⟩, hn, rfl⟩ := List.mem_map.mp (hq.mem_iff.mp he)
    exact ⟨n, by simpa [entryOf] using List.mem_zipIdx_iff_getElem?.mp hn, rfl⟩
  · rw [(hq.map _).sum_eq, hfreqs, sum_leaves_freq]
  · intro h1
    have hp := hq.map QueueEntry.id
    rw [hids, ← hlen, h1] at hp
    rw [← hlen, h1]
    exact List.perm_singleton.mp hp
  · intro id n hid hn
    have := (List.getElem?_eq_some_iff.mp hn).1
    omega

/-! ### The tree -/

/-- A memory whose entries from index 0 on are the leaves `ls` and the internal nodes `ms` of a finished merge loop holds
a tree of R156's shape. -/
theorem Merging.treeShape {total : Nat} {freq : Sparse Word} {ms : List NodeEntry} {e : QueueEntry}
    {node : Sparse NodeEntry} (h : Merging (leaves freq).length total (leaves freq ++ ms) [e])
    (hnode : ∀ id < (leaves freq ++ ms).length, Sparse.get? node id = (leaves freq ++ ms)[id]?) :
    TreeShape node (leaves freq).length ((leaves freq).length + ms.length) e.id := by
  obtain ⟨hk, hlen, -, hperm, -, -, hlast, hint⟩ := h
  simp only [List.length_append, List.length_singleton] at hlen hperm hlast hnode
  have hroot : e.id = (leaves freq).length + ms.length - 1 := by simpa using hlast
  have hleaf : ∀ id < (leaves freq).length, ∃ hid : id < (leaves freq).length,
      Sparse.get? node id = some (leaves freq)[id] := by
    intro id hid
    exact ⟨hid, by rw [hnode id (by omega), List.getElem?_append_left hid, List.getElem?_eq_getElem hid]⟩
  have hchild : (childIds (leaves freq ++ ms)).Nodup :=
    (List.nodup_append.mp (hperm.nodup_iff.mpr List.nodup_range)).2.1
  refine { leaf_pos := by omega, leaf_le := hk, count_eq := by omega, root_eq := by omega, leaf_node := ?_
           leaf_order := ?_, internal_node := ?_, parent_unique := ?_ }
  · intro id hid
    obtain ⟨hid, hn⟩ := hleaf id hid
    obtain ⟨hne, heq⟩ := eq_leafNode_of_mem_leaves (List.getElem_mem hid)
    exact ⟨_, hn, by rw [heq]; exact ⟨rfl, hne, rfl, rfl⟩⟩
  · intro i j m n hij hj hm hn
    obtain ⟨hi', hmi⟩ := hleaf i (by omega)
    obtain ⟨hj', hnj⟩ := hleaf j hj
    obtain rfl : (leaves freq)[i] = m := by simpa [hmi] using hm
    obtain rfl : (leaves freq)[j] = n := by simpa [hnj] using hn
    exact List.pairwise_iff_getElem.mp (leaves_ascending freq) i j hi' hj' hij
  · intro id hid hlt
    have hget := List.getElem?_eq_getElem (l := leaves freq ++ ms) (i := id) (by simpa using hlt)
    obtain ⟨h1, h2, h3, h4, h5, a, b, ha, hb, hf⟩ := hint id _ hid hget
    exact ⟨_, a, b, by rw [hnode id hlt, hget], h1, h2, h3, h4, h5, by rw [hnode _ (by omega), ha],
      by rw [hnode _ (by omega), hb], hf⟩
  · intro id hid
    have hmem : id ∈ childIds (leaves freq ++ ms) := by
      have h1 := hperm.mem_iff.mpr (List.mem_range.mpr (show id < _ by omega))
      rcases List.mem_append.mp h1 with h1 | h1
      · simp only [List.map_cons, List.map_nil, List.mem_singleton] at h1
        omega
      · exact h1
    obtain ⟨n, hn, hc⟩ := List.mem_flatMap.mp hmem
    rw [mem_children_iff] at hc
    obtain ⟨q, hq, rfl⟩ := List.mem_iff_getElem.mp hn
    have hql : q < (leaves freq).length + ms.length := by simpa using hq
    have hqn := List.getElem?_eq_getElem hq
    refine ⟨q, hql, ⟨_, by rw [hnode q hql, hqn], hc⟩, ?_⟩
    rintro r hr ⟨m, hm, hmc⟩
    exact parent_eq_of_nodup hchild (hnode r hr ▸ hm) hqn hmc hc

/-- A successful TREE_BUILD leaves a tree of R156's shape, of `k` leaves, in the first entries of the node pool, and
writes nothing else (R150). -/
theorem treeBuild_ok_treeShape {s t : State} (h : treeBuild s = .ok t) :
    ∃ pool : List NodeEntry, pool.length ≤ 511 ∧ t.nodeCount ≠ 0#10 ∧
      TreeShape t.mem.node t.leafCount.toNat t.nodeCount.toNat t.root.toNat ∧
      t = { s with leafCount := t.leafCount, nodeCount := t.nodeCount, root := t.root
                   mem := { s.mem with node := Sparse.setRange s.mem.node 0 pool } } := by
  obtain ⟨hpos, hle, merged, rfl, rfl⟩ := treeBuild_ok h
  have htotal : freqSum s.mem.freq < 2 ^ 32 := by rw [Config.freqSumMax] at hle; omega
  have hstart := merging_leaves hpos
  have hfuel : (queueOf 0 (leaves s.mem.freq)).length ≤ Config.alphabet - 1 + 1 := by
    have := hstart.length_eq
    have := hstart.leaf_le
    rw [Config.alphabet]
    omega
  obtain ⟨e, he, hend⟩ := mergeLoop_merging htotal (Config.alphabet - 1) hstart hfuel
  have hlen := hend.length_eq
  have hk := hend.leaf_le
  have hshape := hend.treeShape (node := Sparse.setRange s.mem.node 0 (leaves s.mem.freq ++
      (mergeLoop (Config.alphabet - 1) (queueOf 0 (leaves s.mem.freq)) (leaves s.mem.freq).length).1))
    fun id hid => by rw [get?_setRange, if_pos ⟨Nat.zero_le _, by omega⟩, Nat.sub_zero]
  simp only [List.length_append, List.length_singleton] at hlen
  have hroot := hshape.root_eq
  refine ⟨_, ?_, ?_, ?_, rfl⟩
  · rw [List.length_append]; omega
  · intro h0
    have := congrArg BitVec.toNat h0
    simp only [BitVec.toNat_ofNat] at this
    omega
  · rw [he] at hroot hshape
    simp only [BitVec.toNat_ofNat]
    rw [Nat.mod_eq_of_lt (by omega), Nat.mod_eq_of_lt (by omega), Nat.mod_eq_of_lt (by omega)]
    exact hshape

end Sys2Proof.Proofs
end

section
/-! PROOFS. The invariant of the machine: reset meets it and every step keeps it. -/

namespace Sys2Proof.Proofs

open Sys2Proof.Machine

/-! ### Bounds of memories -/

theorem below_iff {α : Type} (m : Sparse α) (b : Nat) : Sparse.below m b = true ↔ ∀ e ∈ m, e.1 < b := by
  simp [Sparse.below, List.all_eq_true]

theorem below_filter {α : Type} {m : Sparse α} {b : Nat} (p : Nat × α → Bool) (h : Sparse.below m b = true) :
    Sparse.below (m.filter p) b = true := by
  rw [below_iff] at h ⊢
  exact fun e he => h e (List.mem_of_mem_filter he)

theorem below_set {α : Type} {m : Sparse α} {b k : Nat} (v : α) (h : Sparse.below m b = true) (hk : k < b) :
    Sparse.below (Sparse.set m k v) b = true := by
  rw [below_iff] at h ⊢
  intro e he
  rcases mem_set he with rfl | he
  · exact hk
  · exact h e he

theorem below_write {w : Nat} {m : Sparse (BitVec w)} {b k : Nat} (v : BitVec w) (h : Sparse.below m b = true)
    (hk : k < b) : Sparse.below (Sparse.write m k v) b = true := by
  unfold Sparse.write
  split
  · exact below_filter _ h
  · exact below_set v h hk

theorem below_setRange {α : Type} {m : Sparse α} {b : Nat} (k : Nat) (vs : List α) (h : Sparse.below m b = true)
    (hk : k + vs.length ≤ b) : Sparse.below (Sparse.setRange m k vs) b = true := by
  induction vs generalizing m k with
  | nil => exact h
  | cons v vs ih =>
    rw [List.length_cons] at hk
    exact ih (k + 1) (below_set v h (by omega)) (by omega)

/-- The bounds, one memory at a time. -/
theorem inBounds_iff (p : Params) (m : Memory) : m.inBounds p = true ↔
    Sparse.below m.sym p.nMax = true ∧ Sparse.below m.freq 256 = true ∧ Sparse.below m.node 511 = true ∧
    Sparse.below m.codeLen 256 = true ∧ Sparse.below m.codeBits 256 = true ∧ Sparse.below m.out p.outMax = true ∧
    Sparse.below m.rleSym p.rleMax = true ∧ Sparse.below m.rleRun p.rleMax = true ∧
    Sparse.below m.dec p.nMax = true := by
  simp only [Memory.inBounds, Config.alphabet, Config.nodePool, Bool.and_eq_true, and_assoc]

/-! ### Sizes of what the commands write -/

theorem countSymbols_below (syms : List Byte) : Sparse.below (countSymbols syms) 256 = true := by
  have h : ∀ f : Sparse Word, Sparse.below f 256 = true → Sparse.below (syms.foldl countSymbol f) 256 = true := by
    induction syms with
    | nil => exact fun f hf => hf
    | cons v vs ih => exact fun f hf => ih _ (below_write _ hf v.isLt)
  exact h [] rfl

theorem length_runsFrom_le (cur : Byte) (run : Nat) (vs : List Byte) :
    (runsFrom cur run vs).length ≤ vs.length + 1 := by
  induction vs generalizing cur run with
  | nil => simp [runsFrom]
  | cons v vs ih =>
    rw [runsFrom, List.length_cons]
    split
    · exact (ih cur (run + 1)).trans (Nat.le_succ _)
    · exact Nat.succ_le_succ (ih v 1)

/-- There are no more runs than symbols. -/
theorem length_rleTokens_le (syms : List Byte) : (rleTokens syms).length ≤ syms.length := by
  cases syms with
  | nil => exact le_refl 0
  | cons v vs => exact length_runsFrom_le v 1 vs

/-- The expansion of tokens is as long as the sum of their runs. -/
theorem length_expandRuns {m : Memory} {t n total : Nat} {syms : List Byte} (hs : sumRuns m t n = .ok total)
    (he : expandRuns m t n = .ok syms) : syms.length = total := by
  induction n generalizing t total syms with
  | zero =>
    cases hs
    cases he
    rfl
  | succ n ih =>
    simp only [sumRuns, bind, Except.bind] at hs
    simp only [expandRuns, bind, Except.bind] at he
    cases hr : readOperand .rleRun m.rleRun t with
    | error x => simp [hr] at hs
    | ok run =>
      cases hv : readOperand .rleSym m.rleSym t with
      | error x => simp [hv] at he
      | ok v =>
        simp only [hr, hv] at hs he
        split_ifs at hs
        cases hs' : sumRuns m (t + 1) n with
        | error x => simp [hs'] at hs
        | ok rest =>
          cases he' : expandRuns m (t + 1) n with
          | error x => simp [he'] at he
          | ok vs =>
            simp only [hs', he', pure, Except.pure, Except.ok.injEq] at hs he
            rw [← hs, ← he, List.length_append, List.length_replicate, ih hs' he']

theorem length_streamBytes (n : Nat) (stream : Bits) : (streamBytes n stream).length = n := by
  induction n generalizing stream with
  | zero => rfl
  | succ n ih => rw [streamBytes, List.length_cons, ih]

theorem length_decodeSymbols {table : List (Byte × Bits)} {maxLen n : Nat} {data : Bits} {syms : List Byte}
    (h : decodeSymbols table maxLen n data = some syms) : syms.length = n := by
  induction n generalizing data syms with
  | zero =>
    unfold decodeSymbols at h
    split_ifs at h
    cases h
    rfl
  | succ n ih =>
    rw [decodeSymbols] at h
    split at h
    · cases h
    · obtain ⟨vs, hvs, rfl⟩ := Option.map_eq_some_iff.mp h
      rw [List.length_cons, ih hvs]

/-- Recording codes stays within the 256 entries of CODE and leaves the other memories alone. -/
theorem recordCodes_inBounds {p : Params} {m : Memory} (codes : List (Byte × Bits)) (h : m.inBounds p = true) :
    (recordCodes m codes).inBounds p = true := by
  have step : ∀ m : Memory, m.inBounds p = true → (codes.foldl recordCode m).inBounds p = true := by
    induction codes with
    | nil => exact fun m h => h
    | cons c cs ih =>
      intro m h
      obtain ⟨h1, h2, h3, h4, h5, h6⟩ := (inBounds_iff p m).mp h
      exact ih _ ((inBounds_iff p _).mpr
        ⟨h1, h2, h3, below_write _ h4 c.1.isLt, below_write _ h5 c.1.isLt, h6⟩)
  obtain ⟨h1, h2, h3, -, -, h6⟩ := (inBounds_iff p m).mp h
  exact step _ ((inBounds_iff p _).mpr ⟨h1, h2, h3, rfl, rfl, h6⟩)

theorem recordCodes_node (m : Memory) (codes : List (Byte × Bits)) : (recordCodes m codes).node = m.node := by
  have step : ∀ m : Memory, (codes.foldl recordCode m).node = m.node := by
    induction codes with
    | nil => exact fun m => rfl
    | cons c cs ih => exact fun m => ih (recordCode m c)
  exact step _

/-! ### The part of the invariant that is not about STATUS -/

/-- The invariant without STATUS and the latch: what the commands' pseudocode has to keep. -/
structure BlockOk (s : State) : Prop where
  params_legal : s.params.legal = true
  memory_wf : s.mem.wf = true
  memory_inBounds : s.mem.inBounds s.params = true
  counts_ok : CountsOk s
  tree_ok : TreeOk s

theorem inv_iff (s : State) : Inv s ↔ BlockOk s ∧ StatusOk s :=
  ⟨fun ⟨hp, hs, hw, hb, hc, ht⟩ => ⟨⟨hp, hw, hb, hc, ht⟩, hs⟩, fun ⟨⟨hp, hw, hb, hc, ht⟩, hs⟩ => ⟨hp, hs, hw, hb, hc, ht⟩⟩

/-- Two states that agree in everything `BlockOk` speaks of. -/
structure SameBlock (s t : State) : Prop where
  params_eq : t.params = s.params := by rfl
  mem_eq : t.mem = s.mem := by rfl
  leafCount_eq : t.leafCount = s.leafCount := by rfl
  nodeCount_eq : t.nodeCount = s.nodeCount := by rfl
  root_eq : t.root = s.root := by rfl
  padding_eq : t.padding = s.padding := by rfl
  decCount_eq : t.decCount = s.decCount := by rfl

theorem BlockOk.of_same {s t : State} (h : BlockOk s) (e : SameBlock s t) : BlockOk t := by
  obtain ⟨hp, hw, hb, ⟨hl, hn, hr, hpad, hd⟩, ht⟩ := h
  obtain ⟨e1, e2, e3, e4, e5, e6, e7⟩ := e
  unfold TreeOk at ht
  refine ⟨?_, ?_, ?_, ⟨?_, ?_, ?_, ?_, ?_⟩, ?_⟩
  all_goals simp only [TreeOk, e1, e2, e3, e4, e5, e6, e7]; assumption

theorem statusOk_of_same {s t : State} (h : StatusOk s) (hst : t.status = s.status) (hl : t.latch = s.latch)
    (hp : t.pending = s.pending) : StatusOk t := by
  obtain ⟨h1, h2, h3, h4, h5, h6⟩ := h
  constructor <;> simp only [hst, hl, hp] <;> assumption

/-- The invariant does not speak of the host's own fields, nor of the registers that no bound or tree depends on. -/
theorem inv_of_same {s t : State} (h : Inv s) (e : SameBlock s t) (hst : t.status = s.status := by rfl)
    (hl : t.latch = s.latch := by rfl) (hp : t.pending = s.pending := by rfl) : Inv t := by
  obtain ⟨hb, hs⟩ := (inv_iff s).mp h
  exact (inv_iff t).mpr ⟨hb.of_same e, statusOk_of_same hs hst hl hp⟩

/-- A change of memory within its bounds and in canonical form, that leaves the node pool alone. -/
theorem BlockOk.withMem {s : State} (h : BlockOk s) (m : Memory) (hw : m.wf = true) (hb : m.inBounds s.params = true)
    (hnode : m.node = s.mem.node) : BlockOk { s with mem := m } := by
  obtain ⟨hp, -, -, ⟨hl, hn, hr, hpad, hd⟩, ht⟩ := h
  refine ⟨hp, hw, hb, ⟨hl, hn, hr, hpad, hd⟩, ?_⟩
  unfold TreeOk at ht ⊢
  rwa [← hnode] at ht

/-- A number cut to a field's width is no greater. -/
theorem toNat_ofNat_le (w n : Nat) : (BitVec.ofNat w n).toNat ≤ n :=
  (BitVec.toNat_ofNat n w).trans_le (Nat.mod_le _ _)

section Commands
variable {s t : State} (hs : BlockOk s)
include hs

theorem clearState_blockOk : BlockOk (clearState s) := by
  obtain ⟨hp, hw, hb, -, -⟩ := hs
  obtain ⟨h1, -, h3, -, -, h6⟩ := (inBounds_iff _ _).mp hb
  exact ⟨hp, clearState_wf s hw, (inBounds_iff _ _).mpr ⟨h1, rfl, h3, rfl, rfl, h6⟩, by constructor <;> simp,
    if_pos rfl |>.mpr ⟨rfl, rfl⟩⟩

theorem freqCount_blockOk (h : freqCount s = .ok t) : BlockOk t := by
  have hw := freqCount_wf h hs.memory_wf
  obtain ⟨syms, -, -, -, -, rfl⟩ := freqCount_ok h
  obtain ⟨h1, -, h3⟩ := (inBounds_iff _ _).mp hs.memory_inBounds
  exact hs.withMem _ hw ((inBounds_iff _ _).mpr ⟨h1, countSymbols_below syms, h3⟩) rfl

theorem rleEncode_blockOk (h : rleEncode s = .ok t) : BlockOk t := by
  have hw := rleEncode_wf h hs.memory_wf
  obtain ⟨syms, -, hN, hlen, -, rfl⟩ := rleEncode_ok h
  have hfit : (rleTokens syms).length ≤ s.params.rleMax := by
    have hle := length_rleTokens_le syms
    have hp := hs.params_legal
    simp only [Params.legal, Bool.and_eq_true, decide_eq_true_eq] at hp
    omega
  obtain ⟨h1, h2, h3, h4, h5, h6, h7, h8, h9⟩ := (inBounds_iff _ _).mp hs.memory_inBounds
  exact (hs.withMem _ hw ((inBounds_iff _ _).mpr ⟨h1, h2, h3, h4, h5, h6,
    below_setRange 0 _ h7 (by rwa [List.length_map, Nat.zero_add]),
    below_setRange 0 _ h8 (by rwa [List.length_map, Nat.zero_add]), h9⟩) rfl).of_same {}

theorem rleDecode_blockOk (h : rleDecode s = .ok t) : BlockOk t := by
  obtain ⟨hp, hw, hb, ⟨hl, hn, hr, hpad, hd⟩, ht⟩ := hs
  have hw' := rleDecode_wf h hw
  obtain ⟨syms, -, hN, -, hsum, hexp, rfl⟩ := rleDecode_ok h
  obtain ⟨h1, h2, h3, h4, h5, h6, h7, h8, h9⟩ := (inBounds_iff _ _).mp hb
  have hlen := length_expandRuns hsum hexp
  exact ⟨hp, hw', (inBounds_iff _ _).mpr ⟨h1, h2, h3, h4, h5, h6, h7, h8,
    below_setRange 0 _ h9 (by dsimp only; omega)⟩,
    ⟨hl, hn, hr, hpad, (toNat_ofNat_le _ _).trans hN⟩, ht⟩

theorem treeBuild_blockOk (h : treeBuild s = .ok t) : BlockOk t := by
  obtain ⟨hp, hw, hb, ⟨-, -, -, hpad, hd⟩, -⟩ := hs
  have hw' := treeBuild_wf h hw
  obtain ⟨pool, hpool, hne, hshape, heq⟩ := treeBuild_ok_treeShape h
  obtain ⟨h1, h2, h3, h4⟩ := (inBounds_iff _ _).mp hb
  have hk := hshape.leaf_le
  have hcount := hshape.count_eq
  have hroot := hshape.root_eq
  rw [Config.alphabet] at hk
  have ht : TreeOk t := (if_neg hne).mpr hshape
  rw [heq] at hw' ht ⊢
  exact ⟨hp, hw', (inBounds_iff _ _).mpr ⟨h1, h2, below_setRange 0 _ h3 (by omega), h4⟩,
    ⟨hk, by dsimp only; omega, by dsimp only; omega, hpad, hd⟩, ht⟩

theorem codeGen_blockOk (h : codeGen s = .ok t) : BlockOk t := by
  have hw := codeGen_wf h hs.memory_wf
  obtain ⟨-, codes, -, rfl⟩ := codeGen_ok h
  exact (hs.withMem _ hw (recordCodes_inBounds codes hs.memory_inBounds) (recordCodes_node s.mem codes)).of_same {}

theorem pack_blockOk (h : pack s = .ok t) : BlockOk t := by
  obtain ⟨hp, hw, hb, ⟨hl, hn, hr, -, hd⟩, ht⟩ := hs
  have hw' := pack_wf h hw
  obtain ⟨codes, -, -, -, hle, rfl⟩ := pack_ok h
  obtain ⟨h1, h2, h3, h4, h5, h6, h7⟩ := (inBounds_iff _ _).mp hb
  exact ⟨hp, hw', (inBounds_iff _ _).mpr ⟨h1, h2, h3, h4, h5,
    below_setRange 0 _ h6 (by rw [length_streamBytes, Nat.zero_add]; exact hle), h7⟩,
    ⟨hl, hn, hr, (toNat_ofNat_le _ _).trans (Nat.sub_le _ _), hd⟩, ht⟩

theorem unpack_blockOk (h : unpack s = .ok t) : BlockOk t := by
  obtain ⟨hp, hw, hb, ⟨hl, hn, hr, hpad, -⟩, ht⟩ := hs
  have hw' := unpack_wf h hw
  obtain ⟨p, bytes, syms, -, hN, -, -, -, hp8, -, -, hdec, rfl⟩ := unpack_ok h
  obtain ⟨h1, h2, h3, h4, h5, h6, h7, h8, h9⟩ := (inBounds_iff _ _).mp hb
  have hlen := length_decodeSymbols hdec
  have hpad' : (p.setWidth 4).toNat ≤ 8 := by
    rw [BitVec.toNat_setWidth]
    exact (Nat.mod_le _ _).trans hp8
  exact ⟨hp, hw', (inBounds_iff _ _).mpr ⟨h1, h2, h3, h4, h5, h6, h7, h8,
    below_setRange 0 _ h9 (by dsimp only; omega)⟩, ⟨hl, hn, hr, hpad', (toNat_ofNat_le _ _).trans hN⟩, ht⟩

theorem forgetDecoded_blockOk : BlockOk (forgetDecoded s) := by
  obtain ⟨hp, hw, hb, ⟨hl, hn, hr, hpad, -⟩, ht⟩ := hs
  obtain ⟨h1, h2, h3, h4, h5, h6, h7, h8, h9⟩ := (inBounds_iff _ _).mp hb
  exact ⟨hp, forgetDecoded_wf s hw, (inBounds_iff _ _).mpr ⟨h1, h2, h3, h4, h5, h6, h7, h8, below_filter _ h9⟩,
    ⟨hl, hn, hr, hpad, Nat.zero_le _⟩, ht⟩

theorem unpackResult_blockOk : Ends (fun _ u => BlockOk u) (unpackResult s) := by
  unfold unpackResult
  split
  · next h => exact .done (unpack_blockOk hs h)
  · exact .raised (forgetDecoded_blockOk hs)
  · exact .raised hs
  · exact .fault _

/-- Every command's pseudocode keeps the block's part of the invariant, whether it ends in an error or not. -/
theorem commandResult_blockOk (i : Instr) : Ends (fun _ u => BlockOk u) (commandResult i s) := by
  have lift : ∀ {f : State → Except Stop State}, (∀ {s t}, BlockOk s → f s = .ok t → BlockOk t) → ∀ s, BlockOk s →
      Ends (fun _ u => BlockOk u) (CommandResult.ofExcept s (f s)) :=
    fun hf s hs => ends_ofExcept (fun _ h => hf hs h) fun _ _ => hs
  cases i with
  | nop => exact .done hs
  | clear => exact .done (clearState_blockOk hs)
  | freqCount => exact lift freqCount_blockOk s hs
  | rleEncode => exact lift rleEncode_blockOk s hs
  | rleDecode => exact lift rleDecode_blockOk s hs
  | treeBuild => exact lift treeBuild_blockOk s hs
  | codeGen => exact lift codeGen_blockOk s hs
  | pack => exact lift pack_blockOk s hs
  | unpack => exact unpackResult_blockOk hs
  | huffEncode =>
    exact ends_andThen (ends_andThen (ends_andThen (lift freqCount_blockOk s hs) (lift treeBuild_blockOk))
      (lift codeGen_blockOk)) (lift pack_blockOk)

end Commands

/-! ### Reset -/

theorem reset_blockOk {p : Params} (hp : p.legal = true) : BlockOk (State.resetWith p) :=
  ⟨hp, reset_memory_wf p, rfl, by constructor <;> simp [State.resetWith], if_pos rfl |>.mpr ⟨rfl, rfl⟩⟩

theorem reset_statusOk (p : Params) : StatusOk (State.resetWith p) := by
  constructor <;> simp [State.resetWith, Status.reset]

/-- Settles O15: nothing is listed, there is no tree, and STATUS is 0. -/
theorem resetMeetsInvariant : Obligations.ResetMeetsInvariant :=
  fun p hp => (inv_iff _).mpr ⟨reset_blockOk hp, reset_statusOk p⟩

/-! ### Acceptance and completion -/

theorem accept_statusOk (c : Word) (s : State) : StatusOk (accept c s) := by
  constructor <;> simp

/-- Completion makes STATUS consistent again, where the pseudocode left it alone. -/
theorem completeCommand_statusOk {s u : State} (e : Option ErrorCode) (h : StatusOk s) (hu : u.status = s.status) :
    StatusOk (completeCommand e u) := by
  obtain ⟨-, -, -, herr, hnoErr, -⟩ := h
  rw [← hu] at herr hnoErr
  obtain ⟨hbusy, hdone, -⟩ := status_complete_fields e u.status
  refine ⟨hbusy.symm, fun hb => absurd (hbusy.symm.trans hb) nofun, fun _ => hdone, ?_, ?_, nofun⟩
  · cases e with
    | none => exact herr
    | some e => exact fun _ => errorCode_range e
  · cases e with
    | none => exact hnoErr
    | some e => exact nofun

/-! ### The step -/

theorem writeTarget_blockOk {s : State} {a : Word} {t : Target} (v : Word) (h : BlockOk s)
    (ht : Reaches s.params a t) : BlockOk (writeTarget s v t) := by
  have hw := writeTarget_wf s v t h.memory_wf
  obtain ⟨h1, h2, h3, h4, h5, h6, h7, h8, h9⟩ := (inBounds_iff _ _).mp h.memory_inBounds
  have bounds := fun m => (inBounds_iff s.params m).mpr
  cases t with
  | reg r => cases r <;> exact h.of_same {}
  | sym i => exact h.withMem _ hw (bounds _ ⟨below_set _ h1 ht, h2, h3, h4, h5, h6, h7, h8, h9⟩) rfl
  | freq k => exact h.withMem _ hw (bounds _ ⟨h1, below_write _ h2 ht, h3, h4, h5, h6, h7, h8, h9⟩) rfl
  | node id w => exact h
  | codeLen k => exact h.withMem _ hw (bounds _ ⟨h1, h2, h3, below_write _ h4 ht, h5, h6, h7, h8, h9⟩) rfl
  | codeBits k j => exact h.withMem _ hw (bounds _ ⟨h1, h2, h3, h4, below_write _ h5 ht.1, h6, h7, h8, h9⟩) rfl
  | out j => exact h.withMem _ hw (bounds _ ⟨h1, h2, h3, h4, h5, below_set _ h6 ht, h7, h8, h9⟩) rfl
  | rleSym k => exact h.withMem _ hw (bounds _ ⟨h1, h2, h3, h4, h5, h6, below_set _ h7 ht, h8, h9⟩) rfl
  | rleRun k => exact h.withMem _ hw (bounds _ ⟨h1, h2, h3, h4, h5, h6, h7, below_set _ h8 ht, h9⟩) rfl
  | dec i => exact h

theorem portWrite_inv {s : State} (a v : Word) (h : Inv s) : Inv (portWrite s a v) := by
  rcases portWrite_cases s a v with heq | ⟨-, t, ht, heq⟩
  · rwa [heq]
  · obtain ⟨hb, hs⟩ := (inv_iff s).mp h
    rw [heq, inv_iff]
    refine ⟨writeTarget_blockOk v hb ht, ?_⟩
    rcases writeTarget_control s v t with rfl | ⟨hst, hl, hp⟩
    · exact accept_statusOk v s
    · exact statusOk_of_same hs hst hl hp

/-- Every statement of the host keeps the invariant. -/
theorem hostStep_inv {s t : State} (h : Inv s) (hstep : hostStep s = .next t) : Inv t := by
  rcases hostStep_next_cases hstep with ⟨-, rfl⟩ | ⟨a, v, rest, -, -, rfl⟩ | ⟨a, x, rest, -, rfl⟩ |
    ⟨rest, -, rfl | rfl⟩ | ⟨rest, -, rfl⟩
  · exact h
  · exact portWrite_inv a v (inv_of_same h {})
  · exact inv_of_same h {}
  · exact inv_of_same h {}
  · exact inv_of_same h {}
  · exact inv_of_same (resetMeetsInvariant _ h.params_legal) {}

/-- Every command keeps the invariant. -/
theorem exec_inv {i : Instr} {s t : State} (h : Inv s) (hstep : exec i s = .next t) : Inv t := by
  obtain ⟨hb, hs⟩ := (inv_iff s).mp h
  obtain ⟨e, u, ⟨hu, hst⟩, rfl⟩ := exec_next_of_ends hstep ((commandResult_blockOk hb i).and (commandResult_status i s))
  exact (inv_iff _).mpr ⟨hu.of_same {}, completeCommand_statusOk e hs hst⟩

/-- Settles O16, one case for each thing that a step can do. -/
theorem stepKeepsInvariant : Obligations.StepKeepsInvariant := by
  intro s t h hstep
  have hturn : Inv (takeTurn s) := inv_of_same h {}
  rcases step_next_cases hstep with ⟨-, i, -, hexec⟩ | ⟨-, -, rfl⟩ | ⟨-, hhost⟩ | ⟨-, rfl⟩
  · exact exec_inv hturn hexec
  · obtain ⟨hb, hs⟩ := (inv_iff _).mp hturn
    exact (inv_iff _).mpr ⟨hb.of_same {}, completeCommand_statusOk _ hs rfl⟩
  · exact hostStep_inv hturn hhost
  · exact h

end Sys2Proof.Proofs
end

section
/-! PROOFS. Accesses of the host: what lies outside the register map and the windows, what the element windows read and
store, and the host's reads and narrow accesses (20_memory.md R62 to R71, 30_encoding.md R96). -/

namespace Sys2Proof.Proofs

open Sys2Proof.Machine Sys2Proof.Stated

/-! ### Misaligned and reserved addresses (R66, R67) -/

theorem resolve_of_misaligned (p : Params) {a : Word} (h : addrAlign a ≠ 0#2) : resolve p a = none := if_pos h

theorem regOffset_le (r : Reg) : regOffset r ≤ 0x48 := by cases r <;> decide

/-- CAP_RLE is the last register of the map. -/
theorem regAt_of_gt {o : Nat} (h : 0x48 < o) : regAt o = none := by
  refine Option.eq_none_iff_forall_ne_some.mpr fun r hr => ?_
  have hle := regOffset_le r
  rw [← regOffset_of_regAt hr] at hle
  omega

/-- R66, one region after the other. -/
theorem resolve_of_reserved {p : Params} {a : Word} (h : reservedAddr p a) : resolve p a = none := by
  by_cases ha : addrAlign a = 0#2
  · unfold resolve addrRegion
    unfold reservedAddr at h
    dsimp only at h ⊢
    rw [if_neg (not_not.mpr ha)]
    generalize (a.extractLsb' 28 4).toNat = r at h ⊢
    match r, h with
    | 0, h => exact Option.map_eq_none_iff.mpr (regAt_of_gt h)
    | 1, h => exact if_neg (Nat.not_lt.mpr h)
    | 2, h => exact if_neg (Nat.not_lt.mpr h)
    | 3, h => exact if_neg (Nat.not_lt.mpr h)
    | 4, .inl h => exact if_pos h
    | 4, .inr h =>
      have h0 : addrIndex a % 16 ≠ 0 := Nat.ne_of_gt (Nat.lt_of_lt_of_le (by decide) h)
      have h8 : ¬ addrIndex a % 16 ≤ 8 := Nat.not_le.mpr h
      simp only [h0, h8, if_false, ite_self]
    | 5, h => exact if_neg (Nat.not_lt.mpr h)
    | 6, h => exact if_pos h
    | 7, h => exact if_neg (Nat.not_lt.mpr h)
    | _ + 8, _ => rfl
  · exact resolve_of_misaligned p ha

/-- Settles O18: such an address leads to nothing. -/
theorem reservedAndMisalignedDoNothing : Obligations.ReservedAndMisalignedDoNothing := by
  intro s a d v hb h
  have hnone : resolve s.params a = none := h.elim (resolve_of_misaligned _) resolve_of_reserved
  exact ⟨portRead_of_unresolved d hnone hb, portWrite_of_unresolved v hnone⟩

/-! ### The element windows (R38, R40, R45 to R47) -/

theorem resolve_freqAddr (p : Params) {v : Nat} (hv : v < 256) : resolve p (freqAddr v) = some (.freq v) := by
  obtain ⟨ha, hr, hi⟩ := windowAddr_fields (r := 2) (i := v) (by omega) (by omega)
  simp [resolve, freqAddr, ha, hr, hi, hv]

/-- The upper bounds of R10, by which every element has an address in its window. -/
theorem legal_bounds {p : Params} (h : p.legal = true) : p.nMax ≤ 2 ^ 24 ∧ p.outMax ≤ 2 ^ 26 ∧ p.rleMax ≤ 2 ^ 25 := by
  simp only [Params.legal, Bool.and_eq_true, decide_eq_true_eq] at h
  omega

section Windows
variable {p : Params} (hp : p.legal = true)
include hp

theorem resolve_symAddr {i : Nat} (hi : i < p.nMax) : resolve p (symAddr i) = some (.sym i) := by
  obtain ⟨hle, -, -⟩ := legal_bounds hp
  obtain ⟨ha, hr, hx⟩ := windowAddr_fields (r := 1) (i := i) (by omega) (by omega)
  simp [resolve, symAddr, ha, hr, hx, hi]

theorem resolve_decAddr {i : Nat} (hi : i < p.nMax) : resolve p (decAddr i) = some (.dec i) := by
  obtain ⟨hle, -, -⟩ := legal_bounds hp
  obtain ⟨ha, hr, hx⟩ := windowAddr_fields (r := 7) (i := i) (by omega) (by omega)
  simp [resolve, decAddr, ha, hr, hx, hi]

theorem resolve_outAddr {j : Nat} (hj : j < p.outMax) : resolve p (outAddr j) = some (.out j) := by
  obtain ⟨-, hle, -⟩ := legal_bounds hp
  obtain ⟨ha, hr, hx⟩ := windowAddr_fields (r := 5) (i := j) (by omega) (by omega)
  simp [resolve, outAddr, ha, hr, hx, hj]

theorem resolve_rleSymAddr {k : Nat} (hk : k < p.rleMax) : resolve p (rleSymAddr k) = some (.rleSym k) := by
  obtain ⟨-, -, hle⟩ := legal_bounds hp
  obtain ⟨ha, hr, hx⟩ := windowAddr_fields (r := 6) (i := 2 * k) (by omega) (by omega)
  simp [resolve, rleSymAddr, ha, hr, hx, hk]

theorem resolve_rleRunAddr {k : Nat} (hk : k < p.rleMax) : resolve p (rleRunAddr k) = some (.rleRun k) := by
  obtain ⟨-, -, hle⟩ := legal_bounds hp
  obtain ⟨ha, hr, hx⟩ := windowAddr_fields (r := 6) (i := 2 * k + 1) (by omega) (by omega)
  have hlt : ¬ 2 * p.rleMax ≤ 2 * k + 1 := by omega
  have hdiv : (2 * k + 1) / 2 = k := by omega
  simp [resolve, rleRunAddr, ha, hr, hx, hlt, hdiv]

end Windows

/-- Settles O19: an index of a window leads to its element, whose 32-bit view the read returns. -/
theorem windowsReadTheirElements : Obligations.WindowsReadTheirElements := by
  intro s d hp hb
  have read : ∀ {a t}, resolve s.params a = some t → portRead s a d = targetWord s d t :=
    fun h => portRead_of_resolve d h (.inl hb)
  exact ⟨fun i hi => ⟨read (resolve_symAddr hp hi), read (resolve_decAddr hp hi)⟩,
    fun v hv => read (resolve_freqAddr _ hv), fun j hj => read (resolve_outAddr hp hj),
    fun k hk => ⟨read (resolve_rleSymAddr hp hk), read (resolve_rleRunAddr hp hk)⟩⟩

/-- Settles O20: an index of a window leads to its element, and a write to it is one write to that memory, or none. -/
theorem windowWritesStoreTheirElements : Obligations.WindowWritesStoreTheirElements := by
  intro s v hp hb
  have write : ∀ {a t}, resolve s.params a = some t → portWrite s a v = writeTarget s v t :=
    fun h => portWrite_of_resolve v h hb
  exact ⟨fun i hi => ⟨_, write (resolve_symAddr hp hi), rfl, get?_set _ _ _⟩,
    fun k hk => ⟨_, write (resolve_freqAddr _ hk), rfl, read_write _ _ _⟩,
    fun j hj => ⟨_, write (resolve_outAddr hp hj), rfl, get?_set _ _ _⟩,
    fun k hk => ⟨_, write (resolve_rleSymAddr hp hk), rfl, get?_set _ _ _⟩,
    fun k hk => ⟨_, write (resolve_rleRunAddr hp hk), rfl, get?_set _ _ _⟩,
    fun id hid w hw => write (resolve_nodeAddr _ hid hw), fun i hi => write (resolve_decAddr hp hi)⟩

/-! ### The loader (R70) -/

theorem loadScript_of_wellFormed {p : Script} (s : State) (h : p.wellFormed = true) :
    loadScript p s = .next { s with script := s.script ++ p } := by
  have hnone : p.find? (fun st => !st.wellFormed) = none := by simpa [Script.wellFormed] using h
  rw [loadScript, hnone]

/-- A script that is not well formed is refused at its first narrow access. -/
theorem loadScript_of_not_wellFormed {p : Script} (s : State) (h : p.wellFormed = false) :
    ∃ a n, loadScript p s = .refused (.narrowAccess a n) := by
  have hfound : (p.find? fun st => !st.wellFormed).isSome = true := by simpa [Script.wellFormed] using h
  obtain ⟨st, hst⟩ := Option.isSome_iff_exists.mp hfound
  have hnarrow := List.find?_some hst
  rw [loadScript, hst]
  cases st with
  | narrowRead a n x => exact ⟨a, n, rfl⟩
  | narrowWrite a n v => exact ⟨a, n, rfl⟩
  | _ => cases hnarrow

/-! ### The host's step on a read and on a narrow access (R70, R71, R96) -/

theorem step_of_host {s : State} (h : whoMoves s = some .host) : step s = hostStep (takeTurn s) := by
  rw [step, h]

section HostStep
variable {s : State} {a v : Word} {n : Nat} {x : String} {rest : Script}

theorem hostStep_of_rd (h : s.script = .rd a x :: rest) :
    hostStep s = .next (hostRead a x { s with script := rest }) := by
  rw [hostStep, h]

theorem hostStep_of_narrowRead (h : s.script = .narrowRead a n x :: rest) :
    hostStep s = .refused (.narrowAccess a n) := by
  rw [hostStep, h]

theorem hostStep_of_narrowWrite (h : s.script = .narrowWrite a n v :: rest) :
    hostStep s = .refused (.narrowAccess a n) := by
  rw [hostStep, h]

end HostStep

/-- Settles O25: the loader looks for the first narrow access, and the host's step refuses the one it meets. -/
theorem narrowAccessesRefused : Obligations.NarrowAccessesRefused :=
  ⟨fun _ s => ⟨loadScript_of_wellFormed s, loadScript_of_not_wellFormed s⟩, fun s _ _ _ _ _ hw =>
    ⟨fun hs => (step_of_host hw).trans (hostStep_of_narrowRead (s := takeTurn s) hs),
      fun hs => (step_of_host hw).trans (hostStep_of_narrowWrite (s := takeTurn s) hs)⟩⟩

/-- A name is bound to the value of its newest binding (log 20). -/
@[simp] theorem boundValue_bindRead_self (x : String) (v : Word) (s : State) :
    boundValue x (bindRead x v s) = some v := by
  simp [boundValue]

/-- A read does not depend on the host's script and schedule. -/
theorem portRead_of_script_sched (s : State) (a d : Word) (rest : Script) (sched : List Agent) :
    portRead { s with script := rest, sched := sched } a d = portRead s a d := by
  unfold portRead
  cases resolve s.params a with
  | none => rfl
  | some t => cases t <;> rfl

/-- Settles O26: the step is one binding, in a state that differs from `s` in the host's own fields only. -/
theorem readsHaveNoSideEffect : Obligations.ReadsHaveNoSideEffect := by
  intro s a x rest hs hw
  refine ⟨_, (step_of_host hw).trans (hostStep_of_rd (s := takeTurn s) hs), ?_, rfl⟩
  rw [hostRead, boundValue_bindRead_self]
  exact congrArg some (portRead_of_script_sched s a _ rest _)

end Sys2Proof.Proofs
end

section
/-! PROOFS. The encoding of command words (30_encoding.md R90 to R95) and their byte view (20_memory.md R69). -/

namespace Sys2Proof.Proofs

open Sys2Proof.Machine

/-! ### The opcode map (R92) -/

theorem tableWord (i : Instr) : Laws.TableWord.Statement i := by
  cases i with
  | nop => exact Laws.TableWord.nop
  | clear => exact Laws.TableWord.clear
  | freqCount => exact Laws.TableWord.freqCount
  | rleEncode => exact Laws.TableWord.rleEncode
  | rleDecode => exact Laws.TableWord.rleDecode
  | treeBuild => exact Laws.TableWord.treeBuild
  | codeGen => exact Laws.TableWord.codeGen
  | pack => exact Laws.TableWord.pack
  | unpack => exact Laws.TableWord.unpack
  | huffEncode => exact Laws.TableWord.huffEncode

theorem opField_encode (i : Instr) : opField (encode i) = opcode i := (tableWord i).2.1

theorem rsvField_encode (i : Instr) : rsvField (encode i) = 0#24 := (tableWord i).2.2.1

theorem decodeOp_ok_iff (op : Byte) (i : Instr) : decodeOp op = .ok i ↔ op = opcode i := by
  constructor
  · intro h
    unfold decodeOp at h
    split_ifs at h <;> cases h <;> assumption
  · rintro rfl
    exact (tableWord i).2.2.2

/-- The ten opcodes of R92 are the opcodes of the ten commands. -/
theorem mem_opcodes_iff (op : Byte) :
    op ∈ [0x00#8, 0x01#8, 0x10#8, 0x20#8, 0x21#8, 0x30#8, 0x40#8, 0x50#8, 0x51#8, 0x60#8] ↔ ∃ i, op = opcode i := by
  constructor
  · intro h
    simp only [List.mem_cons, List.not_mem_nil, or_false] at h
    rcases h with rfl | rfl | rfl | rfl | rfl | rfl | rfl | rfl | rfl | rfl
    exacts [⟨.nop, rfl⟩, ⟨.clear, rfl⟩, ⟨.freqCount, rfl⟩, ⟨.rleEncode, rfl⟩, ⟨.rleDecode, rfl⟩, ⟨.treeBuild, rfl⟩,
      ⟨.codeGen, rfl⟩, ⟨.pack, rfl⟩, ⟨.unpack, rfl⟩, ⟨.huffEncode, rfl⟩]
  · rintro ⟨i, rfl⟩
    cases i <;> decide

/-! ### Words and their fields (R90, R93) -/

theorem rsvField_append_opField (c : Word) : rsvField c ++ opField c = c :=
  (BitVec.extractLsb'_append_extractLsb'_eq_extractLsb' rfl).trans BitVec.extractLsb'_eq_self

/-- A word decodes to the command whose opcode is its OP, provided RSV is 0 (R93). -/
theorem decode_ok_iff_fields (c : Word) (i : Instr) : decode c = .ok i ↔ rsvField c = 0#24 ∧ opField c = opcode i := by
  unfold decode
  split_ifs with h
  · simp [h]
  · simp [decodeOp_ok_iff, not_not.mp h]

theorem decode_ok_iff (c : Word) (i : Instr) : decode c = .ok i ↔ c = encode i := by
  rw [decode_ok_iff_fields]
  constructor
  · rintro ⟨hr, ho⟩
    rw [← rsvField_append_opField c, hr, ho, encode]
  · rintro rfl
    exact ⟨rsvField_encode i, opField_encode i⟩

theorem decode_encode (i : Instr) : decode (encode i) = .ok i := (decode_ok_iff _ i).mpr rfl

/-- The four bytes of a port word make up the word (R69). -/
theorem wordOfBytes_byteOfWord (w : Word) :
    wordOfBytes (byteOfWord w 0) (byteOfWord w 1) (byteOfWord w 2) (byteOfWord w 3) = w := by
  have h3 : w.extractLsb' 24 8 ++ w.extractLsb' 16 8 = w.extractLsb' 16 16 :=
    BitVec.extractLsb'_append_extractLsb'_eq_extractLsb' rfl
  have h2 : w.extractLsb' 16 16 ++ w.extractLsb' 8 8 = w.extractLsb' 8 24 :=
    BitVec.extractLsb'_append_extractLsb'_eq_extractLsb' rfl
  dsimp only [wordOfBytes, byteOfWord]
  rw [h3, h2]
  exact rsvField_append_opField w

/-- An illegal word, once accepted, completes with ILLEGAL_COMMAND (R93). -/
theorem engineStep_accept_of_illegal {c : Word} (h : ∀ i, decode c ≠ .ok i) (s : State) :
    engineStep (accept c s) = .next (raiseError .illegalCommand (accept c s)) := by
  unfold engineStep fetch
  rw [accept_latch]
  cases hd : decode c with
  | ok i => exact absurd hd (h i)
  | error e => rfl

/-- Settles O3: the fields of a word determine it, and an illegal word runs no command. -/
theorem legalWordsAreExactlyTheTable : Obligations.LegalWordsAreExactlyTheTable := by
  refine fun c => ⟨decode_ok_iff c, ?_, fun h s => ⟨_, engineStep_accept_of_illegal h s, rfl, rfl⟩⟩
  simp only [decode_ok_iff_fields, mem_opcodes_iff, exists_and_left]
  rfl

/-- Settles O1: the ten words written out are the encodings of the commands. -/
theorem tableWordsDecode : Obligations.TableWordsDecode :=
  ⟨decode_encode .nop, decode_encode .clear, decode_encode .freqCount, decode_encode .rleEncode,
    decode_encode .rleDecode, decode_encode .treeBuild, decode_encode .codeGen, decode_encode .pack,
    decode_encode .unpack, decode_encode .huffEncode⟩

/-- Settles O2: a command's word decodes to it, and a word's bytes make up the word. -/
theorem encodingRoundTrips : Obligations.EncodingRoundTrips :=
  fun i => ⟨decode_encode i, (congrArg decode (wordOfBytes_byteOfWord (encode i))).trans (decode_encode i)⟩

end Sys2Proof.Proofs
end

section
/-! PROOFS. No command faults in a state that meets the invariant and has the command's operands written
(70_reset_and_hazards.md R286, R289). -/

namespace Sys2Proof.Proofs

open Sys2Proof.Machine

/-! ### Pseudocode that does not fault -/

/-- The pseudocode does not stop with a fault: it answers a value or raises. -/
structure NoFault {α : Type} (x : Except Stop α) : Prop where
  ne : ∀ f, x ≠ .error (.fault f)

theorem noFault_ok {α : Type} (a : α) : NoFault (.ok a) :=
  ⟨nofun⟩

theorem noFault_raised {α : Type} (e : ErrorCode) : NoFault (.error (.raised e) : Except Stop α) :=
  ⟨nofun⟩

theorem noFault_bind {α β : Type} {x : Except Stop α} {f : α → Except Stop β} (hx : NoFault x)
    (hf : ∀ a, x = .ok a → NoFault (f a)) : NoFault (x >>= f) := by
  rcases x with (e | g) | a
  · exact noFault_raised e
  · exact absurd rfl (hx.ne g)
  · exact hf a rfl

theorem noFault_ite {α : Type} {c : Prop} [Decidable c] {x y : Except Stop α} (hx : c → NoFault x)
    (hy : ¬ c → NoFault y) : NoFault (if c then x else y) := by
  split
  · next h => exact hx h
  · next h => exact hy h

/-- CheckN only raises, and what follows it runs with N (R112). -/
theorem noFault_bind_checkN {α : Type} {s : State} {f : Nat → Except Stop α} (hf : NoFault (f (gridSize s))) :
    NoFault (checkN s >>= f) := by
  refine noFault_bind ⟨fun g h => ?_⟩ fun n h => ?_
  · rcases checkN_error h with ⟨hx, -⟩ | ⟨hx, -⟩ <;> cases hx
  · obtain ⟨rfl, -, -⟩ := (checkN_ok_iff s n).mp h
    exact hf

theorem noFault_readOperand {α : Type} (name : Operand) {m : Sparse α} {i : Nat} (h : Sparse.get? m i ≠ none) :
    NoFault (readOperand name m i) :=
  ⟨fun _ hx => h ((readOperand_error_iff name m i _).mp hx).1⟩

/-! ### The loops over operands -/

theorem noFault_readRange {α : Type} (name : Operand) {m : Sparse α} {i n : Nat}
    (h : ∀ k < i + n, Sparse.get? m k ≠ none) : NoFault (readRange name m i n) := by
  refine ⟨fun f hx => ?_⟩
  obtain ⟨k, -, hk, hnone, -⟩ := readRange_error hx
  exact h k hk hnone

theorem noFault_sumRuns {m : Memory} {t n : Nat} (h : ∀ k < t + n, Sparse.get? m.rleRun k ≠ none) :
    NoFault (sumRuns m t n) := by
  induction n generalizing t with
  | zero => exact noFault_ok 0
  | succ n ih =>
    exact noFault_bind (noFault_readOperand _ (h t (by omega))) fun _ _ => noFault_ite (fun _ => noFault_raised _)
      fun _ => noFault_bind (ih fun k hk => h k (by omega)) fun _ _ => noFault_ok _

theorem noFault_expandRuns {m : Memory} {t n : Nat}
    (h : ∀ k < t + n, Sparse.get? m.rleSym k ≠ none ∧ Sparse.get? m.rleRun k ≠ none) :
    NoFault (expandRuns m t n) := by
  induction n generalizing t with
  | zero => exact noFault_ok []
  | succ n ih =>
    obtain ⟨hsym, hrun⟩ := h t (by omega)
    exact noFault_bind (noFault_readOperand _ hsym) fun _ _ => noFault_bind (noFault_readOperand _ hrun) fun _ _ =>
      noFault_bind (ih fun k hk => h k (by omega)) fun _ _ => noFault_ok _

theorem noFault_readCodes {m : Memory} {i n : Nat} (h : ∀ k < i + n, Sparse.get? m.sym k ≠ none) :
    NoFault (readCodes m i n) := by
  induction n generalizing i with
  | zero => exact noFault_ok []
  | succ n ih =>
    exact noFault_bind (noFault_readOperand _ (h i (by omega))) fun _ _ => noFault_ite (fun _ => noFault_raised _)
      fun _ => noFault_bind (ih fun k hk => h k (by omega)) fun _ _ => noFault_ok _

/-! ### The walk of CODE_GEN over a tree (R170, R289) -/

section Walk
variable {node : Sparse NodeEntry} {k count root id : Nat} {p : Bits} {popped : List Nat} {stack : List (Nat × Bits)}
  {n : NodeEntry}

/-- The root is the last id of the tree (R156). -/
theorem treeShape_count_eq (h : TreeShape node k count root) : count = root + 1 := by
  have := h.leaf_pos
  have := h.count_eq
  have := h.root_eq
  omega

/-- `n` stands at `id` as an internal node above `k` leaves: it has two distinct children, both with smaller ids
(R156). -/
structure InnerAt (k id : Nat) (n : NodeEntry) : Prop where
  not_leaf : n.isLeaf = false
  leaf_le : k ≤ id
  left_lt : n.left.toNat < id
  right_lt : n.right.toNat < id
  left_ne_right : n.left.toNat ≠ n.right.toNat

/-- Every id up to the root is a leaf or an internal node (R156). -/
theorem treeShape_node_cases (h : TreeShape node k count root) (hid : id ≤ root) :
    ∃ n, Sparse.get? node id = some n ∧ (n.isLeaf = true ∨ InnerAt k id n) := by
  rcases Nat.lt_or_ge id k with hlt | hge
  · obtain ⟨n, hn, hleaf, -⟩ := h.leaf_node id hlt
    exact ⟨n, hn, .inl hleaf⟩
  · obtain ⟨n, -, -, hn, hint, -, hl, hr, hne, -⟩ :=
      h.internal_node id hge (treeShape_count_eq h ▸ Nat.lt_succ_of_le hid)
    exact ⟨n, hn, .inr ⟨hint, hge, hl, hr, fun h => hne (BitVec.eq_of_toNat_eq h)⟩⟩

/-- The walk of CODE_GEN under way, with the ids popped so far and the stack. No id is met twice (`ids_nodup`), since an
id is pushed when its only parent is popped (`parent_popped`); so there are at most as many pops as nodes. Ids fall
along a path, and those above a leaf are internal (`depth_le`); so no path is longer than the number of internal nodes.
-/
structure Walking (node : Sparse NodeEntry) (k root : Nat) (popped : List Nat) (stack : List (Nat × Bits)) : Prop where
  ids_nodup : (stack.map Prod.fst ++ popped).Nodup
  ids_le : ∀ id ∈ stack.map Prod.fst ++ popped, id ≤ root
  parent_popped : ∀ id ∈ stack.map Prod.fst ++ popped, id < root →
    ∃ q ∈ popped, ∃ n, Sparse.get? node q = some n ∧ isChildOf id n
  depth_le : ∀ e ∈ stack, e.1 + e.2.length ≤ root ∧ e.2.length < k

theorem walking_start (hk : 1 ≤ k) : Walking node k root [] [(root, [])] where
  ids_nodup := List.nodup_singleton root
  ids_le := by simp
  parent_popped := by simp
  depth_le := fun e he => by
    obtain rfl := List.mem_singleton.mp he
    exact ⟨le_refl root, hk⟩

theorem Walking.length_le (h : Walking node k root popped stack) : stack.length + popped.length ≤ root + 1 := by
  have hsub : stack.map Prod.fst ++ popped ⊆ List.range (root + 1) :=
    fun id hid => List.mem_range.mpr (Nat.lt_succ_of_le (h.ids_le id hid))
  simpa using (List.subperm_of_subset h.ids_nodup hsub).length_le

theorem Walking.pop (h : Walking node k root popped ((id, p) :: stack)) : Walking node k root (id :: popped) stack := by
  obtain ⟨hnd, hle, hpar, hdepth⟩ := h
  have hperm : (stack.map Prod.fst ++ id :: popped).Perm (((id, p) :: stack).map Prod.fst ++ popped) :=
    List.perm_middle
  refine ⟨hperm.nodup_iff.mpr hnd, fun x hx => hle x (hperm.mem_iff.mp hx), fun x hx hlt => ?_,
    fun e he => hdepth e (List.mem_cons_of_mem _ he)⟩
  obtain ⟨q, hq, hn⟩ := hpar x (hperm.mem_iff.mp hx) hlt
  exact ⟨q, List.mem_cons_of_mem _ hq, hn⟩

/-- A child of the top of the stack has not been met yet: its only parent is not popped. -/
theorem Walking.child_not_met (hshape : TreeShape node k count root) (h : Walking node k root popped ((id, p) :: stack))
    (hn : Sparse.get? node id = some n) {c : Nat} (hc : isChildOf c n) (hlt : c < id) :
    c ∉ stack.map Prod.fst ++ id :: popped := by
  intro hmem
  have hid : id ≤ root := h.ids_le id (by simp)
  have hmem' : c ∈ ((id, p) :: stack).map Prod.fst ++ popped := List.perm_middle.mem_iff.mp hmem
  obtain ⟨q, hq, m, hm, hcm⟩ := h.parent_popped c hmem' (by omega)
  have hqroot : q ≤ root := h.ids_le q (List.mem_append_right _ hq)
  obtain ⟨r, -, -, huniq⟩ := hshape.parent_unique c (by omega)
  have hcount := treeShape_count_eq hshape
  obtain rfl : id = q :=
    (huniq id (by omega) ⟨n, hn, hc⟩).trans (huniq q (by omega) ⟨m, hm, hcm⟩).symm
  have hnd := h.ids_nodup
  simp only [List.map_cons, List.cons_append, List.nodup_cons] at hnd
  exact hnd.1 (List.mem_append_right _ hq)

/-- Popping an internal node and pushing its children. -/
theorem Walking.push (hshape : TreeShape node k count root) (h : Walking node k root popped ((id, p) :: stack))
    (hn : Sparse.get? node id = some n) (hinner : InnerAt k id n) :
    Walking node k root (id :: popped) ((n.left.toNat, p ++ [false]) :: (n.right.toNat, p ++ [true]) :: stack) := by
  obtain ⟨hint, hk, hl, hr, hne⟩ := hinner
  have hleft : isChildOf n.left.toNat n := ⟨hint, .inl rfl⟩
  have hright : isChildOf n.right.toNat n := ⟨hint, .inr rfl⟩
  have hlnew := h.child_not_met hshape hn hleft hl
  have hrnew := h.child_not_met hshape hn hright hr
  have hid : id ≤ root := h.ids_le id (by simp)
  have hroot := hshape.root_eq
  obtain ⟨hdp, -⟩ := h.depth_le (id, p) (by simp)
  dsimp only at hdp
  obtain ⟨hnd, hle, hpar, hdepth⟩ := h.pop
  refine ⟨?_, ?_, ?_, ?_⟩
  · simp only [List.map_cons, List.cons_append, List.nodup_cons, List.mem_cons]
    exact ⟨not_or.mpr ⟨hne, hlnew⟩, hrnew, hnd⟩
  · simp only [List.map_cons, List.cons_append, List.forall_mem_cons]
    exact ⟨by omega, by omega, hle⟩
  · simp only [List.map_cons, List.cons_append, List.forall_mem_cons]
    exact ⟨fun _ => ⟨id, .head _, n, hn, hleft⟩, fun _ => ⟨id, .head _, n, hn, hright⟩, hpar⟩
  · simp only [List.forall_mem_cons, List.length_append, List.length_singleton]
    exact ⟨by omega, by omega, hdepth⟩

/-- On a tree of R156's shape the walk needs no more pops than there are nodes, and no path is over 255 bits. -/
theorem noFault_walkTree (hshape : TreeShape node k count root) {pops : Nat} (h : Walking node k root popped stack)
    (hp : root + 1 ≤ pops + popped.length) : NoFault (walkTree node pops stack) := by
  induction pops generalizing popped stack with
  | zero =>
    have hlen := h.length_le
    obtain rfl : stack = [] := List.length_eq_zero_iff.mp (by omega)
    exact noFault_ok []
  | succ pops ih =>
    match stack, h with
    | [], _ => exact noFault_ok []
    | (id, p) :: stack, h =>
      obtain ⟨n, hn, hcases⟩ := treeShape_node_cases hshape (h.ids_le id (by simp))
      have hfuel : root + 1 ≤ pops + (id :: popped).length := by rw [List.length_cons]; omega
      refine noFault_bind (noFault_readOperand _ (by simp [hn])) fun m hm => ?_
      obtain rfl : n = m := Option.some.inj (hn.symm.trans ((readOperand_ok_iff ..).mp hm))
      rcases hcases with hleaf | hinner
      · have hshort : p.length ≤ Config.maxCodeLen := by
          have := (h.depth_le (id, p) (by simp)).2
          have := hshape.leaf_le
          simp only [Config.alphabet, Config.maxCodeLen] at *
          omega
        rw [if_pos hleaf, if_neg (by omega)]
        exact noFault_bind (ih h.pop hfuel) fun _ _ => noFault_ok _
      · rw [if_neg (by simp [hinner.not_leaf])]
        exact ih (h.push hshape hn hinner) hfuel

theorem noFault_treeCodes (hshape : TreeShape node k count root) : NoFault (treeCodes node root) := by
  obtain ⟨n, hn, -⟩ := treeShape_node_cases hshape (le_refl root)
  have hpops : root + 1 ≤ Config.nodePool + ([] : List Nat).length := by
    have := hshape.root_eq
    have := hshape.leaf_le
    simp only [Config.alphabet, Config.nodePool] at *
    omega
  exact noFault_bind (noFault_readOperand _ (by simp [hn])) fun _ _ =>
    noFault_ite (fun _ => noFault_ok _) fun _ => noFault_walkTree hshape (walking_start hshape.leaf_pos) hpops

end Walk

/-! ### The commands -/

/-- Every element of SYM[0..N-1] is written (R282). -/
def SymsWritten (s : State) : Prop := ∀ k < gridSize s, s.symAt k ≠ none

theorem SymsWritten.of_same {s t : State} (h : SymsWritten s) (hsym : t.mem.sym = s.mem.sym)
    (hsize : gridSize t = gridSize s) : SymsWritten t := fun k hk => by
  rw [State.symAt, hsym]
  exact h k (hsize ▸ hk)

section Commands
variable {s : State}

theorem noFault_readSyms (h : SymsWritten s) : NoFault (readRange .sym s.mem.sym 0 (gridSize s)) :=
  noFault_readRange _ fun k hk => h k (by omega)

theorem noFault_freqCount (h : SymsWritten s) : NoFault (freqCount s) :=
  noFault_bind_checkN (noFault_bind (noFault_readSyms h) fun _ _ => noFault_ok _)

theorem noFault_rleEncode (h : SymsWritten s) : NoFault (rleEncode s) :=
  noFault_bind_checkN (noFault_bind (noFault_readSyms h) fun _ _ => noFault_ok _)

theorem noFault_rleDecode (h : ∀ t < s.rleCount.toNat, s.rleSymAt t ≠ none ∧ s.rleRunAt t ≠ none) :
    NoFault (rleDecode s) := by
  have hsum := noFault_sumRuns (m := s.mem) (t := 0) (n := s.rleCount.toNat) fun k hk => (h k (by omega)).2
  have hexp := noFault_expandRuns (m := s.mem) (t := 0) (n := s.rleCount.toNat) fun k hk => h k (by omega)
  exact noFault_bind_checkN <| noFault_ite (fun _ => noFault_raised _) fun _ => noFault_bind hsum fun _ _ =>
    noFault_ite (fun _ => noFault_raised _) fun _ => noFault_bind hexp fun _ _ => noFault_ok _

theorem noFault_treeBuild (s : State) : NoFault (treeBuild s) := by
  refine ⟨fun f h => ?_⟩
  rcases treeBuild_error h with ⟨hx, -⟩ | ⟨hx, -⟩ <;> cases hx

theorem noFault_codeGen (h : TreeOk s) : NoFault (codeGen s) :=
  noFault_ite (fun _ => noFault_raised _) fun hcount =>
    noFault_bind (noFault_treeCodes ((if_neg hcount).mp h)) fun _ _ => noFault_ok _

theorem noFault_pack (h : SymsWritten s) : NoFault (pack s) :=
  noFault_bind_checkN <| noFault_bind (noFault_readCodes fun k hk => h k (by omega)) fun _ _ =>
    noFault_ite (fun _ => noFault_raised _) fun _ => noFault_ok _

theorem noFault_unpack (h : ∀ j < s.outLen.toNat, s.outAt j ≠ none) : NoFault (unpack s) := by
  refine noFault_bind_checkN <| noFault_ite (fun _ => noFault_raised _) fun _ =>
    noFault_ite (fun _ => noFault_raised _) fun hlen => noFault_bind (noFault_readOperand _ (h 0 (by omega))) fun _ _ =>
      noFault_ite (fun _ => noFault_raised _) fun _ => noFault_ite (fun _ => noFault_raised _) fun _ =>
        noFault_bind (noFault_readRange _ fun k hk => h k (by omega)) fun _ _ => ?_
  dsimp only
  split
  · exact noFault_raised _
  · exact noFault_ok _

end Commands

/-! ### Every command completes (R289) -/

/-- The pseudocode ends without a fault, and where it does not raise, `P` holds of the state it leaves. -/
inductive Completes (P : State → Prop) : CommandResult → Prop
  | done {s : State} (h : P s) : Completes P (.done s)
  | raised (e : ErrorCode) (s : State) : Completes P (.raised e s)

theorem completes_ofExcept {P : State → Prop} {s : State} {x : Except Stop State} (hx : NoFault x)
    (hP : ∀ t, x = .ok t → P t) : Completes P (CommandResult.ofExcept s x) := by
  rcases x with (e | f) | t
  · exact .raised e s
  · exact absurd rfl (hx.ne f)
  · exact .done (hP t rfl)

theorem completes_andThen {P Q : State → Prop} {r : CommandResult} {f : State → CommandResult} (hr : Completes P r)
    (hf : ∀ s, P s → Completes Q (f s)) : Completes Q (r.andThen f) := by
  cases hr with
  | done h => exact hf _ h
  | raised e s => exact .raised e s

theorem finish_of_completes {P : State → Prop} {r : CommandResult} (h : Completes P r) : ∃ t, finish r = .next t := by
  cases h with
  | done _ => exact ⟨_, rfl⟩
  | raised e s => exact ⟨_, rfl⟩

theorem completes_of_noFault {s : State} {x : Except Stop State} (hx : NoFault x) :
    Completes (fun _ => True) (CommandResult.ofExcept s x) :=
  completes_ofExcept hx fun _ _ => trivial

theorem unpackResult_completes {s : State} (h : NoFault (unpack s)) : Completes (fun _ => True) (unpackResult s) := by
  unfold unpackResult
  split
  · exact .done trivial
  · exact .raised _ _
  · exact .raised _ _
  · next f hf => exact absurd hf (h.ne f)

theorem recordCodes_sym (m : Memory) (codes : List (Byte × Bits)) : (recordCodes m codes).sym = m.sym :=
  List.foldlRecOn (motive := fun m' : Memory => m'.sym = m.sym) codes recordCode rfl fun _ ih _ _ => ih

/-- The four commands of HUFF_ENCODE: none of them touches SYM and the shape, and CODE_GEN finds a tree or none
(R220). -/
theorem huffEncodeResult_completes {s : State} (hs : BlockOk s) (h : SymsWritten s) :
    Completes (fun _ => True) (huffEncodeResult s) := by
  have hfreq : Completes (fun u => BlockOk u ∧ SymsWritten u) (freqCountResult s) :=
    completes_ofExcept (noFault_freqCount h) fun t ht => by
      refine ⟨freqCount_blockOk hs ht, ?_⟩
      obtain ⟨-, -, -, -, -, rfl⟩ := freqCount_ok ht
      exact h
  have htree (u : State) (hu : BlockOk u ∧ SymsWritten u) :
      Completes (fun v => BlockOk v ∧ SymsWritten v) (treeBuildResult u) :=
    completes_ofExcept (noFault_treeBuild u) fun t ht => by
      refine ⟨treeBuild_blockOk hu.1 ht, ?_⟩
      obtain ⟨-, -, -, -, rfl⟩ := treeBuild_ok ht
      exact hu.2
  have hcode (u : State) (hu : BlockOk u ∧ SymsWritten u) : Completes SymsWritten (codeGenResult u) :=
    completes_ofExcept (noFault_codeGen hu.1.tree_ok) fun t ht => by
      obtain ⟨-, codes, -, rfl⟩ := codeGen_ok ht
      exact hu.2.of_same (recordCodes_sym u.mem codes) (by simp only [gridSize])
  exact completes_andThen (completes_andThen (completes_andThen hfreq htree) hcode) fun u hu =>
    completes_of_noFault (noFault_pack hu)

theorem commandResult_completes {i : Instr} {s : State} (hs : BlockOk s) (h : operandsWritten i s) :
    Completes (fun _ => True) (commandResult i s) := by
  cases i with
  | nop => exact .done trivial
  | clear => exact .done trivial
  | freqCount => exact completes_of_noFault (noFault_freqCount h)
  | rleEncode => exact completes_of_noFault (noFault_rleEncode h)
  | rleDecode => exact completes_of_noFault (noFault_rleDecode h)
  | treeBuild =>
    rw [commandResult]
    exact completes_of_noFault (noFault_treeBuild s)
  | codeGen => exact completes_of_noFault (noFault_codeGen hs.tree_ok)
  | pack => exact completes_of_noFault (noFault_pack h)
  | unpack => exact unpackResult_completes (noFault_unpack h)
  | huffEncode => exact huffEncodeResult_completes hs h

/-- A command whose operands are written completes. -/
theorem exec_completes {i : Instr} {s : State} (hs : Inv s) (h : operandsWritten i s) : ∃ t, exec i s = .next t := by
  rw [exec_eq_finish]
  exact finish_of_completes (commandResult_completes ((inv_iff s).mp hs).1 h)

end Sys2Proof.Proofs
end

section
/-! PROOFS. A WAIT after an accepted command ends (30_encoding.md R96, 70_reset_and_hazards.md R285, R289). -/

namespace Sys2Proof.Proofs

open Sys2Proof.Machine

/-! ### No command touches the host's script -/

theorem commandResult_script (i : Instr) (s : State) : Ends (fun _ u => u.script = s.script) (commandResult i s) := by
  have lift : ∀ {f : State → Except Stop State}, (∀ {s t}, f s = .ok t → t.script = s.script) → ∀ u,
      u.script = s.script → Ends (fun _ v => v.script = s.script) (CommandResult.ofExcept u (f u)) :=
    fun hf u hu => ends_ofExcept (fun _ h => (hf h).trans hu) fun _ _ => hu
  have hfreq : ∀ {s t : State}, freqCount s = .ok t → t.script = s.script := fun h => by
    obtain ⟨-, -, -, -, -, rfl⟩ := freqCount_ok h
    rfl
  have htree : ∀ {s t : State}, treeBuild s = .ok t → t.script = s.script := fun h => by
    obtain ⟨-, -, -, -, rfl⟩ := treeBuild_ok h
    rfl
  have hcode : ∀ {s t : State}, codeGen s = .ok t → t.script = s.script := fun h => by
    obtain ⟨-, -, -, rfl⟩ := codeGen_ok h
    rfl
  have hpack : ∀ {s t : State}, pack s = .ok t → t.script = s.script := fun h => by
    obtain ⟨-, -, -, -, -, rfl⟩ := pack_ok h
    rfl
  cases i with
  | nop => exact .done rfl
  | clear => exact .done rfl
  | freqCount => exact lift hfreq s rfl
  | rleEncode =>
    refine lift (f := rleEncode) (fun h => ?_) s rfl
    obtain ⟨-, -, -, -, -, rfl⟩ := rleEncode_ok h
    rfl
  | rleDecode =>
    refine lift (f := rleDecode) (fun h => ?_) s rfl
    obtain ⟨-, -, -, -, -, -, rfl⟩ := rleDecode_ok h
    rfl
  | treeBuild => exact lift htree s rfl
  | codeGen => exact lift hcode s rfl
  | pack => exact lift hpack s rfl
  | unpack =>
    change Ends _ (unpackResult s)
    unfold unpackResult
    split
    · next h =>
      obtain ⟨-, -, -, -, -, -, -, -, -, -, -, -, rfl⟩ := unpack_ok h
      exact .done rfl
    · exact .raised rfl
    · exact .raised rfl
    · exact .fault _
  | huffEncode =>
    exact ends_andThen (ends_andThen (ends_andThen (lift hfreq s rfl) (lift htree)) (lift hcode)) (lift hpack)

/-! ### The steps of a WAIT -/

section Steps
variable {s : State} {rest : Script}

/-- The engine's step on a latched word: a command with its operands written, or an illegal word, completes and leaves
the script alone (R259, R93). -/
theorem engineStep_completes (hs : Inv s) (hw : ∀ i, decode s.latch = .ok i → operandsWritten i s) :
    ∃ t, engineStep s = .next t ∧ t.pending = false ∧ t.status.busy = false ∧ t.script = s.script := by
  unfold engineStep fetch
  cases hd : decode s.latch with
  | ok i =>
    obtain ⟨t, ht⟩ := exec_completes hs (hw i hd)
    obtain ⟨e, u, hu, rfl⟩ := exec_next_of_ends ht (commandResult_script i s)
    exact ⟨_, ht, rfl, (status_complete_fields e u.status).1, hu⟩
  | error e => exact ⟨_, rfl, rfl, rfl, rfl⟩

/-- STATUS always reads its word (R284), whose bit 0 is BUSY (R24). -/
theorem portRead_status (s : State) (d : Word) : portRead s (regAddr .status) d = s.status.word :=
  portRead_regAddr d .status (.inr rfl)

theorem portRead_status_busy (s : State) (d : Word) :
    (portRead s (regAddr .status) d).getLsbD 0 = s.status.busy := by
  rw [portRead_status, getLsbD_statusWord, if_pos rfl]

/-- One turn of WAIT while BUSY = 1: the statement stays (R96). -/
theorem hostStep_of_wait_busy (h : s.script = .wait :: rest) (hb : s.status.busy = true) :
    hostStep s = .next (hostRead (regAddr .status) "s" s) := by
  rw [hostStep, h]
  exact if_pos ((portRead_status_busy s _).trans hb)

/-- The last turn of WAIT: BUSY = 0, and the statement is over (R96). -/
theorem hostStep_of_wait_idle (h : s.script = .wait :: rest) (hb : s.status.busy = false) :
    hostStep s = .next (hostRead (regAddr .status) "s" { s with script := rest }) := by
  rw [hostStep, h]
  exact if_neg (Bool.not_eq_true _ ▸ (portRead_status_busy s _).trans hb)

theorem step_of_engine (h : whoMoves s = some .engine) : step s = engineStep (takeTurn s) := by
  rw [step, h]

theorem run_succ_of_step (M : Host.Core) {s t : M.State} (k : Nat) (h : M.step s = .next t) :
    M.run (k + 1) s = M.run k t := by
  rw [Host.Core.run, h]

/-- The operands of a command do not depend on the schedule. -/
theorem operandsWritten_takeTurn (i : Instr) (s : State) : operandsWritten i (takeTurn s) = operandsWritten i s := by
  cases i <;> rfl

/-- The operands of a command do not depend on what the host has read. -/
theorem operandsWritten_hostRead (i : Instr) (a : Word) (x : String) (s : State) :
    operandsWritten i (hostRead a x s) = operandsWritten i s := by
  cases i <;> rfl

end Steps

/-! ### The run -/

/-- A WAIT with `rest` behind it is over, with BUSY = 0 and the name s bound to STATUS. -/
def WaitOver (rest : Script) (t : State) : Prop :=
  t.script = rest ∧ t.status.busy = false ∧ boundValue "s" t = some t.status.word

/-- The engine's turn: its step completes the command, and the host's next turn of WAIT is the last. -/
theorem run_two_waitOver {s : State} {rest : Script} (hs : Inv s) (hpending : s.pending = true)
    (hscript : s.script = .wait :: rest) (hw : ∀ i, decode s.latch = .ok i → operandsWritten i s)
    (hhead : s.sched.head? ≠ some .host) : ∃ t, Host.Core.run core 2 s = .next t ∧ WaitOver rest t := by
  have hturn := (whoMoves_engine_iff s).mpr ⟨hpending, fun h => hhead h.1⟩
  obtain ⟨u, hu, hupending, hbusy, huscript⟩ := engineStep_completes (s := takeTurn s) (inv_of_same hs {})
    fun i hi => operandsWritten_takeTurn i s ▸ hw i hi
  have huwait : u.script = .wait :: rest := huscript.trans hscript
  have hhost : whoMoves u = some .host :=
    (whoMoves_host_iff u).mpr ⟨by simp [huwait], fun h => absurd (hupending.symm.trans h) nofun⟩
  have hlast := (step_of_host hhost).trans (hostStep_of_wait_idle (s := takeTurn u) huwait hbusy)
  have hrun := (run_succ_of_step core 1 ((step_of_engine hturn).trans hu)).trans (run_succ_of_step core 0 hlast)
  refine ⟨_, hrun, rfl, hbusy, ?_⟩
  rw [hostRead, boundValue_bindRead_self, portRead_status]
  rfl

/-- Settles O12, by induction on the schedule: as long as it names the host, the host polls a busy block and nothing
that the command depends on changes; then the engine moves. -/
theorem waitEndsWithBusyClear : Obligations.WaitEndsWithBusyClear := by
  intro s rest hs hpending hscript hw
  induction hsched : s.sched generalizing s with
  | nil =>
    obtain ⟨t, hrun, ht⟩ := run_two_waitOver hs hpending hscript hw (by simp [hsched])
    exact ⟨2, t, Nat.le_add_left .., hrun, ht⟩
  | cons agent sched ih =>
    cases agent with
    | engine =>
      obtain ⟨t, hrun, ht⟩ := run_two_waitOver hs hpending hscript hw (by simp [hsched])
      exact ⟨2, t, Nat.le_add_left .., hrun, ht⟩
    | host =>
      have hbusy : s.status.busy = true := hs.status_ok.pending_iff_busy.symm.trans hpending
      have hhost : whoMoves s = some .host :=
        (whoMoves_host_iff s).mpr ⟨by simp [hscript], fun _ => by simp [hsched]⟩
      have hpoll := (step_of_host hhost).trans (hostStep_of_wait_busy (s := takeTurn s) hscript hbusy)
      obtain ⟨k, t, hk, hrun, ht⟩ := ih (hostRead (regAddr .status) "s" (takeTurn s)) (inv_of_same hs {}) hpending
        hscript (fun i hi => by rw [operandsWritten_hostRead, operandsWritten_takeTurn]; exact hw i hi)
        (by simp [hostRead, hpending, hsched])
      exact ⟨k + 1, t, Nat.succ_le_succ hk, (run_succ_of_step core k hpoll).trans hrun, ht⟩

end Sys2Proof.Proofs
end

section
/-! PROOFS. The control commands NOP and CLEAR, and the shape check CheckN (40_control.md R110 to R112). -/

namespace Sys2Proof.Proofs

open Sys2Proof.Machine Sys2Proof.Stated

/-! ### How a command completes, in the words of the statements -/

theorem exec_of_done {i : Instr} {s t : State} (h : commandResult i s = .done t) : exec i s = .next (completed t) := by
  rw [exec_eq_finish, h]
  rfl

theorem exec_of_raised {i : Instr} {e : ErrorCode} {s t : State} (h : commandResult i s = .raised e t) :
    exec i s = .next (failed e.code t) := by
  rw [exec_eq_finish, h]
  rfl

/-! ### NOP (R110) -/

theorem statusWord_after_nop :
    (Status.complete none (Status.accept (opField (encode .nop)))).word = 0x00000002#32 := by decide

/-- Settles O28: NOP's pseudocode is empty, and a word with RSV set decodes to no command. -/
theorem nopOnlyCompletes : Obligations.NopOnlyCompletes := by
  refine ⟨fun s => exec_of_done rfl, decode_encode .nop, fun s => ⟨_, exec_of_done rfl, statusWord_after_nop⟩,
    fun c s _ hrsv => ?_⟩
  have hillegal : ∀ i, decode c ≠ .ok i := fun i hi => hrsv ((decode_ok_iff_fields c i).mp hi).1
  exact engineStep_accept_of_illegal hillegal s

/-! ### CLEAR (R111) -/

theorem freqSum_nil : freqSum [] = 0 := by simp [freqSum]

/-- TREE_BUILD with nothing in FREQ (R152). -/
theorem treeBuild_of_freqSum_eq_zero {s : State} (h : freqSum s.mem.freq = 0) :
    treeBuild s = .error (.raised .emptyInput) := by
  rw [treeBuild, if_pos h]

/-- CODE_GEN without a tree (R174). -/
theorem codeGen_of_nodeCount_eq_zero {s : State} (h : s.nodeCount = 0#10) : codeGen s = .error (.raised .noTree) :=
  if_pos h

/-- Settles O29: after CLEAR, FREQ sums to 0 and NODE_COUNT is 0, which TREE_BUILD and CODE_GEN check first. -/
theorem clearZeroesRegistersAndTables : Obligations.ClearZeroesRegistersAndTables := by
  refine ⟨decode_encode .clear, fun s => ⟨completed (clearState s), exec_of_done rfl, fun v => ⟨rfl, rfl, rfl⟩, rfl,
    rfl, exec_of_raised (e := .emptyInput) ?_, exec_of_raised (e := .noTree) ?_, _, exec_of_done rfl,
    statusWord_after_clear⟩⟩
  · have hsum : freqSum (completed (clearState s)).mem.freq = 0 := freqSum_nil
    rw [commandResult, treeBuild_of_freqSum_eq_zero hsum]
    rfl
  · have htree : (completed (clearState s)).nodeCount = 0#10 := rfl
    rw [commandResult, codeGen_of_nodeCount_eq_zero htree]
    rfl

/-! ### CheckN (R112) -/

theorem checkN_of_gridSize_eq_zero {s : State} (h : gridSize s = 0) : checkN s = .error (.raised .emptyInput) :=
  if_pos h

theorem checkN_of_nMax_lt {s : State} (h : s.params.nMax < gridSize s) : checkN s = .error (.raised .capacity) := by
  rw [checkN, if_neg (by omega), if_pos h]

/-- A pseudocode that begins with CheckN ends where CheckN raises. -/
theorem checkN_bind_of_raised {s : State} {e : ErrorCode} (h : checkN s = .error (.raised e))
    (f : Nat → Except Stop State) : checkN s >>= f = .error (.raised e) := by
  rw [h]
  rfl

/-- What CheckN raises is not the DECODE_MISMATCH that makes UNPACK forget DEC. -/
theorem unpackResult_of_checkN_raised {s : State} {e : ErrorCode} (h : checkN s = .error (.raised e)) :
    unpackResult s = .raised e s := by
  have hunpack : unpack s = .error (.raised e) := checkN_bind_of_raised h _
  rw [unpackResult, hunpack]
  rcases checkN_error h with ⟨he, -⟩ | ⟨he, -⟩ <;> cases he <;> rfl

/-- Where CheckN raises, the six commands that use it raise the same error and have changed nothing. -/
theorem commandResult_of_checkN_raised {i : Instr} {s : State} {e : ErrorCode}
    (hi : i ∈ [Instr.freqCount, .rleEncode, .rleDecode, .pack, .unpack, .huffEncode])
    (h : checkN s = .error (.raised e)) : commandResult i s = .raised e s := by
  have hraised : ∀ f, CommandResult.ofExcept s (checkN s >>= f) = .raised e s := fun f => by
    rw [checkN_bind_of_raised h f]
    rfl
  simp only [List.mem_cons, List.not_mem_nil, or_false] at hi
  rcases hi with rfl | rfl | rfl | rfl | rfl | rfl
  · exact hraised _
  · exact hraised _
  · exact hraised _
  · exact hraised _
  · exact unpackResult_of_checkN_raised h
  · have hfreq : freqCountResult s = .raised e s := hraised _
    rw [commandResult, huffEncodeResult, hfreq]
    rfl

/-- Settles O30: CheckN is the first thing that each of the six commands does. -/
theorem shapeCheckComesFirst : Obligations.ShapeCheckComesFirst := fun _ _ hi =>
  ⟨fun h => exec_of_raised (commandResult_of_checkN_raised hi (checkN_of_gridSize_eq_zero h)),
    fun h => exec_of_raised (commandResult_of_checkN_raised hi (checkN_of_nMax_lt h))⟩

end Sys2Proof.Proofs
end

section
/-! PROOFS. The frame of all ten commands (the "Writes" line of each command's rule; 60_exceptions.md R254, R259). -/

namespace Sys2Proof.Proofs

open Sys2Proof.Machine Sys2Proof.Stated

/-! ### The parts of the frame that need a bound -/

/-- A range write from index 0 on leaves every element behind the range alone. -/
theorem get?_setRange_of_length_le {α : Type} {vs : List α} {k : Nat} (m : Sparse α) (h : vs.length ≤ k) :
    Sparse.get? (Sparse.setRange m 0 vs) k = Sparse.get? m k := by
  rw [get?_setRange, if_neg (by omega)]

theorem length_mergeLoop_le (fuel : Nat) (q : List QueueEntry) (next : Nat) :
    (mergeLoop fuel q next).1.length ≤ fuel := by
  induction fuel generalizing q next with
  | zero => simp [mergeLoop]
  | succ fuel ih =>
    match q with
    | [] => simp [mergeLoop]
    | [_] => simp [mergeLoop]
    | a :: b :: q => exact Nat.succ_le_succ (ih _ _)

theorem recordCodes_eq (m : Memory) (codes : List (Byte × Bits)) :
    recordCodes m codes =
      { m with codeLen := (recordCodes m codes).codeLen, codeBits := (recordCodes m codes).codeBits } :=
  List.foldlRecOn (motive := fun u : Memory => u = { m with codeLen := u.codeLen, codeBits := u.codeBits })
    codes recordCode rfl fun u hu c _ => by rw [hu]; rfl

/-! ### The frame and completion -/

/-- What changes nothing keeps every command's frame. -/
theorem keepsFrame_refl (i : Instr) (s : State) : KeepsFrame i s s := by
  cases i with
  | nop => rfl
  | clear => rfl
  | freqCount => rfl
  | codeGen => rfl
  | rleEncode => exact ⟨rfl, fun _ _ => ⟨rfl, rfl⟩⟩
  | huffEncode => exact ⟨rfl, fun _ _ => rfl, fun _ _ => rfl⟩
  | _ => exact ⟨rfl, fun _ _ => rfl⟩

/-- Completion changes STATUS and the pending bit alone, which no frame speaks of. -/
theorem keepsFrame_completeCommand {i : Instr} {s u : State} (e : Option ErrorCode) (h : KeepsFrame i s u) :
    KeepsFrame i s (completeCommand e u) := by
  cases i with
  | nop => exact congrArg (completeCommand e) h
  | clear => exact congrArg (completeCommand e) h
  | freqCount => exact congrArg (completeCommand e) h
  | codeGen => exact congrArg (completeCommand e) h
  | _ => exact ⟨congrArg (completeCommand e) h.1, h.2⟩

/-! ### The pseudocode of each command -/

section Commands
variable {s t : State}

theorem freqCount_keepsFrame (h : freqCount s = .ok t) : KeepsFrame .freqCount s t := by
  obtain ⟨-, -, -, -, -, rfl⟩ := freqCount_ok h
  rfl

theorem rleEncode_keepsFrame (hp : s.params.legal = true) (h : rleEncode s = .ok t) : KeepsFrame .rleEncode s t := by
  obtain ⟨syms, -, hN, hlen, -, rfl⟩ := rleEncode_ok h
  have hcount : (BitVec.ofNat 32 (rleTokens syms).length).toNat = (rleTokens syms).length := by
    have hle := length_rleTokens_le syms
    obtain ⟨hmax, -⟩ := legal_bounds hp
    exact Nat.mod_eq_of_lt (by omega)
  refine ⟨rfl, fun k hk => ?_⟩
  have hk : (rleTokens syms).length ≤ k := hcount ▸ hk
  exact ⟨get?_setRange_of_length_le _ (by rwa [List.length_map]),
    get?_setRange_of_length_le _ (by rwa [List.length_map])⟩

theorem rleDecode_keepsFrame (h : rleDecode s = .ok t) : KeepsFrame .rleDecode s t := by
  obtain ⟨syms, -, -, -, hsum, hexp, rfl⟩ := rleDecode_ok h
  exact ⟨rfl, fun k hk => get?_setRange_of_length_le _ ((length_expandRuns hsum hexp).trans_le hk)⟩

theorem treeBuild_keepsFrame (h : treeBuild s = .ok t) : KeepsFrame .treeBuild s t := by
  obtain ⟨-, -, merged, hmerged, rfl⟩ := treeBuild_ok h
  have hcount : (BitVec.ofNat 10 ((leaves s.mem.freq).length + merged.1.length)).toNat =
      (leaves s.mem.freq ++ merged.1).length := by
    have hleaves := length_leaves_le s.mem.freq
    have hmerges : merged.1.length ≤ 255 := hmerged ▸ length_mergeLoop_le 255 _ _
    rw [List.length_append]
    exact Nat.mod_eq_of_lt (by omega)
  exact ⟨rfl, fun k hk => get?_setRange_of_length_le _ (hcount ▸ hk)⟩

theorem codeGen_keepsFrame (h : codeGen s = .ok t) : KeepsFrame .codeGen s t := by
  obtain ⟨-, codes, -, rfl⟩ := codeGen_ok h
  let len := BitVec.ofNat 8 (greatestCodeLen (recordCodes s.mem codes))
  exact congrArg (fun m => { s with maxCodeLen := len, mem := m }) (recordCodes_eq s.mem codes)

theorem pack_keepsFrame (hp : s.params.legal = true) (h : pack s = .ok t) : KeepsFrame .pack s t := by
  obtain ⟨codes, -, -, -, hle, rfl⟩ := pack_ok h
  have hlen : (BitVec.ofNat 32 (packedLen codes.flatten.length)).toNat = packedLen codes.flatten.length := by
    obtain ⟨-, hmax, -⟩ := legal_bounds hp
    exact Nat.mod_eq_of_lt (by omega)
  exact ⟨rfl, fun k hk => get?_setRange_of_length_le _ ((length_streamBytes _ _).trans_le (hlen ▸ hk))⟩

theorem unpack_keepsFrame (h : unpack s = .ok t) : KeepsFrame .unpack s t := by
  obtain ⟨p, bytes, syms, -, -, -, -, -, -, -, -, hdec, rfl⟩ := unpack_ok h
  exact ⟨rfl, fun k hk => get?_setRange_of_length_le _ ((length_decodeSymbols hdec).trans_le hk)⟩

/-- What DECODE_MISMATCH forgets is within UNPACK's write set (R254). -/
theorem forgetDecoded_keepsFrame (s : State) : KeepsFrame .unpack s (forgetDecoded s) :=
  ⟨rfl, fun k hk => (get?_forgetBelow _ _ k).trans (if_pos hk)⟩

theorem unpackResult_keepsFrame (s : State) : Ends (fun _ u => KeepsFrame .unpack s u) (unpackResult s) := by
  unfold unpackResult
  split
  · next h => exact .done (unpack_keepsFrame h)
  · exact .raised (forgetDecoded_keepsFrame s)
  · exact .raised (keepsFrame_refl _ s)
  · exact .fault _

end Commands

/-! ### The four commands of HUFF_ENCODE in sequence (R220) -/

/-- The frame of HUFF_ENCODE before its last command: OUT is still as it was. -/
structure KeepsFrameAndOut (s u : State) : Prop where
  frame : KeepsFrame .huffEncode s u
  out_eq : u.mem.out = s.mem.out

section Sequence
variable {s u v : State}

theorem keepsFrameAndOut_of_freqCount (hu : KeepsFrame .freqCount s u) : KeepsFrameAndOut s u := by
  unfold KeepsFrame at hu
  rw [hu]
  exact ⟨⟨rfl, fun _ _ => rfl, fun _ _ => rfl⟩, rfl⟩

theorem keepsFrameAndOut_of_treeBuild (hu : KeepsFrame .freqCount s u) (hv : KeepsFrame .treeBuild u v) :
    KeepsFrameAndOut s v := by
  unfold KeepsFrame at hu
  obtain ⟨hv, hnode⟩ := hv
  rw [hu] at hv hnode
  refine ⟨⟨?_, hnode, fun k _ => ?_⟩, ?_⟩
  · rw [hv]
  · rw [hv]
    rfl
  · rw [hv]

theorem keepsFrameAndOut_of_codeGen (hu : KeepsFrameAndOut s u) (hv : KeepsFrame .codeGen u v) :
    KeepsFrameAndOut s v := by
  obtain ⟨⟨hu, hnode, hout⟩, hsame⟩ := hu
  unfold KeepsFrame at hv
  rw [hv]
  refine ⟨⟨?_, hnode, hout⟩, hsame⟩
  rw [hu]

theorem keepsFrame_of_pack (hu : KeepsFrameAndOut s u) (hv : KeepsFrame .pack u v) : KeepsFrame .huffEncode s v := by
  obtain ⟨⟨hu, hnode, -⟩, hsame⟩ := hu
  obtain ⟨hv, hout⟩ := hv
  rw [hv]
  refine ⟨?_, hnode, fun k hk => ?_⟩
  · rw [hu]
  · rw [State.outAt, State.outAt, ← hsame]
    exact hout k hk

theorem KeepsFrameAndOut.params_eq (hu : KeepsFrameAndOut s u) : u.params = s.params := by
  rw [hu.frame.1]

end Sequence

/-- Two pseudocodes in sequence: `Q` holds of every end of the first, and is enough where the first ends both. -/
theorem ends_andThen_of_imp {P Q : State → Prop} {r : CommandResult} {f : State → CommandResult}
    (hr : Ends (fun _ u => Q u) r) (hQP : ∀ u, Q u → P u) (hf : ∀ u, Q u → Ends (fun _ v => P v) (f u)) :
    Ends (fun _ u => P u) (r.andThen f) := by
  cases hr with
  | done h => exact hf _ h
  | raised h => exact .raised (hQP _ h)
  | fault x => exact .fault x

/-- HUFF_ENCODE keeps its frame, whichever of its four commands it ends in. -/
theorem huffEncodeResult_keepsFrame {s : State} (hp : s.params.legal = true) :
    Ends (fun _ u => KeepsFrame .huffEncode s u) (huffEncodeResult s) := by
  have hfreq : Ends (fun _ u => KeepsFrame .freqCount s u) (freqCountResult s) :=
    ends_ofExcept (fun _ h => freqCount_keepsFrame h) fun _ _ => keepsFrame_refl _ s
  have htree (u : State) (hu : KeepsFrame .freqCount s u) :
      Ends (fun _ v => KeepsFrameAndOut s v) (treeBuildResult u) :=
    ends_ofExcept (fun _ h => keepsFrameAndOut_of_treeBuild hu (treeBuild_keepsFrame h))
      fun _ _ => keepsFrameAndOut_of_freqCount hu
  have hcode (u : State) (hu : KeepsFrameAndOut s u) : Ends (fun _ v => KeepsFrameAndOut s v) (codeGenResult u) :=
    ends_ofExcept (fun _ h => keepsFrameAndOut_of_codeGen hu (codeGen_keepsFrame h)) fun _ _ => hu
  have hpack (u : State) (hu : KeepsFrameAndOut s u) : Ends (fun _ v => KeepsFrame .huffEncode s v) (packResult u) :=
    ends_ofExcept (fun _ h => keepsFrame_of_pack hu (pack_keepsFrame (hu.params_eq ▸ hp) h)) fun _ _ => hu.frame
  exact ends_andThen_of_imp (ends_andThen (ends_andThen_of_imp hfreq (fun _ => keepsFrameAndOut_of_freqCount) htree)
    hcode) (fun _ => KeepsFrameAndOut.frame) hpack

/-! ### All ten commands -/

/-- Every command's pseudocode keeps the command's frame, whether it ends in an error or not. -/
theorem commandResult_keepsFrame (i : Instr) {s : State} (hp : s.params.legal = true) :
    Ends (fun _ u => KeepsFrame i s u) (commandResult i s) := by
  have lift : ∀ {i : Instr} {x : Except Stop State}, (∀ t, x = .ok t → KeepsFrame i s t) →
      Ends (fun _ u => KeepsFrame i s u) (CommandResult.ofExcept s x) :=
    fun hx => ends_ofExcept hx fun _ _ => keepsFrame_refl _ s
  cases i with
  | nop => exact .done rfl
  | clear => exact .done rfl
  | freqCount => exact lift fun _ => freqCount_keepsFrame
  | rleEncode => exact lift fun _ => rleEncode_keepsFrame hp
  | rleDecode => exact lift fun _ => rleDecode_keepsFrame
  | treeBuild =>
    rw [commandResult]
    exact lift fun _ => treeBuild_keepsFrame
  | codeGen => exact lift fun _ => codeGen_keepsFrame
  | pack => exact lift fun _ => pack_keepsFrame hp
  | unpack => exact unpackResult_keepsFrame s
  | huffEncode => exact huffEncodeResult_keepsFrame hp

/-- Settles O9: the pseudocode keeps the command's frame, and so does its completion. -/
theorem eachCommandKeepsItsFrame : Obligations.EachCommandKeepsItsFrame := by
  intro i s t hp h
  obtain ⟨e, u, hu, rfl⟩ := exec_next_of_ends h (commandResult_keepsFrame i hp)
  exact keepsFrame_completeCommand e hu

end Sys2Proof.Proofs
end

section
/-! PROOFS. The Frequency Counter (41_frequency.md R120 to R122), and what the commands that read SYM take from a loaded
grid (R112, R286). -/

namespace Sys2Proof.Proofs

open Sys2Proof.Machine Sys2Proof.Stated

/-! ### A loaded grid -/

/-- A grid is loaded exactly where CheckN and the read of SYM[0..N-1] get through (R112, R286). -/
theorem gridLoaded_iff (s : State) (syms : List Byte) :
    GridLoaded s syms ↔ checkN s = .ok (gridSize s) ∧ readRange .sym s.mem.sym 0 (gridSize s) = .ok syms := by
  rw [checkN_ok_iff, readRange_ok_iff]
  constructor
  · rintro ⟨hlen, hpos, hle, hsym⟩
    refine ⟨⟨rfl, hpos, hle⟩, hlen, fun k hk => ?_⟩
    have hk : k < syms.length := hlen ▸ hk
    rw [Nat.zero_add, List.getElem?_eq_getElem hk]
    exact hsym k hk
  · rintro ⟨⟨-, hpos, hle⟩, hlen, hsym⟩
    refine ⟨hlen, hpos, hle, fun k hk => ?_⟩
    have hget := hsym k (hlen ▸ hk)
    rwa [Nat.zero_add, List.getElem?_eq_getElem hk] at hget

/-- Whether a grid is loaded depends on N, N_MAX and SYM[0..N-1] alone. -/
theorem gridLoaded_of_same_grid {s s' : State} {syms : List Byte} (h : GridLoaded s syms)
    (hsize : gridSize s' = gridSize s) (hle : gridSize s ≤ s'.params.nMax)
    (hsym : ∀ k < gridSize s, s'.symAt k = s.symAt k) : GridLoaded s' syms where
  size_eq := h.size_eq.trans hsize.symm
  size_pos := hsize ▸ h.size_pos
  size_le := hsize ▸ hle
  sym_eq k hk := (hsym k (h.size_eq ▸ hk)).trans (h.sym_eq k hk)

/-! ### The counting loop -/

/-- Each turn of the loop adds 1 to its symbol's entry, so an entry ends at its symbol's number of occurrences. -/
theorem read_countSymbols (syms : List Byte) (v : Nat) :
    Sparse.read (countSymbols syms) v = BitVec.ofNat 32 ((syms.map BitVec.toNat).count v) := by
  have hloop : ∀ f : Sparse Word, Sparse.read (syms.foldl countSymbol f) v =
      Sparse.read f v + BitVec.ofNat 32 ((syms.map BitVec.toNat).count v) := by
    induction syms with
    | nil => simp
    | cons u us ih =>
      intro f
      rw [List.foldl_cons, ih, countSymbol, read_write, List.map_cons, List.count_cons]
      by_cases hu : v = u.toNat
      · subst hu
        rw [if_pos rfl, if_pos BEq.rfl, Nat.add_comm, BitVec.ofNat_add, BitVec.add_assoc]
      · rw [if_neg hu, if_neg (by simpa using Ne.symm hu), Nat.add_zero]
  rw [countSymbols, hloop, read_nil, BitVec.zero_add]

/-- The number of occurrences needs no reduction while N is below 2^32. -/
theorem toNat_read_countSymbols {syms : List Byte} (hlen : syms.length < 2 ^ 32) (v : Nat) :
    (Sparse.read (countSymbols syms) v).toNat = (syms.map BitVec.toNat).count v := by
  have hle : (syms.map BitVec.toNat).count v ≤ syms.length := List.count_le_length.trans_eq (List.length_map _)
  rw [read_countSymbols, BitVec.toNat_ofNat]
  exact Nat.mod_eq_of_lt (hle.trans_lt hlen)

theorem read_countSymbols_ne_zero_iff {syms : List Byte} (hlen : syms.length < 2 ^ 32) (v : Nat) :
    Sparse.read (countSymbols syms) v ≠ 0#32 ↔ v ∈ syms.map BitVec.toNat := by
  rw [← List.count_pos_iff, ← toNat_read_countSymbols hlen, Nat.pos_iff_ne_zero, Ne, Ne, BitVec.toNat_eq]
  rfl

/-- The counts of all values below a bound of the list sum to the list's length. -/
theorem sum_map_count_range {l : List Nat} {n : Nat} (h : ∀ v ∈ l, v < n) :
    ((List.range n).map fun v => l.count v).sum = l.length := by
  rw [← List.sum_toFinset _ List.nodup_range]
  have hmem : ∀ v ∈ (l : Multiset Nat), v ∈ (List.range n).toFinset := fun v hv =>
    List.mem_toFinset.mpr (List.mem_range.mpr (h v hv))
  simpa only [Multiset.coe_count, Multiset.coe_card] using Multiset.sum_count_eq_card hmem

/-- Every symbol is below 256, so the 256 counts sum to the number of symbols. -/
theorem freqSum_countSymbols {syms : List Byte} (hlen : syms.length < 2 ^ 32) :
    freqSum (countSymbols syms) = syms.length := by
  have hbytes : ∀ v ∈ syms.map BitVec.toNat, v < Config.alphabet :=
    List.forall_mem_map.mpr fun u _ => u.isLt
  calc freqSum (countSymbols syms)
      = ((List.range Config.alphabet).map fun v => (syms.map BitVec.toNat).count v).sum := by
        simp only [freqSum, toNat_read_countSymbols hlen]
    _ = (syms.map BitVec.toNat).length := sum_map_count_range hbytes
    _ = syms.length := List.length_map _

/-- The nonzero entries are distinct indices, each the index of a symbol that occurs. -/
theorem countP_read_countSymbols_le {syms : List Byte} (hlen : syms.length < 2 ^ 32) :
    (List.range 256).countP (fun v => decide (Sparse.read (countSymbols syms) v ≠ 0#32)) ≤ syms.length := by
  rw [List.countP_eq_length_filter, ← List.length_map (as := syms) BitVec.toNat]
  refine ((List.nodup_range.filter _).subperm fun v hv => ?_).length_le
  exact (read_countSymbols_ne_zero_iff hlen v).mp (of_decide_eq_true (List.mem_filter.mp hv).2)

/-! ### The command -/

/-- FREQ_COUNT of a loaded grid completes, and its counts replace all of FREQ (R120). -/
theorem exec_freqCount_of_gridLoaded {s : State} {syms : List Byte} (h : GridLoaded s syms) :
    exec .freqCount s = .next { completed s with mem := { s.mem with freq := countSymbols syms } } := by
  obtain ⟨hn, hr⟩ := (gridLoaded_iff s syms).mp h
  have hfreq : freqCount s = .ok { s with mem := { s.mem with freq := countSymbols syms } } := by
    simp [freqCount, hn, hr, bind, Except.bind, pure, Except.pure]
  have hresult : commandResult .freqCount s = .done { s with mem := { s.mem with freq := countSymbols syms } } := by
    rw [commandResult, hfreq]
    rfl
  exact exec_of_done hresult

/-- FREQ_COUNT with N in range answers a next state only where the grid is loaded: otherwise the read of SYM faults. -/
theorem gridLoaded_of_exec_freqCount {s t : State} (hpos : 1 ≤ gridSize s) (hle : gridSize s ≤ s.params.nMax)
    (h : exec .freqCount s = .next t) : ∃ syms, GridLoaded s syms := by
  have hn : checkN s = .ok (gridSize s) := (checkN_ok_iff s _).mpr ⟨rfl, hpos, hle⟩
  cases hr : readRange .sym s.mem.sym 0 (gridSize s) with
  | ok syms => exact ⟨syms, (gridLoaded_iff s syms).mpr ⟨hn, hr⟩⟩
  | error x =>
    obtain ⟨k, -, -, -, rfl⟩ := readRange_error hr
    have hfreq : freqCount s = .error (.fault (.unwrittenOperand .sym k)) := by
      simp [freqCount, hn, hr, bind, Except.bind]
    rw [exec_eq_finish, commandResult, hfreq] at h
    cases h

/-- Settles O32: the command's effect on a loaded grid, the counts of its loop, and the errors of CheckN. -/
theorem freqCountCounts : Obligations.FreqCountCounts := by
  refine ⟨decode_encode .freqCount, fun s => ⟨fun syms h => ?_, shapeCheckComesFirst s .freqCount (by simp)⟩⟩
  refine ⟨_, exec_freqCount_of_gridLoaded h, fun v => ?_, rfl⟩
  have hcount : (syms.map BitVec.toNat).count v.toNat = syms.count v :=
    List.count_map_of_injective syms BitVec.toNat (fun _ _ => BitVec.eq_of_toNat_eq) v
  exact (read_countSymbols syms v.toNat).trans (congrArg _ hcount)

/-- Settles O33: N is at most 2^24, so no count is reduced. -/
theorem freqCountTotals : Obligations.FreqCountTotals := by
  intro s t syms hp h hexec
  cases (exec_freqCount_of_gridLoaded h).symm.trans hexec
  have hlen : syms.length < 2 ^ 32 := by
    obtain ⟨hmax, -⟩ := legal_bounds hp
    have hle := h.size_le
    have heq := h.size_eq
    omega
  refine ⟨(freqSum_countSymbols hlen).trans h.size_eq, fun v => ?_, le_min ?_ ?_⟩
  · exact (read_countSymbols_ne_zero_iff hlen v.toNat).trans
      (List.mem_map_of_injective fun _ _ => BitVec.eq_of_toNat_eq)
  · exact List.countP_le_length.trans_eq List.length_range
  · exact (countP_read_countSymbols_le hlen).trans_eq h.size_eq

/-- Settles O34: both states have the same grid loaded, and its counts replace all of FREQ. -/
theorem freqCountHasNoHistory : Obligations.FreqCountHasNoHistory := by
  intro s s' t t' hH hW hC hsym hpos hle hle' hexec hexec'
  have hsize : gridSize s' = gridSize s := by rw [gridSize, gridSize, hH, hW, hC]
  obtain ⟨syms, h⟩ := gridLoaded_of_exec_freqCount hpos hle hexec
  have h' : GridLoaded s' syms := gridLoaded_of_same_grid h hsize hle' hsym
  cases (exec_freqCount_of_gridLoaded h).symm.trans hexec
  cases (exec_freqCount_of_gridLoaded h').symm.trans hexec'
  rfl

end Sys2Proof.Proofs
end

section
/-! PROOFS. The Run-Length Encoder and Decoder (42_rle.md R130 to R135). -/

namespace Sys2Proof.Proofs

open Sys2Proof.Machine Sys2Proof.Stated

/-! ### Ranges of elements -/

theorem get?_setRange_of_lt {α : Type} {vs : List α} {k : Nat} (m : Sparse α) (h : k < vs.length) :
    Sparse.get? (Sparse.setRange m 0 vs) k = some vs[k] := by
  rw [get?_setRange, if_pos (by omega), Nat.sub_zero, List.getElem?_eq_getElem h]

/-- A list is read from index 0 on exactly where its elements are listed in order. -/
theorem readRange_zero_ok_iff {α : Type} (name : Operand) (m : Sparse α) (vs : List α) :
    readRange name m 0 vs.length = .ok vs ↔ ∀ k, ∀ h : k < vs.length, Sparse.get? m k = some vs[k] := by
  rw [readRange_ok_iff, and_iff_right rfl]
  refine forall₂_congr fun k hk => ?_
  rw [Nat.zero_add, List.getElem?_eq_getElem hk]

theorem readRange_cons_iff {α : Type} (name : Operand) (m : Sparse α) (i n : Nat) (v : α) (vs : List α) :
    readRange name m i (n + 1) = .ok (v :: vs) ↔
      readOperand name m i = .ok v ∧ readRange name m (i + 1) n = .ok vs := by
  simp only [readRange, bind, Except.bind, pure, Except.pure]
  cases readOperand name m i with
  | error x => simp
  | ok w =>
    cases readRange name m (i + 1) n with
    | error x => simp
    | ok ws => simp

/-! ### The expansion of tokens (R132) -/

@[simp] theorem expandTokens_nil : expandTokens [] = [] := rfl

@[simp] theorem expandTokens_cons (x : Byte × Word) (ts : List (Byte × Word)) :
    expandTokens (x :: ts) = List.replicate x.2.toNat x.1 ++ expandTokens ts := rfl

theorem length_expandTokens (ts : List (Byte × Word)) : (expandTokens ts).length = runSum ts := by
  simp [expandTokens, runSum, Function.comp_def]

/-! ### The encoder's loop (R131) -/

theorem one_le_run_of_mem_runsFrom {cur : Byte} {run : Nat} {vs : List Byte} (hrun : 1 ≤ run) :
    ∀ x ∈ runsFrom cur run vs, 1 ≤ x.2 := by
  induction vs generalizing cur run with
  | nil => simpa [runsFrom] using hrun
  | cons v vs ih =>
    rw [runsFrom]
    split
    · exact ih (by omega)
    · exact List.forall_mem_cons.mpr ⟨hrun, ih (le_refl 1)⟩

/-- The first token carries the current symbol. -/
theorem head_runsFrom (cur : Byte) (run : Nat) (vs : List Byte) :
    ∃ n ts, runsFrom cur run vs = (cur, n) :: ts := by
  induction vs generalizing run with
  | nil => exact ⟨run, [], rfl⟩
  | cons v vs ih =>
    rw [runsFrom]
    split
    · exact ih (run + 1)
    · exact ⟨run, _, rfl⟩

/-- The loop emits a token only when the next symbol differs, and that symbol begins the next token. -/
theorem isChain_runsFrom (cur : Byte) (run : Nat) (vs : List Byte) :
    (runsFrom cur run vs).IsChain fun x y => x.1 ≠ y.1 := by
  induction vs generalizing cur run with
  | nil => exact .singleton _
  | cons v vs ih =>
    rw [runsFrom]
    split
    · exact ih cur (run + 1)
    next hne =>
      have htail := ih v 1
      obtain ⟨n, ts, hhead⟩ := head_runsFrom v 1 vs
      rw [hhead] at htail ⊢
      exact .cons_cons (Ne.symm hne) htail

/-- The tokens stand for the current run followed by the symbols still to be read. -/
theorem expand_runsFrom (cur : Byte) (run : Nat) (vs : List Byte) :
    ((runsFrom cur run vs).flatMap fun x => List.replicate x.2 x.1) = List.replicate run cur ++ vs := by
  induction vs generalizing cur run with
  | nil => simp [runsFrom]
  | cons v vs ih =>
    rw [runsFrom]
    split
    next heq => rw [ih, heq, List.replicate_succ', List.append_assoc, List.singleton_append]
    next => rw [List.flatMap_cons, ih, List.replicate_one, List.singleton_append]

/-! ### The tokens of a symbol sequence -/

theorem one_le_run_of_mem_rleTokens (syms : List Byte) : ∀ x ∈ rleTokens syms, 1 ≤ x.2 := by
  cases syms with
  | nil => exact List.forall_mem_nil _
  | cons v vs => exact one_le_run_of_mem_runsFrom (le_refl 1)

theorem isChain_rleTokens (syms : List Byte) : (rleTokens syms).IsChain fun x y => x.1 ≠ y.1 := by
  cases syms with
  | nil => exact .nil
  | cons v vs => exact isChain_runsFrom v 1 vs

theorem expand_rleTokens (syms : List Byte) :
    ((rleTokens syms).flatMap fun x => List.replicate x.2 x.1) = syms := by
  cases syms with
  | nil => rfl
  | cons v vs => exact expand_runsFrom v 1 vs

/-- A run is part of the input, so it is no longer. -/
theorem run_le_length_of_mem_rleTokens {syms : List Byte} {x : Byte × Nat} (h : x ∈ rleTokens syms) :
    x.2 ≤ syms.length := by
  have hsub := List.sublist_flatten_of_mem (List.mem_map_of_mem (f := fun x : Byte × Nat => List.replicate x.2 x.1) h)
  rw [← List.flatMap_def, expand_rleTokens] at hsub
  simpa using hsub.length_le

/-- The tokens of a symbol sequence as RLE holds them (R130): the run is a word. -/
def rleWords (syms : List Byte) : List (Byte × Word) :=
  (rleTokens syms).map fun x => (x.1, BitVec.ofNat 32 x.2)

theorem length_rleWords_le (syms : List Byte) : (rleWords syms).length ≤ syms.length :=
  (List.length_map _).trans_le (length_rleTokens_le syms)

theorem isChain_rleWords (syms : List Byte) : (rleWords syms).IsChain fun x y => x.1 ≠ y.1 :=
  (List.isChain_map _).mpr (isChain_rleTokens syms)

section RunsFit
variable {syms : List Byte} (hlen : syms.length < 2 ^ 32)
include hlen

/-- No run is cut to 32 bits while N is below 2^32. -/
theorem toNat_run_of_mem_rleTokens {x : Byte × Nat} (h : x ∈ rleTokens syms) : (BitVec.ofNat 32 x.2).toNat = x.2 :=
  Nat.mod_eq_of_lt ((run_le_length_of_mem_rleTokens h).trans_lt hlen)

theorem one_le_run_of_mem_rleWords : ∀ x ∈ rleWords syms, 1 ≤ x.2.toNat :=
  List.forall_mem_map.mpr fun x hx =>
    (one_le_run_of_mem_rleTokens syms x hx).trans_eq (toNat_run_of_mem_rleTokens hlen hx).symm

theorem expandTokens_rleWords : expandTokens (rleWords syms) = syms := by
  have hrun : ∀ x ∈ rleTokens syms,
      List.replicate (BitVec.ofNat 32 x.2).toNat x.1 = List.replicate x.2 x.1 := fun x hx => by
    rw [toNat_run_of_mem_rleTokens hlen hx]
  calc expandTokens (rleWords syms)
      = (rleTokens syms).flatMap fun x => List.replicate (BitVec.ofNat 32 x.2).toNat x.1 := by
        rw [expandTokens, rleWords, List.map_map, List.flatMap_def]
        rfl
    _ = (rleTokens syms).flatMap fun x => List.replicate x.2 x.1 := List.flatMap_congr hrun
    _ = syms := expand_rleTokens syms

theorem runSum_rleWords : runSum (rleWords syms) = syms.length := by
  rw [← length_expandTokens, expandTokens_rleWords hlen]

end RunsFit

/-! ### RLE_ENCODE -/

/-- The state after RLE_ENCODE of `syms`. -/
def afterRleEncode (s : State) (syms : List Byte) : State :=
  { completed s with
    rleCount := BitVec.ofNat 32 (rleWords syms).length
    mem := { s.mem with
      rleSym := Sparse.setRange s.mem.rleSym 0 ((rleWords syms).map Prod.fst)
      rleRun := Sparse.setRange s.mem.rleRun 0 ((rleWords syms).map Prod.snd) } }

/-- RLE_ENCODE of a loaded grid completes, and its tokens are in RLE from index 0 on. -/
theorem exec_rleEncode_of_gridLoaded {s : State} {syms : List Byte} (h : GridLoaded s syms) :
    exec .rleEncode s = .next (afterRleEncode s syms) := by
  obtain ⟨hn, hr⟩ := (gridLoaded_iff s syms).mp h
  rw [exec, execRleEncode, rleEncode, hn]
  simp only [bind, Except.bind, hr, pure, Except.pure, CommandResult.ofExcept, finish, afterRleEncode, rleWords,
    List.length_map, List.map_map]
  rfl

theorem length_lt_of_gridLoaded {s : State} {syms : List Byte} (hp : s.params.legal = true) (h : GridLoaded s syms) :
    syms.length < 2 ^ 32 := by
  obtain ⟨hmax, -⟩ := legal_bounds hp
  have hlen := h.size_eq
  have hle := h.size_le
  omega

/-- The token count fits RLE_COUNT, so the block holds the tokens of the input. -/
theorem holdsTokens_afterRleEncode (s : State) {syms : List Byte} (hlen : syms.length < 2 ^ 32) :
    HoldsTokens (afterRleEncode s syms) (rleWords syms) where
  count_eq := Nat.mod_eq_of_lt ((length_rleWords_le syms).trans_lt hlen)
  sym_eq k hk := by
    have hk' : k < ((rleWords syms).map Prod.fst).length := by rwa [List.length_map]
    exact (get?_setRange_of_lt _ hk').trans (by rw [List.getElem_map])
  run_eq k hk := by
    have hk' : k < ((rleWords syms).map Prod.snd).length := by rwa [List.length_map]
    exact (get?_setRange_of_lt _ hk').trans (by rw [List.getElem_map])

/-- Settles O35: the tokens are those of the encoder's loop, whose runs are the maximal ones. -/
theorem rleEncodeEmitsMaximalRuns : Obligations.RleEncodeEmitsMaximalRuns := by
  refine ⟨decode_encode .rleEncode, fun s => ⟨fun syms hp h => ?_, shapeCheckComesFirst s .rleEncode (by simp)⟩⟩
  have hlen := length_lt_of_gridLoaded hp h
  exact ⟨afterRleEncode s syms, rleWords syms, exec_rleEncode_of_gridLoaded h, holdsTokens_afterRleEncode s hlen,
    one_le_run_of_mem_rleWords hlen, (runSum_rleWords hlen).trans h.size_eq,
    fun k hk => (isChain_rleWords syms).getElem k hk, expandTokens_rleWords hlen, rfl, fun k hk =>
      ⟨get?_setRange_of_length_le _ (by rwa [List.length_map]),
        get?_setRange_of_length_le _ (by rwa [List.length_map])⟩⟩

/-! ### The decoder's two passes (R134) -/

/-- The validation pass over written runs: it raises where one of them is 0, and else answers their sum. -/
theorem sumRuns_of_readRange {m : Memory} {t : Nat} {runs : List Word}
    (h : readRange .rleRun m.rleRun t runs.length = .ok runs) :
    sumRuns m t runs.length =
      if 0#32 ∈ runs then .error (.raised .decodeMismatch) else .ok (runs.map BitVec.toNat).sum := by
  induction runs generalizing t with
  | nil => rfl
  | cons r rs ih =>
    obtain ⟨hr, hrs⟩ := (readRange_cons_iff _ _ _ _ _ _).mp h
    simp only [List.length_cons, sumRuns, hr, ih hrs, bind, Except.bind, pure, Except.pure]
    by_cases h0 : r = 0#32
    · simp [h0]
    · by_cases hmem : 0#32 ∈ rs
      · simp [h0, hmem]
      · simp [h0, hmem, Ne.symm h0]

/-- The expansion pass over written tokens. -/
theorem expandRuns_of_readRange {m : Memory} {t : Nat} {ts : List (Byte × Word)}
    (hsym : readRange .rleSym m.rleSym t ts.length = .ok (ts.map Prod.fst))
    (hrun : readRange .rleRun m.rleRun t ts.length = .ok (ts.map Prod.snd)) :
    expandRuns m t ts.length = .ok (expandTokens ts) := by
  induction ts generalizing t with
  | nil => rfl
  | cons x xs ih =>
    obtain ⟨hv, hvs⟩ := (readRange_cons_iff _ _ _ _ _ _).mp hsym
    obtain ⟨hr, hrs⟩ := (readRange_cons_iff _ _ _ _ _ _).mp hrun
    simp only [List.length_cons, expandRuns, hv, hr, ih hvs hrs, bind, Except.bind, pure, Except.pure,
      expandTokens_cons]

/-- A block holds tokens exactly where RLE_COUNT counts them and both of their fields can be read. -/
theorem holdsTokens_iff (s : State) (ts : List (Byte × Word)) :
    HoldsTokens s ts ↔ s.rleCount.toNat = ts.length ∧
      readRange .rleSym s.mem.rleSym 0 ts.length = .ok (ts.map Prod.fst) ∧
      readRange .rleRun s.mem.rleRun 0 ts.length = .ok (ts.map Prod.snd) := by
  have hsym := readRange_zero_ok_iff .rleSym s.mem.rleSym (ts.map Prod.fst)
  have hrun := readRange_zero_ok_iff .rleRun s.mem.rleRun (ts.map Prod.snd)
  simp only [List.length_map, List.getElem_map] at hsym hrun
  rw [hsym, hrun]
  exact ⟨fun h => ⟨h.count_eq, h.sym_eq, h.run_eq⟩, fun ⟨hcount, hs, hr⟩ => ⟨hcount, hs, hr⟩⟩

/-! ### RLE_DECODE -/

section Decode
variable {s : State} (hn : checkN s = .ok (gridSize s))
include hn

theorem exec_rleDecode_of_capacity (h : s.params.rleMax < s.rleCount.toNat) :
    exec .rleDecode s = .next (failed 3#4 s) := by
  refine exec_of_raised (e := .capacity) ?_
  simp [commandResult, rleDecode, hn, h, bind, Except.bind, CommandResult.ofExcept]

variable (hcap : s.rleCount.toNat ≤ s.params.rleMax)
include hcap

theorem exec_rleDecode_of_badRuns {runs : List Word} (hlen : runs.length = s.rleCount.toNat)
    (hrun : ∀ k, ∀ h : k < runs.length, s.rleRunAt k = some runs[k])
    (hbad : (∃ r ∈ runs, r = 0#32) ∨ (runs.map BitVec.toNat).sum ≠ gridSize s) :
    exec .rleDecode s = .next (failed 2#4 s) := by
  refine exec_of_raised (e := .decodeMismatch) ?_
  have hsum := sumRuns_of_readRange ((readRange_zero_ok_iff .rleRun _ _).mpr hrun)
  rw [hlen] at hsum
  by_cases h0 : 0#32 ∈ runs
  · simp [commandResult, rleDecode, hn, hcap.not_gt, hsum, h0, bind, Except.bind, CommandResult.ofExcept]
  · have hne : (runs.map BitVec.toNat).sum ≠ gridSize s := hbad.resolve_left fun ⟨r, hr, hr0⟩ => h0 (hr0 ▸ hr)
    simp [commandResult, rleDecode, hn, hcap.not_gt, hsum, h0, hne, bind, Except.bind, CommandResult.ofExcept]

/-- The validation pass answers N and the expansion pass the symbols, which then replace DEC from index 0 on. -/
theorem exec_rleDecode_of_holdsTokens {ts : List (Byte × Word)} (h : HoldsTokens s ts)
    (hpos : ∀ x ∈ ts, 1 ≤ x.2.toNat) (htotal : runSum ts = gridSize s) :
    exec .rleDecode s = .next { completed s with
      decCount := BitVec.ofNat 32 (gridSize s)
      mem := { s.mem with dec := Sparse.setRange s.mem.dec 0 (expandTokens ts) } } := by
  obtain ⟨hcount, hsym, hrun⟩ := (holdsTokens_iff s ts).mp h
  have h0 : 0#32 ∉ ts.map Prod.snd := fun hmem => by
    obtain ⟨x, hx, hx0⟩ := List.mem_map.mp hmem
    have hx1 := hpos x hx
    rw [hx0] at hx1
    exact absurd hx1 (by decide)
  have hsum : sumRuns s.mem 0 s.rleCount.toNat = .ok (gridSize s) := by
    have hruns := sumRuns_of_readRange (m := s.mem) (t := 0) (runs := ts.map Prod.snd) (by rwa [List.length_map])
    rw [if_neg h0, List.length_map, List.map_map] at hruns
    rw [hcount, hruns, ← htotal]
    rfl
  have hexp : expandRuns s.mem 0 s.rleCount.toNat = .ok (expandTokens ts) := by
    rw [hcount, expandRuns_of_readRange hsym hrun]
  have hdecode : rleDecode s = .ok { s with
      decCount := BitVec.ofNat 32 (gridSize s)
      mem := { s.mem with dec := Sparse.setRange s.mem.dec 0 (expandTokens ts) } } := by
    simp [rleDecode, hn, hcap.not_gt, hsum, hexp, bind, Except.bind, pure, Except.pure]
  rw [exec, execRleDecode, hdecode]
  rfl

end Decode

/-- Settles O36: CheckN, the check of RLE_COUNT, the validation pass and the expansion pass, in this order. -/
theorem rleDecodeExpandsTokens : Obligations.RleDecodeExpandsTokens := by
  refine ⟨decode_encode .rleDecode, fun s => ?_⟩
  obtain ⟨hempty, hlarge⟩ := shapeCheckComesFirst s .rleDecode (by simp)
  refine ⟨hempty, hlarge, fun hpos hle => ?_⟩
  have hn : checkN s = .ok (gridSize s) := (checkN_ok_iff s _).mpr ⟨rfl, hpos, hle⟩
  refine ⟨exec_rleDecode_of_capacity hn, fun hcap => ⟨fun ts h hruns htotal => ?_, fun runs =>
    exec_rleDecode_of_badRuns hn hcap⟩⟩
  refine ⟨_, exec_rleDecode_of_holdsTokens hn hcap h hruns htotal, fun i hi => get?_setRange_of_lt _ hi,
    fun i hi => get?_setRange_of_length_le _ ?_, rfl⟩
  rwa [length_expandTokens, htotal]

/-! ### The round trip (R135) -/

/-- Which tokens a block holds depends on RLE_COUNT and the elements below it alone. -/
theorem holdsTokens_of_same_tokens {s s' : State} {ts : List (Byte × Word)} (h : HoldsTokens s ts)
    (hcount : s'.rleCount = s.rleCount)
    (hsame : ∀ k < s.rleCount.toNat, s'.rleSymAt k = s.rleSymAt k ∧ s'.rleRunAt k = s.rleRunAt k) :
    HoldsTokens s' ts where
  count_eq := hcount ▸ h.count_eq
  sym_eq k hk := (hsame k (h.count_eq ▸ hk)).1.trans (h.sym_eq k hk)
  run_eq k hk := (hsame k (h.count_eq ▸ hk)).2.trans (h.run_eq k hk)

/-- Settles O37: the later state holds the encoder's tokens, whose expansion is the input. -/
theorem rleRoundTrip : Obligations.RleRoundTrip := by
  intro s t t' syms hp h hexec hparams hH hW hC hcount hsame
  cases (exec_rleEncode_of_gridLoaded h).symm.trans hexec
  have hlen := length_lt_of_gridLoaded hp h
  have htokens : HoldsTokens t' (rleWords syms) :=
    holdsTokens_of_same_tokens (holdsTokens_afterRleEncode s hlen) hcount hsame
  have hparams : t'.params = s.params := hparams
  have hsize : gridSize t' = gridSize s := by
    rw [gridSize, hH, hW, hC]
    rfl
  have hn : checkN t' = .ok (gridSize t') :=
    (checkN_ok_iff t' _).mpr ⟨rfl, hsize ▸ h.size_pos, by rw [hsize, hparams]; exact h.size_le⟩
  have hcap : t'.rleCount.toNat ≤ t'.params.rleMax := by
    have hfit := length_rleWords_le syms
    have hsz := h.size_eq
    have hle := h.size_le
    simp only [Params.legal, Bool.and_eq_true, decide_eq_true_eq] at hp
    rw [htokens.count_eq, hparams]
    omega
  have htotal : runSum (rleWords syms) = gridSize t' := (runSum_rleWords hlen).trans (h.size_eq.trans hsize.symm)
  refine ⟨_, exec_rleDecode_of_holdsTokens hn hcap htokens (one_le_run_of_mem_rleWords hlen) htotal, rfl,
    fun i hi => ?_, ?_⟩
  · rw [expandTokens_rleWords hlen]
    exact get?_setRange_of_lt _ hi
  · rw [hsize]
    exact Nat.mod_eq_of_lt (h.size_eq ▸ hlen)

end Sys2Proof.Proofs
end

section
/-! PROOFS. The Huffman Tree Builder (43_tree.md R150 to R157): what TREE_BUILD leaves, as a function of FREQ, and
the shape of its tree. The invariant of the merge loop is `Merging`. -/

namespace Sys2Proof.Proofs

open Sys2Proof.Machine Sys2Proof.Stated

/-! ### The leaves of FREQ (R153) -/

theorem mem_allBytes (v : Byte) : v ∈ allBytes :=
  List.mem_map.mpr ⟨v.toNat, List.mem_range.mpr v.isLt, by rw [BitVec.ofNat_toNat, BitVec.setWidth_eq]⟩

/-- The leaves are exactly the leaves of the symbols whose frequency is not 0. -/
theorem mem_leaves_iff (freq : Sparse Word) (n : NodeEntry) :
    n ∈ leaves freq ↔ ∃ v : Byte, Sparse.read freq v.toNat ≠ 0#32 ∧ n = leafNode (Sparse.read freq v.toNat) v := by
  simp only [leaves_eq_filterMap, List.mem_filterMap, leafOf_eq_some_iff, mem_allBytes, true_and]

theorem nodup_leaves (freq : Sparse Word) : (leaves freq).Nodup :=
  (leaves_ascending freq).imp fun hlt heq => absurd hlt (by rw [heq]; exact lt_irrefl _)

/-- There is one leaf for every nonzero entry of FREQ. -/
theorem length_leaves (freq : Sparse Word) :
    (leaves freq).length = (List.range 256).countP fun v => decide (Sparse.read freq v ≠ 0#32) := by
  rw [leaves_eq_filterMap, List.length_filterMap_eq_countP, allBytes, List.countP_map]
  refine List.countP_congr fun v hv => ?_
  have hv : (BitVec.ofNat 8 v).toNat = v := Nat.mod_eq_of_lt (List.mem_range.mp hv)
  by_cases h : Sparse.read freq v = 0#32 <;> simp [leafOf, hv, h]

/-- The leaves depend on the 256 entries of FREQ alone, however FREQ lists them. -/
theorem leaves_congr {freq freq' : Sparse Word} (h : ∀ v < 256, Sparse.read freq' v = Sparse.read freq v) :
    leaves freq' = leaves freq := by
  have hleaf : leafOf freq' = leafOf freq := funext fun v => by rw [leafOf, leafOf, h v.toNat v.isLt]
  rw [leaves_eq_filterMap, leaves_eq_filterMap, hleaf]

/-- A FREQ whose only nonzero entry is that of `v` has the leaf of `v` alone (R155). -/
theorem leaves_eq_singleton {freq : Sparse Word} {v : Byte} (hv : Sparse.read freq v.toNat ≠ 0#32)
    (h : ∀ w : Byte, w ≠ v → Sparse.read freq w.toNat = 0#32) :
    leaves freq = [leafNode (Sparse.read freq v.toNat) v] := by
  refine List.perm_singleton.mp ((List.perm_ext_iff_of_nodup (nodup_leaves freq) (List.nodup_singleton _)).mpr ?_)
  intro n
  rw [mem_leaves_iff, List.mem_singleton]
  constructor
  · rintro ⟨w, hw, rfl⟩
    obtain rfl : w = v := by_contra fun hne => hw (h w hne)
    rfl
  · exact fun hn => ⟨v, hv, hn⟩

/-! ### What TREE_BUILD leaves (R150) -/

/-- The nodes that TREE_BUILD makes of FREQ, by id. -/
def treePool (freq : Sparse Word) : List NodeEntry :=
  leaves freq ++ (mergeLoop (Config.alphabet - 1) (queueOf 0 (leaves freq)) (leaves freq).length).1

/-- The queue entry of the root, the last node made: its frequency is the sum of FREQ. -/
def rootEntry (freq : Sparse Word) : QueueEntry := { freq := freqSum freq, id := (treePool freq).length - 1 }

/-- A state that holds `pool`, a finished tree with `k` leaves (R156). -/
def withTree (k : Nat) (pool : List NodeEntry) (s : State) : State :=
  { s with
    leafCount := BitVec.ofNat 9 k
    nodeCount := BitVec.ofNat 10 pool.length
    root := BitVec.ofNat 9 (pool.length - 1)
    mem := { s.mem with node := Sparse.setRange s.mem.node 0 pool } }

/-- The state that a successful TREE_BUILD leaves, before completion. -/
def afterTreeBuild (s : State) : State :=
  withTree (leaves s.mem.freq).length (treePool s.mem.freq) s

section Pool
variable {freq : Sparse Word} (hpos : 0 < freqSum freq) (hle : freqSum freq ≤ Config.freqSumMax)
include hpos

/-- 255 merges are enough for the queue that holds the leaves (R289). -/
theorem length_queueOf_leaves_le : (queueOf 0 (leaves freq)).length ≤ Config.alphabet - 1 + 1 := by
  have h := merging_leaves hpos.ne'
  have hlen := h.length_eq
  have hk := h.leaf_le
  rw [Config.alphabet]
  omega

include hle

/-- The merge loop ends in its invariant, with the root alone in the queue. -/
theorem treePool_merging : Merging (leaves freq).length (freqSum freq) (treePool freq) [rootEntry freq] ∧
    (mergeLoop (Config.alphabet - 1) (queueOf 0 (leaves freq)) (leaves freq).length).2 = (rootEntry freq).id := by
  obtain ⟨e, hid, h⟩ :=
    mergeLoop_merging (hle.trans_lt (by decide)) _ (merging_leaves hpos.ne') (length_queueOf_leaves_le hpos)
  have hroot : e = rootEntry freq := by
    have hfreq : e.freq = freqSum freq := by simpa using h.sum_eq
    have hlast : e.id = (treePool freq).length - 1 := List.singleton_inj.mp (h.last_id rfl)
    rw [rootEntry, ← hfreq, ← hlast]
  rw [← hroot]
  exact ⟨h, hid.symm⟩

theorem length_treePool_succ : (treePool freq).length + 1 = 2 * (leaves freq).length :=
  (treePool_merging hpos hle).1.length_eq

end Pool

theorem toNat_leafCount_afterTreeBuild (s : State) : (afterTreeBuild s).leafCount.toNat = (leaves s.mem.freq).length :=
  Nat.mod_eq_of_lt ((length_leaves_le _).trans_lt (by decide))

section Result
variable {s : State} (hpos : 0 < frequencySum s) (hle : frequencySum s ≤ 0xFFFFFFFF)
include hpos hle

theorem exec_treeBuild_of_sum_in_range : exec .treeBuild s = .next (completed (afterTreeBuild s)) := by
  have hne : freqSum s.mem.freq ≠ 0 := hpos.ne'
  have hcap : ¬ Config.freqSumMax < freqSum s.mem.freq := hle.not_gt
  have hroot : _ = (treePool s.mem.freq).length - 1 := (treePool_merging hpos hle).2
  have hbuild : treeBuild s = .ok (afterTreeBuild s) := by
    rw [treeBuild, if_neg hne, if_neg hcap, afterTreeBuild, withTree, ← hroot, treePool, List.length_append]
  refine exec_of_done ?_
  rw [commandResult, hbuild]
  rfl

theorem toNat_nodeCount_afterTreeBuild : (afterTreeBuild s).nodeCount.toNat = (treePool s.mem.freq).length := by
  have hlen := length_treePool_succ hpos hle
  have hk := length_leaves_le s.mem.freq
  exact Nat.mod_eq_of_lt (by omega)

theorem toNat_root_afterTreeBuild : (afterTreeBuild s).root.toNat = (rootEntry s.mem.freq).id := by
  have hlen := length_treePool_succ hpos hle
  have hk := length_leaves_le s.mem.freq
  exact Nat.mod_eq_of_lt (by omega)

end Result

theorem get?_node_afterTreeBuild {s : State} {id : Nat} (h : id < (treePool s.mem.freq).length) :
    Sparse.get? (afterTreeBuild s).mem.node id = (treePool s.mem.freq)[id]? := by
  rw [List.getElem?_eq_getElem h]
  exact get?_setRange_of_lt _ h

/-! ### The shape of the tree (R156) -/

/-- The tree that TREE_BUILD leaves has R156's shape. -/
theorem treeShape_afterTreeBuild {s : State} (hpos : 0 < frequencySum s) (hle : frequencySum s ≤ 0xFFFFFFFF) :
    TreeShape (afterTreeBuild s).mem.node (afterTreeBuild s).leafCount.toNat (afterTreeBuild s).nodeCount.toNat
      (afterTreeBuild s).root.toNat := by
  obtain ⟨h, -⟩ := treePool_merging hpos hle
  rw [toNat_leafCount_afterTreeBuild, toNat_nodeCount_afterTreeBuild hpos hle, toNat_root_afterTreeBuild hpos hle,
    treePool, List.length_append]
  exact h.treeShape fun id hid => get?_node_afterTreeBuild hid

/-- The node of a leaf's id is that leaf. -/
theorem nodeAt_leaf_afterTreeBuild (s : State) {id : Nat} (h : id < (leaves s.mem.freq).length) :
    (afterTreeBuild s).nodeAt id = some (leaves s.mem.freq)[id] := by
  have hpool : id < (treePool s.mem.freq).length := by
    rw [treePool, List.length_append]
    omega
  rw [State.nodeAt, get?_node_afterTreeBuild hpool, treePool, List.getElem?_append_left h, List.getElem?_eq_getElem h]

theorem freq_of_nodeAt_leaf {s : State} {id : Nat} {n : NodeEntry} (hid : id < (leaves s.mem.freq).length)
    (hn : (afterTreeBuild s).nodeAt id = some n) : n.freq = s.freqAt n.symbol.toNat := by
  obtain rfl := Option.some.inj ((nodeAt_leaf_afterTreeBuild s hid).symm.trans hn)
  obtain ⟨v, -, hv⟩ := (mem_leaves_iff s.mem.freq _).mp (List.getElem_mem hid)
  rw [hv]
  rfl

/-- The symbols with a leaf are those with a nonzero frequency. -/
theorem hasLeaf_afterTreeBuild_iff (s : State) (v : Byte) :
    hasLeaf (afterTreeBuild s) v ↔ s.freqAt v.toNat ≠ 0#32 := by
  rw [hasLeaf, toNat_leafCount_afterTreeBuild]
  constructor
  · rintro ⟨id, n, hid, hn, rfl⟩
    obtain rfl := Option.some.inj ((nodeAt_leaf_afterTreeBuild s hid).symm.trans hn)
    exact (eq_leafNode_of_mem_leaves (List.getElem_mem hid)).1
  · intro hv
    obtain ⟨id, hid, hn⟩ := List.mem_iff_getElem.mp ((mem_leaves_iff s.mem.freq _).mpr ⟨v, hv, rfl⟩)
    exact ⟨id, _, hid, nodeAt_leaf_afterTreeBuild s hid, by rw [hn]; rfl⟩

/-- The root is the only queue entry left, so its frequency is the sum of FREQ. -/
theorem exists_root_afterTreeBuild {s : State} (hpos : 0 < frequencySum s) (hle : frequencySum s ≤ 0xFFFFFFFF) :
    ∃ n, (afterTreeBuild s).nodeAt (afterTreeBuild s).root.toNat = some n ∧ n.freq.toNat = frequencySum s := by
  obtain ⟨h, -⟩ := treePool_merging hpos hle
  obtain ⟨n, hn, hfreq⟩ := h.freq_eq _ (List.mem_singleton_self _)
  refine ⟨n, ?_, hfreq⟩
  rw [toNat_root_afterTreeBuild hpos hle, State.nodeAt, get?_node_afterTreeBuild (List.getElem?_eq_some_iff.mp hn).1]
  exact hn

/-- Ids fall along a path and every node above its end is internal, so from `id` on at most `id - (k - 1)` steps lead
down. -/
theorem length_le_of_followPath {node : Sparse NodeEntry} {k count root : Nat} (h : TreeShape node k count root)
    {p : Bits} {id j : Nat} (hid : id ≤ root) (hp : followPath node id p = some j) : p.length ≤ id - (k - 1) := by
  induction p generalizing id with
  | nil => exact Nat.zero_le _
  | cons b p ih =>
    obtain ⟨n, hn, hleaf | hinner⟩ := treeShape_node_cases h hid
    · simp [followPath, hn, hleaf] at hp
    · have hchild : (if b then n.right.toNat else n.left.toNat) < id := by
        cases b
        · exact hinner.left_lt
        · exact hinner.right_lt
      rw [followPath, hn] at hp
      simp only [hinner.not_leaf, Bool.false_eq_true, if_false] at hp
      have hrest := ih (by omega) hp
      have hk := hinner.leaf_le
      have hk1 := h.leaf_pos
      rw [List.length_cons]
      omega

/-- No path from the root is longer than `k - 1` (R156). -/
theorem length_le_of_followPath_root {node : Sparse NodeEntry} {k count root : Nat} (h : TreeShape node k count root)
    {p : Bits} {j : Nat} (hp : followPath node root p = some j) : p.length ≤ k - 1 := by
  have hlen := length_le_of_followPath h (le_refl root) hp
  have hroot := h.root_eq
  omega

/-- Settles O39: what TREE_BUILD leaves is the pool of the finished merge loop, whose invariant gives the shape. -/
theorem treeBuildMakesTheTree : Obligations.TreeBuildMakesTheTree := by
  intro s hpos hle
  have hshape := treeShape_afterTreeBuild hpos hle
  have hleafCount := toNat_leafCount_afterTreeBuild s
  refine ⟨_, exec_treeBuild_of_sum_in_range hpos hle, hleafCount.trans (length_leaves _), hshape,
    fun id n hid => freq_of_nodeAt_leaf (hid.trans_eq hleafCount), fun v => (hasLeaf_afterTreeBuild_iff s v).symm,
    exists_root_afterTreeBuild hpos hle, fun p id => length_le_of_followPath_root hshape, fun k hk => ?_, rfl⟩
  exact get?_setRange_of_length_le _ ((toNat_nodeCount_afterTreeBuild hpos hle).symm.trans_le hk)

/-! ### The input checks (R152) -/

/-- TREE_BUILD on a FREQ whose sum no NODE FREQ field holds (R152). -/
theorem treeBuild_of_freqSumMax_lt {s : State} (h : Config.freqSumMax < freqSum s.mem.freq) :
    treeBuild s = .error (.raised .capacity) := by
  rw [treeBuild, if_neg (by omega), if_pos h]

/-- Settles O38: both checks come before any write, and FREQ_COUNT's counts sum to N. -/
theorem treeBuildChecksTheSum : Obligations.TreeBuildChecksTheSum := by
  refine ⟨fun s => ⟨fun hzero => exec_of_raised (e := .emptyInput) ?_, fun hlarge =>
    exec_of_raised (e := .capacity) ?_⟩, fun s t syms hp h hexec => ?_⟩
  · rw [commandResult, treeBuild_of_freqSum_eq_zero hzero]
    rfl
  · rw [commandResult, treeBuild_of_freqSumMax_lt hlarge]
    rfl
  · obtain ⟨hsum, -⟩ := freqCountTotals s t syms hp h hexec
    obtain ⟨hmax, -⟩ := legal_bounds hp
    exact hsum.trans_le (h.size_le.trans hmax)

/-! ### The degenerate tree (R155) -/

/-- One leaf is the whole pool: nothing is merged. -/
theorem treePool_of_leaves_singleton {freq : Sparse Word} {n : NodeEntry} (h : leaves freq = [n]) :
    treePool freq = [n] := by
  rw [treePool, h]
  rfl

/-- Settles O41: the leaf of `v` is the only leaf, and FREQ sums to its frequency. -/
theorem oneSymbolMakesALeafRoot : Obligations.OneSymbolMakesALeafRoot := by
  intro s v hv hother
  have hleaves := leaves_eq_singleton hv hother
  have hpool := treePool_of_leaves_singleton hleaves
  have hsum : frequencySum s = (s.freqAt v.toNat).toNat := by
    have h := sum_leaves_freq s.mem.freq
    rw [hleaves] at h
    exact h.symm
  have hpos : 0 < frequencySum s := hsum ▸ Nat.pos_of_ne_zero fun h0 => hv (BitVec.eq_of_toNat_eq h0)
  have hle : frequencySum s ≤ 0xFFFFFFFF := hsum ▸ Nat.le_of_lt_succ (s.freqAt v.toNat).isLt
  have hstate : afterTreeBuild s = withTree 1 [leafNode (s.freqAt v.toNat) v] s := by
    rw [afterTreeBuild, hleaves, hpool]
    rfl
  refine ⟨_, exec_treeBuild_of_sum_in_range hpos hle, ?_⟩
  rw [hstate]
  exact ⟨rfl, rfl, rfl, get?_setRange_of_lt _ Nat.one_pos⟩

/-! ### TREE_BUILD is a function of FREQ (R157) -/

/-- Settles O42: the leaves, and with them the pool and FREQ's sum, depend on the 256 entries of FREQ alone. -/
theorem treeDependsOnFrequenciesAlone : Obligations.TreeDependsOnFrequenciesAlone := by
  intro s s' t t' hfreq hpos hle hexec hexec'
  have hleaves : leaves s'.mem.freq = leaves s.mem.freq := leaves_congr hfreq
  have hpool : treePool s'.mem.freq = treePool s.mem.freq := by rw [treePool, hleaves, treePool]
  have hsum : frequencySum s' = frequencySum s := by
    have h := sum_leaves_freq s'.mem.freq
    rw [hleaves, sum_leaves_freq] at h
    exact h.symm
  have hstate : afterTreeBuild s' = withTree (leaves s.mem.freq).length (treePool s.mem.freq) s' := by
    rw [afterTreeBuild, hleaves, hpool]
  have hdone := exec_treeBuild_of_sum_in_range hpos hle
  have hdone' := exec_treeBuild_of_sum_in_range (hpos.trans_eq hsum.symm) (hsum.trans_le hle)
  rw [hstate] at hdone'
  cases hdone.symm.trans hexec
  cases hdone'.symm.trans hexec'
  refine ⟨rfl, rfl, rfl, fun id hid => ?_⟩
  have hid : id < (treePool s.mem.freq).length := hid.trans_eq (toNat_nodeCount_afterTreeBuild hpos hle)
  exact (get?_setRange_of_lt s'.mem.node hid).trans (get?_setRange_of_lt s.mem.node hid).symm

end Sys2Proof.Proofs
end

section
/-! PROOFS. The order of the merges (43_tree.md R151, R154): the merge loop keeps its queue in key order, so every merge
takes the two nodes with the least keys of all that are queued. -/

namespace Sys2Proof.Proofs

open Sys2Proof.Machine Sys2Proof.Stated

/-! ### A queue in key order (R151) -/

theorem before_iff (a b : QueueEntry) :
    a.before b = true ↔ a.freq < b.freq ∨ (a.freq = b.freq ∧ a.id < b.id) := by
  simp [QueueEntry.before]

theorem before_trans {a b c : QueueEntry} (hab : a.before b = true) (hbc : b.before c = true) :
    a.before c = true := by
  rw [before_iff] at *
  omega

/-- Of two entries with different ids one comes first: the order is total. -/
theorem before_of_not_before {a b : QueueEntry} (h : ¬ a.before b = true) (hid : a.id ≠ b.id) : b.before a = true := by
  rw [before_iff] at *
  omega

/-- The queue stands in key order, the least key first. -/
def KeyOrdered (q : List QueueEntry) : Prop :=
  q.Pairwise fun a b => a.before b = true

/-- Adding an entry with a new id keeps the key order. -/
theorem keyOrdered_enqueue {q : List QueueEntry} (h : KeyOrdered q) {e : QueueEntry} (he : ∀ a ∈ q, e.id ≠ a.id) :
    KeyOrdered (enqueue e q) := by
  induction q with
  | nil => exact List.pairwise_singleton _ e
  | cons a q ih =>
    obtain ⟨ha, hq⟩ := List.pairwise_cons.mp h
    unfold enqueue
    split
    case isTrue hea =>
      refine h.cons fun b hb => ?_
      rcases List.mem_cons.mp hb with rfl | hb
      · exact hea
      · exact before_trans hea (ha b hb)
    case isFalse hea =>
      refine (ih hq fun b hb => he b (List.mem_cons_of_mem a hb)).cons fun b hb => ?_
      rcases List.mem_cons.mp ((enqueue_perm e q).mem_iff.mp hb) with rfl | hb
      · exact before_of_not_before hea (he a List.mem_cons_self)
      · exact ha b hb

theorem le_id_of_mem_queueOf {ns : List NodeEntry} {id : Nat} {e : QueueEntry} (h : e ∈ queueOf id ns) : id ≤ e.id := by
  obtain ⟨x, hx, rfl⟩ := List.mem_map.mp ((queueOf_perm ns id).mem_iff.mp h)
  exact (List.mem_zipIdx hx).1

theorem keyOrdered_queueOf (ns : List NodeEntry) (id : Nat) : KeyOrdered (queueOf id ns) := by
  induction ns generalizing id with
  | nil => exact List.Pairwise.nil
  | cons n ns ih => exact keyOrdered_enqueue (ih (id + 1)) fun a ha => (Nat.lt_of_succ_le (le_id_of_mem_queueOf ha)).ne

/-! ### The history of the merge loop -/

theorem Merging.id_lt {k total : Nat} {ns : List NodeEntry} {q : List QueueEntry} (h : Merging k total ns q)
    {e : QueueEntry} (he : e ∈ q) : e.id < ns.length := by
  obtain ⟨n, hn, -⟩ := h.freq_eq e he
  exact (List.getElem?_eq_some_iff.mp hn).1

/-- One merge keeps the key order: the id of the new node is above every queued id. -/
theorem Merging.keyOrdered_merge {k total : Nat} {ns : List NodeEntry} {a b : QueueEntry} {q : List QueueEntry}
    (h : Merging k total ns (a :: b :: q)) (ho : KeyOrdered (a :: b :: q)) :
    KeyOrdered (enqueue { freq := a.freq + b.freq, id := ns.length } q) :=
  keyOrdered_enqueue ho.of_cons.of_cons fun e he => (h.id_lt (by simp [he])).ne'

/-- Node `id` of the pool `ns` is the merge of the first two entries of a queue in key order, which held the nodes
queued when the pool ended before `id`. -/
def MergeOfLeast (k total : Nat) (ns : List NodeEntry) (id : Nat) (n : NodeEntry) : Prop :=
  ∃ a b q, Merging k total (ns.take id) (a :: b :: q) ∧ KeyOrdered (a :: b :: q) ∧ n = internalNode a b

/-- Every node that the merge loop adds to a pool is such a merge. -/
theorem mergeLoop_mergeOfLeast {k total : Nat} (ht : total < 2 ^ 32) (fuel : Nat) {ns : List NodeEntry}
    {q : List QueueEntry} (h : Merging k total ns q) (ho : KeyOrdered q) {id : Nat} {n : NodeEntry}
    (hid : ns.length ≤ id) (hn : (ns ++ (mergeLoop fuel q ns.length).1)[id]? = some n) :
    MergeOfLeast k total (ns ++ (mergeLoop fuel q ns.length).1) id n := by
  have hnone : ns[id]? = none := List.getElem?_eq_none hid
  induction fuel generalizing ns q with
  | zero => simp [mergeLoop, hnone] at hn
  | succ fuel ih =>
    match q, h, ho with
    | [], _, _ => simp [mergeLoop, hnone] at hn
    | [e], _, _ => simp [mergeLoop, hnone] at hn
    | a :: b :: q, h, ho =>
      have hpool : ns ++ (mergeLoop (fuel + 1) (a :: b :: q) ns.length).1 = (ns ++ [internalNode a b]) ++
          (mergeLoop fuel (enqueue { freq := a.freq + b.freq, id := ns.length } q)
            (ns ++ [internalNode a b]).length).1 := by
        simp [mergeLoop]
      rcases hid.eq_or_lt with rfl | hlt
      · refine ⟨a, b, q, by rwa [List.take_left], ho, ?_⟩
        simpa [mergeLoop] using hn.symm
      · have hid' : (ns ++ [internalNode a b]).length ≤ id := by simpa using hlt
        rw [hpool] at hn ⊢
        exact ih (h.merge ht) (h.keyOrdered_merge ho) hid' hn (List.getElem?_eq_none hid')

/-! ### The queue in the words of the statements -/

/-- A memory that holds the pool `ns` below `id` lists there exactly the nodes made before `id`. -/
theorem getElem?_take_eq_some_iff {ns : List NodeEntry} {node : Sparse NodeEntry} {id : Nat}
    (hnode : ∀ i < id, Sparse.get? node i = ns[i]?) (i : Nat) (n : NodeEntry) :
    (ns.take id)[i]? = some n ↔ i < id ∧ Sparse.get? node i = some n := by
  rw [List.getElem?_take]
  by_cases hi : i < id
  · simp [hi, hnode i hi]
  · simp [hi]

theorem mem_childIds_take_iff {ns : List NodeEntry} {node : Sparse NodeEntry} {id : Nat}
    (hnode : ∀ i < id, Sparse.get? node i = ns[i]?) (c : Nat) :
    c ∈ childIds (ns.take id) ↔ ∃ p n, p < id ∧ Sparse.get? node p = some n ∧ isChildOf c n := by
  simp only [childIds, List.mem_flatMap, mem_children_iff]
  constructor
  · rintro ⟨n, hn, hc⟩
    obtain ⟨p, hp⟩ := List.mem_iff_getElem?.mp hn
    obtain ⟨hlt, hget⟩ := (getElem?_take_eq_some_iff hnode p n).mp hp
    exact ⟨p, n, hlt, hget, hc⟩
  · rintro ⟨p, n, hlt, hget, hc⟩
    exact ⟨n, List.mem_of_getElem? ((getElem?_take_eq_some_iff hnode p n).mpr ⟨hlt, hget⟩), hc⟩

/-- The nodes still queued at a pool's end are the entries of its queue: every other node has a parent in the pool. -/
theorem Merging.stillQueued_iff {k total id : Nat} {ns : List NodeEntry} {q : List QueueEntry}
    {node : Sparse NodeEntry} (h : Merging k total (ns.take id) q) (hid : id ≤ ns.length)
    (hnode : ∀ i < id, Sparse.get? node i = ns[i]?) (c : Nat) :
    stillQueued node c id ↔ ∃ e ∈ q, e.id = c := by
  have hlen : (ns.take id).length = id := List.length_take_of_le hid
  have hperm := h.ids_perm
  rw [hlen] at hperm
  have hparent := mem_childIds_take_iff hnode c
  have hdisjoint := (List.nodup_append'.mp (hperm.nodup_iff.mpr List.nodup_range)).2.2
  have hmem : c ∈ q.map QueueEntry.id ∨ c ∈ childIds (ns.take id) ↔ c < id := by
    rw [← List.mem_append, hperm.mem_iff, List.mem_range]
  rw [← List.mem_map, stillQueued, ← hmem]
  constructor
  · rintro ⟨hc | hc, hno⟩
    · exact hc
    · obtain ⟨p, n, hp, hn, hcn⟩ := hparent.mp hc
      exact absurd hcn (hno p n hp hn)
  · exact fun hc => ⟨.inl hc, fun p n hp hn hcn => hdisjoint hc (hparent.mpr ⟨p, n, hp, hn, hcn⟩)⟩

/-- The key order of queue entries is the key order of their nodes. -/
theorem Merging.keyLess_of_before {k total id : Nat} {ns : List NodeEntry} {q : List QueueEntry}
    {node : Sparse NodeEntry} (h : Merging k total (ns.take id) q) (hnode : ∀ i < id, Sparse.get? node i = ns[i]?)
    {a b : QueueEntry} (ha : a ∈ q) (hb : b ∈ q) (hab : a.before b = true) : keyLess node a.id b.id := by
  have hget : ∀ e ∈ q, ∃ n, Sparse.get? node e.id = some n ∧ n.freq.toNat = e.freq := by
    intro e he
    obtain ⟨n, hn, hf⟩ := h.freq_eq e he
    exact ⟨n, ((getElem?_take_eq_some_iff hnode e.id n).mp hn).2, hf⟩
  obtain ⟨x, hx, hxf⟩ := hget a ha
  obtain ⟨y, hy, hyf⟩ := hget b hb
  exact ⟨x, y, hx, hy, by rw [hxf, hyf]; exact (before_iff a b).mp hab⟩

/-- A merge of the first two entries of a queue in key order takes the two least keys, the least as LEFT (R154). -/
theorem MergeOfLeast.takes_least {k total id : Nat} {ns : List NodeEntry} {node : Sparse NodeEntry} {n : NodeEntry}
    (h : MergeOfLeast k total ns id n) (hlen : ns.length ≤ 511) (hid : id < ns.length)
    (hnode : ∀ i < id, Sparse.get? node i = ns[i]?) :
    stillQueued node n.left.toNat id ∧ stillQueued node n.right.toNat id ∧ keyLess node n.left.toNat n.right.toNat ∧
      ∀ c, stillQueued node c id → c ≠ n.left.toNat → c ≠ n.right.toNat → keyLess node n.right.toNat c := by
  obtain ⟨a, b, q, hm, ho, rfl⟩ := h
  have hqueued := hm.stillQueued_iff hid.le hnode
  have ha : a ∈ a :: b :: q := by simp
  have hb : b ∈ a :: b :: q := by simp
  have hsmall : ∀ e ∈ a :: b :: q, e.id < 2 ^ 9 := fun e he => by
    have := hm.id_lt he
    rw [List.length_take_of_le hid.le] at this
    omega
  have hleft : (internalNode a b).left.toNat = a.id := Nat.mod_eq_of_lt (hsmall a ha)
  have hright : (internalNode a b).right.toNat = b.id := Nat.mod_eq_of_lt (hsmall b hb)
  obtain ⟨hafter_a, hrest⟩ := List.pairwise_cons.mp ho
  obtain ⟨hafter_b, -⟩ := List.pairwise_cons.mp hrest
  rw [hleft, hright]
  refine ⟨(hqueued _).mpr ⟨a, ha, rfl⟩, (hqueued _).mpr ⟨b, hb, rfl⟩,
    hm.keyLess_of_before hnode ha hb (hafter_a b (by simp)), fun c hc hca hcb => ?_⟩
  obtain ⟨e, he, rfl⟩ := (hqueued c).mp hc
  have heq : e ∈ q := by
    rcases List.mem_cons.mp he with rfl | he
    · exact absurd rfl hca
    · rcases List.mem_cons.mp he with rfl | he
      · exact absurd rfl hcb
      · exact he
  exact hm.keyLess_of_before hnode hb (by simp [heq]) (hafter_b e heq)

/-! ### The merges of TREE_BUILD -/

/-- Settles O40: every internal node is the merge of the first two entries of a queue in key order. -/
theorem mergesTakeTheTwoLeastKeys : Obligations.MergesTakeTheTwoLeastKeys := by
  intro s t id n hpos hle hexec hleaf hcount hn
  cases (exec_treeBuild_of_sum_in_range hpos hle).symm.trans hexec
  have hid : id < (treePool s.mem.freq).length := hcount.trans_eq (toNat_nodeCount_afterTreeBuild hpos hle)
  have hk : (leaves s.mem.freq).length ≤ id := (toNat_leafCount_afterTreeBuild s).symm.trans_le hleaf
  have hpool : (treePool s.mem.freq)[id]? = some n := (get?_node_afterTreeBuild hid).symm.trans hn
  have hlen : (treePool s.mem.freq).length ≤ 511 := by
    have := length_treePool_succ hpos hle
    have := length_leaves_le s.mem.freq
    omega
  have hmerge : MergeOfLeast (leaves s.mem.freq).length (freqSum s.mem.freq) (treePool s.mem.freq) id n :=
    mergeLoop_mergeOfLeast (hle.trans_lt (by decide)) _ (merging_leaves hpos.ne') (keyOrdered_queueOf _ _) hk hpool
  exact hmerge.takes_least hlen hid fun i hi => get?_node_afterTreeBuild (hi.trans hid)

end Sys2Proof.Proofs
end

section
/-! PROOFS. Codes in memory: a bitstring in the cells of a symbol (10_state.md R43), the recording of a list of codes
and the greatest length (44_codes.md R170, R173). -/

namespace Sys2Proof.Proofs

open Sys2Proof.Machine Sys2Proof.Stated

/-! ### A bitstring in the cells of a symbol (R43) -/

theorem bitsVal_lt (p : Bits) : bitsVal p < 2 ^ p.length := by
  induction p with
  | nil => exact Nat.one_pos
  | cons b p ih =>
    have hb := b.toNat_le
    rw [bitsVal, List.length_cons, Nat.pow_succ]
    nlinarith

/-- Bit k of a bitstring, from the front, is bit `length - 1 - k` of its number. -/
theorem testBit_bitsVal (p : Bits) {k : Nat} (hk : k < p.length) : (bitsVal p).testBit (p.length - 1 - k) = p[k] := by
  induction p generalizing k with
  | nil => exact absurd hk (Nat.not_lt_zero k)
  | cons b p ih =>
    have hbits : (bitsVal (b :: p)).testBit (p.length - k) =
        if p.length - k < p.length then (bitsVal p).testBit (p.length - k)
        else b.toNat.testBit (p.length - k - p.length) := by
      rw [bitsVal, Nat.mul_comm]
      exact Nat.testBit_two_pow_mul_add _ (bitsVal_lt p) _
    rw [List.length_cons, Nat.add_sub_cancel, hbits]
    cases k with
    | zero => cases b <;> simp
    | succ k =>
      rw [List.length_cons] at hk
      have hpos : p.length - (k + 1) = p.length - 1 - k := by omega
      rw [if_pos (by omega), hpos, ih (by omega), List.getElem_cons_succ]

/-- A bitstring's cells hold its bits, code bit 0 in the most significant cell, and 0 behind them. -/
theorem getMsbD_cellsOfBits {p : Bits} (hp : p.length ≤ 256) {k : Nat} (hk : k < 256) :
    (cellsOfBits p).getMsbD k = p.getD k false := by
  have hcell : (cellsOfBits p).getMsbD k =
      (decide (256 - p.length ≤ 255 - k) && (bitsVal p).testBit (255 - k - (256 - p.length))) := by
    rw [cellsOfBits, BitVec.getMsbD_eq_getLsbD, BitVec.getLsbD_ofNat, Nat.testBit_mul_two_pow, decide_eq_true hk,
      decide_eq_true (by omega : 256 - 1 - k < 256), Bool.true_and, Bool.true_and]
  rw [hcell]
  rcases Nat.lt_or_ge k p.length with h | h
  · have hbit : 255 - k - (256 - p.length) = p.length - 1 - k := by omega
    rw [hbit, testBit_bitsVal p h, decide_eq_true (by omega), Bool.true_and, List.getD_eq_getElem _ _ h]
  · rw [decide_eq_false (by omega), Bool.false_and, List.getD_eq_default _ _ h]

theorem takeCells_cellsOfBits {p : Bits} (hp : p.length ≤ 256) : takeCells (cellsOfBits p) p.length = p := by
  refine List.ext_getElem (by simp [takeCells]) fun k hk hk' => ?_
  simp only [takeCells, List.getElem_map, List.getElem_range]
  rw [getMsbD_cellsOfBits hp (by omega), List.getD_eq_getElem _ _ hk']

/-! ### Recording the codes (R170) -/

/-- What CODE holds for a symbol: its length and its cells (R43). -/
def codeEntry (m : Memory) (v : Byte) : Byte × CodeCells :=
  (Sparse.read m.codeLen v.toNat, Sparse.read m.codeBits v.toNat)

theorem codeEntry_recordCode (m : Memory) (e : Byte × Bits) (v : Byte) :
    codeEntry (recordCode m e) v = if v = e.1 then (BitVec.ofNat 8 e.2.length, cellsOfBits e.2) else codeEntry m v := by
  simp only [codeEntry, recordCode, read_write, BitVec.toNat_inj]
  split <;> rfl

theorem codeEntry_foldl_of_not_mem {codes : List (Byte × Bits)} {v : Byte} (h : v ∉ codes.map Prod.fst) (m : Memory) :
    codeEntry (codes.foldl recordCode m) v = codeEntry m v := by
  induction codes generalizing m with
  | nil => rfl
  | cons e codes ih =>
    obtain ⟨hne, hrest⟩ := not_or.mp (mt List.mem_cons.mpr h)
    rw [List.foldl_cons, ih hrest, codeEntry_recordCode, if_neg hne]

theorem codeEntry_foldl_of_mem {codes : List (Byte × Bits)} (hnd : (codes.map Prod.fst).Nodup) {e : Byte × Bits}
    (he : e ∈ codes) (m : Memory) :
    codeEntry (codes.foldl recordCode m) e.1 = (BitVec.ofNat 8 e.2.length, cellsOfBits e.2) := by
  induction codes generalizing m with
  | nil => cases he
  | cons d codes ih =>
    obtain ⟨hnew, hnd⟩ := List.nodup_cons.mp hnd
    rcases List.mem_cons.mp he with rfl | he
    · rw [List.foldl_cons, codeEntry_foldl_of_not_mem hnew, codeEntry_recordCode, if_pos rfl]
    · exact ih hnd he _

/-- A symbol that no recorded code is for has length and cells 0. -/
theorem codeEntry_recordCodes_of_not_mem {codes : List (Byte × Bits)} {v : Byte} (h : v ∉ codes.map Prod.fst)
    (m : Memory) : codeEntry (recordCodes m codes) v = (0#8, 0#256) :=
  codeEntry_foldl_of_not_mem h _

/-! ### The greatest length (R173) -/

theorem max?_codeLens (m : Memory) :
    (0 :: (List.range 256).map fun v => (Sparse.read m.codeLen v).toNat).max? = some (greatestCodeLen m) := by
  rw [List.max?_cons', List.foldl_map]
  rfl

theorem codeLen_le_greatestCodeLen (m : Memory) {v : Nat} (hv : v < 256) :
    (Sparse.read m.codeLen v).toNat ≤ greatestCodeLen m :=
  (List.max?_eq_some_iff.mp (max?_codeLens m)).2 _
    (List.mem_cons_of_mem _ (List.mem_map.mpr ⟨v, List.mem_range.mpr hv, rfl⟩))

theorem exists_codeLen_eq_greatestCodeLen (m : Memory) :
    ∃ v < 256, (Sparse.read m.codeLen v).toNat = greatestCodeLen m := by
  rcases List.mem_cons.mp (List.max?_eq_some_iff.mp (max?_codeLens m)).1 with hzero | hmem
  · have hle := codeLen_le_greatestCodeLen m (v := 0) (by decide)
    exact ⟨0, by decide, by omega⟩
  · obtain ⟨v, hv, heq⟩ := List.mem_map.mp hmem
    exact ⟨v, List.mem_range.mp hv, heq⟩

end Sys2Proof.Proofs
end

section
/-! PROOFS. The paths of a Huffman tree (43_tree.md R156, 44_codes.md R171), and what the walk of CODE_GEN records: the
codes as paths to leaves, each symbol once, and their Kraft sum. -/

namespace Sys2Proof.Proofs

open Sys2Proof.Machine Sys2Proof.Stated

/-! ### The paths of a tree (R156, R171) -/

/-- The child that a path goes on to with bit `b` (R171). -/
def childId (b : Bool) (n : NodeEntry) : Nat := if b then n.right.toNat else n.left.toNat

/-- Node `id` is a leaf of symbol `v`. -/
def LeafAt (node : Sparse NodeEntry) (id : Nat) (v : Byte) : Prop :=
  ∃ n, Sparse.get? node id = some n ∧ n.isLeaf = true ∧ n.symbol = v

/-- The walk along `q` from node `id` ends at a leaf of symbol `v`. -/
def PathToLeaf (node : Sparse NodeEntry) (id : Nat) (q : Bits) (v : Byte) : Prop :=
  ∃ j, followPath node id q = some j ∧ LeafAt node j v

theorem childId_lt {k id : Nat} {n : NodeEntry} (h : InnerAt k id n) (b : Bool) : childId b n < id := by
  cases b
  · exact h.left_lt
  · exact h.right_lt

section Paths
variable {node : Sparse NodeEntry} {id j : Nat} {n : NodeEntry} {b : Bool} {p q : Bits} {v : Byte}

theorem followPath_of_leaf (hn : Sparse.get? node id = some n) (hleaf : n.isLeaf = true) :
    followPath node id (b :: q) = none := by
  simp [followPath, hn, hleaf]

theorem followPath_of_inner (hn : Sparse.get? node id = some n) (hint : n.isLeaf = false) :
    followPath node id (b :: q) = followPath node (childId b n) q := by
  simp [followPath, hn, hint, childId]

theorem followPath_append (node : Sparse NodeEntry) (id : Nat) (p q : Bits) :
    followPath node id (p ++ q) = (followPath node id p).bind fun j => followPath node j q := by
  induction p generalizing id with
  | nil => rfl
  | cons b p ih =>
    cases hn : Sparse.get? node id with
    | none => simp [followPath, hn]
    | some n =>
      cases hleaf : n.isLeaf with
      | true => simp [followPath_of_leaf hn hleaf]
      | false => simp only [List.cons_append, followPath_of_inner hn hleaf, ih]

theorem pathToLeaf_iff_of_leaf (hn : Sparse.get? node id = some n) (hleaf : n.isLeaf = true) :
    PathToLeaf node id q v ↔ q = [] ∧ n.symbol = v := by
  cases q with
  | nil => simp [PathToLeaf, followPath, LeafAt, hn, hleaf]
  | cons b q => simp [PathToLeaf, followPath_of_leaf hn hleaf]

theorem not_pathToLeaf_nil (hn : Sparse.get? node id = some n) (hint : n.isLeaf = false) :
    ¬ PathToLeaf node id [] v := by
  simp [PathToLeaf, followPath, LeafAt, hn, hint]

theorem pathToLeaf_cons_iff (hn : Sparse.get? node id = some n) (hint : n.isLeaf = false) :
    PathToLeaf node id (b :: q) v ↔ PathToLeaf node (childId b n) q v := by
  rw [PathToLeaf, followPath_of_inner hn hint, PathToLeaf]

/-- No path to a leaf goes on to another one. -/
theorem PathToLeaf.eq_of_prefix {w : Byte} (hp : PathToLeaf node id p v) (hq : PathToLeaf node id q w)
    (hpre : p <+: q) : v = w := by
  obtain ⟨r, rfl⟩ := hpre
  obtain ⟨j, hj, n, hn, hleaf, rfl⟩ := hp
  have hr : PathToLeaf node j r w := by simpa only [PathToLeaf, followPath_append, hj, Option.bind_some] using hq
  exact ((pathToLeaf_iff_of_leaf hn hleaf).mp hr).2

end Paths

section Tree
variable {node : Sparse NodeEntry} {k count root : Nat} (hshape : TreeShape node k count root)
include hshape

/-- A node of the tree is a leaf exactly where its id is below `k`. -/
theorem leaf_iff_lt {id : Nat} {n : NodeEntry} (hid : id ≤ root) (hn : Sparse.get? node id = some n) :
    n.isLeaf = true ↔ id < k := by
  rcases Nat.lt_or_ge id k with hlt | hge
  · obtain ⟨m, hm, hleaf, -⟩ := hshape.leaf_node id hlt
    obtain rfl : m = n := Option.some.inj (hm.symm.trans hn)
    exact iff_of_true hleaf hlt
  · have hcount : id < count := treeShape_count_eq hshape ▸ Nat.lt_succ_of_le hid
    obtain ⟨m, -, -, hm, hint, -⟩ := hshape.internal_node id hge hcount
    obtain rfl : m = n := Option.some.inj (hm.symm.trans hn)
    exact iff_of_false (by simp [hint]) hge.not_gt

theorem innerAt_of_isLeaf_eq_false {id : Nat} {n : NodeEntry} (hid : id ≤ root) (hn : Sparse.get? node id = some n)
    (hint : n.isLeaf = false) : InnerAt k id n := by
  obtain ⟨m, hm, hcases⟩ := treeShape_node_cases hshape hid
  obtain rfl : m = n := Option.some.inj (hm.symm.trans hn)
  exact hcases.resolve_left (by simp [hint])

/-- The leaves have different symbols (R156). -/
theorem leafAt_injective {i j : Nat} {v : Byte} (hi : i ≤ root) (hj : j ≤ root) (hiv : LeafAt node i v)
    (hjv : LeafAt node j v) : i = j := by
  obtain ⟨m, hm, hmleaf, hmv⟩ := hiv
  obtain ⟨n, hn, hnleaf, hnv⟩ := hjv
  have hik := (leaf_iff_lt hshape hi hm).mp hmleaf
  have hjk := (leaf_iff_lt hshape hj hn).mp hnleaf
  have hsym : m.symbol.toNat = n.symbol.toNat := by rw [hmv, hnv]
  rcases lt_trichotomy i j with hlt | heq | hlt
  · exact absurd (hshape.leaf_order i j m n hlt hjk hm hn) (by omega)
  · exact heq
  · exact absurd (hshape.leaf_order j i n m hlt hik hn hm) (by omega)

/-- A path stays in the tree. -/
theorem le_of_followPath {p : Bits} {id j : Nat} (hid : id ≤ root) (hp : followPath node id p = some j) : j ≤ root := by
  induction p generalizing id with
  | nil => exact Option.some.inj hp ▸ hid
  | cons b p ih =>
    obtain ⟨n, hn, hleaf | hinner⟩ := treeShape_node_cases hshape hid
    · rw [followPath_of_leaf hn hleaf] at hp
      cases hp
    · rw [followPath_of_inner hn hinner.not_leaf] at hp
      exact ih ((childId_lt hinner b).le.trans hid) hp

/-- Every node is reached from the root, since every other node has a parent, which has a greater id. -/
theorem exists_path {id : Nat} (hid : id ≤ root) : ∃ p, followPath node root p = some id := by
  induction hd : root - id using Nat.strong_induction_on generalizing id with
  | _ d ih =>
    rcases hid.eq_or_lt with rfl | hlt
    · exact ⟨[], rfl⟩
    · obtain ⟨q, hq, ⟨n, hn, hint, hchild⟩, -⟩ := hshape.parent_unique id hlt
      have hqroot : q ≤ root := by
        have := treeShape_count_eq hshape
        omega
      obtain ⟨b, rfl⟩ : ∃ b, childId b n = id := hchild.elim (fun h => ⟨false, h⟩) fun h => ⟨true, h⟩
      have hlt := childId_lt (innerAt_of_isLeaf_eq_false hshape hqroot hn hint) b
      obtain ⟨p, hp⟩ := ih (root - q) (by omega) hqroot rfl
      exact ⟨p ++ [b], by rw [followPath_append, hp, Option.bind_some, followPath_of_inner hn hint, followPath]⟩

/-- An infinite bitstring leads from every node to a leaf. -/
theorem exists_leaf_along {id : Nat} (hid : id ≤ root) (f : Nat → Bool) :
    ∃ m v, PathToLeaf node id ((List.range m).map f) v := by
  induction id using Nat.strong_induction_on generalizing f with
  | _ id ih =>
    obtain ⟨n, hn, hleaf | hinner⟩ := treeShape_node_cases hshape hid
    · exact ⟨0, n.symbol, id, rfl, n, hn, hleaf, rfl⟩
    · have hlt := childId_lt hinner (f 0)
      obtain ⟨m, v, h⟩ := ih _ hlt (by omega) (f ∘ Nat.succ)
      refine ⟨m + 1, v, ?_⟩
      rw [List.range_succ_eq_map, List.map_cons, List.map_map]
      exact (pathToLeaf_cons_iff hn hinner.not_leaf).mpr h

end Tree

/-! ### The walk in terms of the tree (R170) -/

/-- The run of CODE_GEN's walk on a tree, from the ids popped so far and the stack to the codes it records. -/
inductive Walk (node : Sparse NodeEntry) (k root : Nat) : List Nat → List (Nat × Bits) → List (Byte × Bits) → Prop
  | nil {popped : List Nat} : Walk node k root popped [] []
  | leaf {popped : List Nat} {id : Nat} {p : Bits} {stack : List (Nat × Bits)} {n : NodeEntry}
      {codes : List (Byte × Bits)} (h : Walking node k root popped ((id, p) :: stack))
      (hn : Sparse.get? node id = some n) (hleaf : n.isLeaf = true)
      (rest : Walk node k root (id :: popped) stack codes) :
      Walk node k root popped ((id, p) :: stack) ((n.symbol, p) :: codes)
  | inner {popped : List Nat} {id : Nat} {p : Bits} {stack : List (Nat × Bits)} {n : NodeEntry}
      {codes : List (Byte × Bits)} (h : Walking node k root popped ((id, p) :: stack))
      (hn : Sparse.get? node id = some n) (hinner : InnerAt k id n)
      (rest : Walk node k root (id :: popped) ((n.left.toNat, p ++ [false]) :: (n.right.toNat, p ++ [true]) :: stack)
        codes) :
      Walk node k root popped ((id, p) :: stack) codes

section Walk
variable {node : Sparse NodeEntry} {k count root id pops : Nat} {p : Bits} {popped : List Nat}
  {stack : List (Nat × Bits)} {codes : List (Byte × Bits)} {n : NodeEntry}

theorem walkTree_of_leaf (hn : Sparse.get? node id = some n) (hleaf : n.isLeaf = true)
    (hp : p.length ≤ Config.maxCodeLen) (hrest : walkTree node pops stack = .ok codes) :
    walkTree node (pops + 1) ((id, p) :: stack) = .ok ((n.symbol, p) :: codes) := by
  rw [walkTree, (readOperand_ok_iff .node node id n).mpr hn]
  simp [bind, Except.bind, pure, Except.pure, hleaf, hp.not_gt, hrest]

theorem walkTree_of_inner (hn : Sparse.get? node id = some n) (hint : n.isLeaf = false) :
    walkTree node (pops + 1) ((id, p) :: stack) =
      walkTree node pops ((n.left.toNat, p ++ [false]) :: (n.right.toNat, p ++ [true]) :: stack) := by
  rw [walkTree, (readOperand_ok_iff .node node id n).mpr hn]
  simp [bind, Except.bind, hint]

/-- With enough pops for the nodes not met yet, the walk records its codes. -/
theorem exists_walk (hshape : TreeShape node k count root) (h : Walking node k root popped stack)
    (hpops : root + 1 ≤ pops + popped.length) :
    ∃ codes, walkTree node pops stack = .ok codes ∧ Walk node k root popped stack codes := by
  induction pops generalizing popped stack with
  | zero =>
    have hlen := h.length_le
    obtain rfl : stack = [] := List.length_eq_zero_iff.mp (by omega)
    exact ⟨[], rfl, .nil⟩
  | succ pops ih =>
    match stack, h with
    | [], _ => exact ⟨[], rfl, .nil⟩
    | (id, p) :: stack, h =>
      obtain ⟨n, hn, hcases⟩ := treeShape_node_cases hshape (h.ids_le id (by simp))
      have hfuel : root + 1 ≤ pops + (id :: popped).length := by rw [List.length_cons]; omega
      rcases hcases with hleaf | hinner
      · have hshort : p.length ≤ Config.maxCodeLen := by
          have hdepth := (h.depth_le (id, p) (by simp)).2
          exact Nat.le_of_lt_succ (hdepth.trans_le hshape.leaf_le)
        obtain ⟨codes, hok, hwalk⟩ := ih h.pop hfuel
        exact ⟨_, walkTree_of_leaf hn hleaf hshort hok, .leaf h hn hleaf hwalk⟩
      · obtain ⟨codes, hok, hwalk⟩ := ih (h.push hshape hn hinner) hfuel
        exact ⟨codes, (walkTree_of_inner hn hinner.not_leaf).trans hok, .inner h hn hinner hwalk⟩

/-- The codes recorded are the paths to leaves from the nodes on the stack, each behind the path to that node. -/
theorem Walk.mem_iff (h : Walk node k root popped stack codes) (v : Byte) (c : Bits) :
    (v, c) ∈ codes ↔ ∃ e ∈ stack, ∃ q, c = e.2 ++ q ∧ PathToLeaf node e.1 q v := by
  induction h with
  | nil => simp
  | @leaf _ id p _ n _ _ hn hleaf _ ih =>
    have hhead : (∃ q, c = p ++ q ∧ PathToLeaf node id q v) ↔ v = n.symbol ∧ c = p := by
      simp only [pathToLeaf_iff_of_leaf hn hleaf]
      constructor
      · rintro ⟨q, rfl, rfl, rfl⟩
        exact ⟨rfl, List.append_nil p⟩
      · rintro ⟨rfl, rfl⟩
        exact ⟨[], (List.append_nil c).symm, rfl, rfl⟩
    rw [List.mem_cons, Prod.mk.injEq, ih, List.exists_mem_cons_iff, hhead]
  | @inner _ id p stack n codes h hn hinner _ ih =>
    have hsplit : (∃ q, c = p ++ q ∧ PathToLeaf node id q v) ↔
        (∃ q, c = (p ++ [false]) ++ q ∧ PathToLeaf node n.left.toNat q v) ∨
        (∃ q, c = (p ++ [true]) ++ q ∧ PathToLeaf node n.right.toNat q v) := by
      constructor
      · rintro ⟨_ | ⟨b, q⟩, rfl, hq⟩
        · exact absurd hq (not_pathToLeaf_nil hn hinner.not_leaf)
        · have hq := (pathToLeaf_cons_iff hn hinner.not_leaf).mp hq
          cases b
          · exact .inl ⟨q, by simp, hq⟩
          · exact .inr ⟨q, by simp, hq⟩
      · rintro (⟨q, rfl, hq⟩ | ⟨q, rfl, hq⟩)
        · exact ⟨false :: q, by simp, (pathToLeaf_cons_iff hn hinner.not_leaf).mpr hq⟩
        · exact ⟨true :: q, by simp, (pathToLeaf_cons_iff hn hinner.not_leaf).mpr hq⟩
    simp only [ih, List.exists_mem_cons_iff, hsplit, or_assoc]

/-- A symbol recorded from here on has a leaf that was not popped before. -/
theorem Walk.exists_leaf (h : Walk node k root popped stack codes) {v : Byte} (hv : v ∈ codes.map Prod.fst) :
    ∃ id ≤ root, id ∉ popped ∧ LeafAt node id v := by
  induction h with
  | nil => cases hv
  | @leaf popped id p stack n codes h hn hleaf _ ih =>
    rcases List.mem_cons.mp hv with rfl | hv
    · have hnew := (List.nodup_cons.mp h.ids_nodup).1
      exact ⟨id, h.ids_le id (by simp), fun hid => hnew (List.mem_append_right _ hid), n, hn, hleaf, rfl⟩
    · obtain ⟨i, hi, hnew, hleaf⟩ := ih hv
      exact ⟨i, hi, fun hid => hnew (List.mem_cons_of_mem _ hid), hleaf⟩
  | inner _ _ _ _ ih =>
    obtain ⟨i, hi, hnew, hleaf⟩ := ih hv
    exact ⟨i, hi, fun hid => hnew (List.mem_cons_of_mem _ hid), hleaf⟩

/-- No symbol is recorded twice. -/
theorem Walk.nodup (hshape : TreeShape node k count root) (h : Walk node k root popped stack codes) :
    (codes.map Prod.fst).Nodup := by
  induction h with
  | nil => exact List.nodup_nil
  | @leaf popped id p stack n codes h hn hleaf hrest ih =>
    refine List.nodup_cons.mpr ⟨fun hmem => ?_, ih⟩
    obtain ⟨i, hi, hnew, hleafAt⟩ := hrest.exists_leaf hmem
    obtain rfl := leafAt_injective hshape hi (h.ids_le id (by simp)) hleafAt ⟨n, hn, hleaf, rfl⟩
    exact hnew List.mem_cons_self
  | inner _ _ _ _ ih => exact ih

/-- The share of the bitstrings of 255 bits that begin with `p`, as a count. -/
def kraftWeight (p : Bits) : Nat := 2 ^ (255 - p.length)

theorem kraftWeight_eq_add (hp : p.length < 255) :
    kraftWeight p = kraftWeight (p ++ [false]) + kraftWeight (p ++ [true]) := by
  obtain ⟨d, hd⟩ := Nat.exists_eq_add_of_lt hp
  have hchild : 255 - (p.length + 1) = d := by omega
  have hself : 255 - p.length = d + 1 := by omega
  simp only [kraftWeight, List.length_append, List.length_singleton, hchild, hself, Nat.pow_succ, Nat.mul_two]

/-- The walk keeps the Kraft sum: an internal node's weight is the sum of its children's. -/
theorem Walk.kraft (hshape : TreeShape node k count root) (h : Walk node k root popped stack codes) :
    (codes.map fun e => kraftWeight e.2).sum = (stack.map fun e => kraftWeight e.2).sum := by
  induction h with
  | nil => rfl
  | leaf _ _ _ _ ih => simp only [List.map_cons, List.sum_cons, ih]
  | @inner _ id p _ _ _ h _ hinner _ ih =>
    have hshort : p.length < 255 := by
      have hdepth : id + p.length ≤ root := (h.depth_le (id, p) List.mem_cons_self).1
      have hk := hinner.leaf_le
      have hroot := hshape.root_eq
      have hkmax : k ≤ 256 := hshape.leaf_le
      omega
    rw [ih]
    simp only [List.map_cons, List.sum_cons, kraftWeight_eq_add hshort, Nat.add_assoc]

end Walk

end Sys2Proof.Proofs
end

section
/-! PROOFS. The Code Table Builder (44_codes.md R170 to R175): the codes of a tree, the table that CODE_GEN leaves, and
that every infinite bitstring begins with exactly one code of it. -/

namespace Sys2Proof.Proofs

open Sys2Proof.Machine Sys2Proof.Stated

/-! ### The codes of a tree (R170 to R173, R175) -/

/-- What the list of codes is that CODE_GEN records for a tree with `k` leaves. -/
structure CodesOfTree (node : Sparse NodeEntry) (k root : Nat) (codes : List (Byte × Bits)) : Prop where
  nodup : (codes.map Prod.fst).Nodup
  length_pos : ∀ e ∈ codes, 1 ≤ e.2.length
  length_le : ∀ e ∈ codes, e.2.length ≤ 255
  symbol_iff : ∀ v, v ∈ codes.map Prod.fst ↔ ∃ id < k, LeafAt node id v
  prefix_free : ∀ e ∈ codes, ∀ d ∈ codes, e.2 <+: d.2 → e.1 = d.1
  eq_zero_of_leaf_root : k = 1 → ∀ e ∈ codes, e.2 = [false]
  mem_iff : k ≠ 1 → ∀ v c, (v, c) ∈ codes ↔ PathToLeaf node root c v
  kraft : k ≠ 1 → (codes.map fun e => kraftWeight e.2).sum = 2 ^ 255

section Codes
variable {node : Sparse NodeEntry} {k count root : Nat} {codes : List (Byte × Bits)} {n : NodeEntry}

/-- A leaf root gets the code "0" (R172). -/
theorem treeCodes_of_leaf (hn : Sparse.get? node root = some n) (hleaf : n.isLeaf = true) :
    treeCodes node root = .ok [(n.symbol, [false])] := by
  rw [treeCodes, (readOperand_ok_iff .node node root n).mpr hn]
  simp [bind, Except.bind, pure, Except.pure, hleaf]

theorem treeCodes_of_inner (hn : Sparse.get? node root = some n) (hint : n.isLeaf = false) :
    treeCodes node root = walkTree node Config.nodePool [(root, [])] := by
  rw [treeCodes, (readOperand_ok_iff .node node root n).mpr hn]
  simp [bind, Except.bind, hint]

theorem codesOfTree_of_leaf_root (hn : Sparse.get? node 0 = some n) (hleaf : n.isLeaf = true) :
    CodesOfTree node 1 root [(n.symbol, [false])] where
  nodup := List.nodup_singleton _
  length_pos := by simp
  length_le := by simp
  symbol_iff := fun v => by
    rw [List.map_singleton, List.mem_singleton]
    constructor
    · rintro rfl
      exact ⟨0, Nat.one_pos, n, hn, hleaf, rfl⟩
    · rintro ⟨id, hid, m, hm, -, rfl⟩
      obtain rfl : id = 0 := Nat.lt_one_iff.mp hid
      rw [Option.some.inj (hn.symm.trans hm)]
  prefix_free := by simp
  eq_zero_of_leaf_root := by simp
  mem_iff := fun h => absurd rfl h
  kraft := fun h => absurd rfl h

/-- The walk from an internal root records the paths from it to the leaves. -/
theorem codesOfTree_of_walk (hshape : TreeShape node k count root) (hn : Sparse.get? node root = some n)
    (hinner : InnerAt k root n) (h : Walk node k root [] [(root, [])] codes) : CodesOfTree node k root codes := by
  have hmem : ∀ v c, (v, c) ∈ codes ↔ PathToLeaf node root c v := fun v c => by simp [h.mem_iff]
  have hroot := hinner.leaf_le
  have hk : k ≠ 1 := by
    have := hshape.root_eq
    omega
  refine ⟨h.nodup hshape, fun ⟨v, c⟩ he => ?_, fun ⟨v, c⟩ he => ?_, fun v => ⟨fun hv => ?_, ?_⟩,
    fun ⟨v, c⟩ he ⟨w, d⟩ hd => ?_, fun h => absurd h hk, fun _ => hmem,
    fun _ => (h.kraft hshape).trans (by simp [kraftWeight])⟩
  · rcases c with _ | ⟨b, c⟩
    · exact absurd ((hmem v []).mp he) (not_pathToLeaf_nil hn hinner.not_leaf)
    · exact Nat.succ_pos _
  · obtain ⟨j, hj, -⟩ := (hmem v c).mp he
    exact (length_le_of_followPath_root hshape hj).trans (Nat.sub_le_sub_right hshape.leaf_le 1)
  · obtain ⟨id, hid, -, m, hm, hleaf, hv⟩ := h.exists_leaf hv
    exact ⟨id, (leaf_iff_lt hshape hid hm).mp hleaf, m, hm, hleaf, hv⟩
  · rintro ⟨id, hid, hleaf⟩
    obtain ⟨p, hp⟩ := exists_path hshape (by omega : id ≤ root)
    exact List.mem_map_of_mem ((hmem v p).mpr ⟨id, hp, hleaf⟩)
  · exact ((hmem v c).mp he).eq_of_prefix ((hmem w d).mp hd)

theorem exists_treeCodes (hshape : TreeShape node k count root) :
    ∃ codes, treeCodes node root = .ok codes ∧ CodesOfTree node k root codes := by
  have hroot := hshape.root_eq
  have hpos := hshape.leaf_pos
  obtain ⟨n, hn, hleaf | hinner⟩ := treeShape_node_cases hshape (le_refl root)
  · have hlt := (leaf_iff_lt hshape le_rfl hn).mp hleaf
    obtain rfl : k = 1 := by omega
    obtain rfl : root = 0 := hroot
    exact ⟨_, treeCodes_of_leaf hn hleaf, codesOfTree_of_leaf_root hn hleaf⟩
  · have hpops : root + 1 ≤ Config.nodePool + ([] : List Nat).length := by
      have hkmax : k ≤ 256 := hshape.leaf_le
      rw [Config.nodePool, List.length_nil]
      omega
    obtain ⟨codes, hok, hwalk⟩ := exists_walk hshape (walking_start hpos) hpops
    exact ⟨codes, (treeCodes_of_inner hn hinner.not_leaf).trans hok, codesOfTree_of_walk hshape hn hinner hwalk⟩

end Codes

/-! ### The code table that CODE_GEN leaves -/

section Recorded
variable {node : Sparse NodeEntry} {k root : Nat} {codes : List (Byte × Bits)} (h : CodesOfTree node k root codes)
  (m : Memory) {v : Byte} {c : Bits}
include h

theorem CodesOfTree.codeEntry_eq (hc : (v, c) ∈ codes) :
    codeEntry (recordCodes m codes) v = (BitVec.ofNat 8 c.length, cellsOfBits c) :=
  codeEntry_foldl_of_mem h.nodup hc _

theorem CodesOfTree.codeLen_eq (hc : (v, c) ∈ codes) :
    (Sparse.read (recordCodes m codes).codeLen v.toNat).toNat = c.length := by
  have hlen : Sparse.read (recordCodes m codes).codeLen v.toNat = BitVec.ofNat 8 c.length :=
    congrArg Prod.fst (h.codeEntry_eq m hc)
  rw [hlen]
  exact Nat.mod_eq_of_lt (Nat.lt_succ_of_le (h.length_le _ hc))

theorem CodesOfTree.codeBits_eq (hc : (v, c) ∈ codes) :
    Sparse.read (recordCodes m codes).codeBits v.toNat = cellsOfBits c :=
  congrArg Prod.snd (h.codeEntry_eq m hc)

theorem CodesOfTree.codeOf_eq (hc : (v, c) ∈ codes) : codeOf (recordCodes m codes) v = c := by
  rw [codeOf, h.codeLen_eq m hc, h.codeBits_eq m hc]
  exact takeCells_cellsOfBits ((h.length_le _ hc).trans (by decide))

/-- The symbols with a code are those of the list. -/
theorem CodesOfTree.codeLen_ne_zero_iff (v : Byte) :
    Sparse.read (recordCodes m codes).codeLen v.toNat ≠ 0#8 ↔ v ∈ codes.map Prod.fst := by
  refine ⟨fun hne => by_contra fun hv => hne ?_, fun hv hzero => ?_⟩
  · exact congrArg Prod.fst (codeEntry_recordCodes_of_not_mem hv m)
  · obtain ⟨⟨v, c⟩, hc, rfl⟩ := List.mem_map.mp hv
    have hlen : 0 = c.length := (congrArg BitVec.toNat hzero).symm.trans (h.codeLen_eq m hc)
    exact absurd (h.length_pos _ hc) (by simp [← hlen])

/-- A symbol with a code has it in the list. -/
theorem CodesOfTree.mem_of_codeLen_ne_zero
    (hv : Sparse.read (recordCodes m codes).codeLen v.toNat ≠ 0#8) : (v, codeOf (recordCodes m codes) v) ∈ codes := by
  obtain ⟨⟨v, c⟩, hc, rfl⟩ := List.mem_map.mp ((h.codeLen_ne_zero_iff m v).mp hv)
  rwa [h.codeOf_eq m hc]

theorem CodesOfTree.prefixFree : PrefixFree (recordCodes m codes) := fun _ _ hne ha hb hpre =>
  hne (h.prefix_free _ (h.mem_of_codeLen_ne_zero m ha) _ (h.mem_of_codeLen_ne_zero m hb) hpre)

end Recorded

/-- A sum over all symbols in which only those of the list count is a sum over the list. -/
theorem sum_range_eq_sum_symbols {codes : List (Byte × Bits)} (hnd : (codes.map Prod.fst).Nodup) {f : Nat → Nat}
    (hzero : ∀ v : Byte, v ∉ codes.map Prod.fst → f v.toNat = 0) :
    ((List.range 256).map f).sum = (codes.map fun e => f e.1.toNat).sum := by
  have hnd' : ((codes.map Prod.fst).map BitVec.toNat).Nodup := hnd.map fun _ _ => BitVec.eq_of_toNat_eq
  have hsub : ((codes.map Prod.fst).map BitVec.toNat).toFinset ⊆ (List.range 256).toFinset := fun v hv => by
    obtain ⟨w, -, rfl⟩ := List.mem_map.mp (List.mem_toFinset.mp hv)
    exact List.mem_toFinset.mpr (List.mem_range.mpr w.isLt)
  have hout : ∀ v ∈ (List.range 256).toFinset, v ∉ ((codes.map Prod.fst).map BitVec.toNat).toFinset → f v = 0 := by
    intro v hv hnot
    have hbyte : (BitVec.ofNat 8 v).toNat = v := Nat.mod_eq_of_lt (List.mem_range.mp (List.mem_toFinset.mp hv))
    rw [← hbyte]
    exact hzero _ fun hmem => hnot (List.mem_toFinset.mpr (List.mem_map.mpr ⟨_, hmem, hbyte⟩))
  calc ((List.range 256).map f).sum
      = (List.range 256).toFinset.sum f := (List.sum_toFinset f List.nodup_range).symm
    _ = ((codes.map Prod.fst).map BitVec.toNat).toFinset.sum f := (Finset.sum_subset hsub hout).symm
    _ = (((codes.map Prod.fst).map BitVec.toNat).map f).sum := List.sum_toFinset f hnd'
    _ = (codes.map fun e => f e.1.toNat).sum := by rw [List.map_map, List.map_map]; rfl

/-- The Kraft sum of the table, over all symbols (R175). -/
theorem CodesOfTree.kraft_table {node : Sparse NodeEntry} {k root : Nat} {codes : List (Byte × Bits)}
    (h : CodesOfTree node k root codes) (hk : k ≠ 1) (m : Memory) :
    ((List.range 256).map fun v => if Sparse.read (recordCodes m codes).codeLen v = 0#8 then 0
      else 2 ^ (255 - (Sparse.read (recordCodes m codes).codeLen v).toNat)).sum = 2 ^ 255 := by
  rw [sum_range_eq_sum_symbols h.nodup fun v hv => if_pos (not_not.mp (mt (h.codeLen_ne_zero_iff m v).mp hv)),
    ← h.kraft hk]
  refine congrArg List.sum (List.map_congr_left fun e he => ?_)
  have hne := (h.codeLen_ne_zero_iff m e.1).mpr (List.mem_map_of_mem he)
  rw [if_neg hne, h.codeLen_eq m he, kraftWeight]

/-! ### CODE_GEN -/

/-- The state that a successful CODE_GEN leaves, before completion. -/
def afterCodeGen (codes : List (Byte × Bits)) (s : State) : State :=
  { s with
    maxCodeLen := BitVec.ofNat 8 (greatestCodeLen (recordCodes s.mem codes))
    mem := recordCodes s.mem codes }

/-- CODE_GEN writes CODE and MAX_CODE_LEN alone (R170). -/
theorem afterCodeGen_eq (codes : List (Byte × Bits)) (s : State) :
    afterCodeGen codes s = { s with
      maxCodeLen := (afterCodeGen codes s).maxCodeLen
      mem := { s.mem with
        codeLen := (afterCodeGen codes s).mem.codeLen, codeBits := (afterCodeGen codes s).mem.codeBits } } := by
  let len := (afterCodeGen codes s).maxCodeLen
  exact congrArg (fun m => { s with maxCodeLen := len, mem := m }) (recordCodes_eq s.mem codes)

theorem exec_codeGen_of_treeCodes {s : State} {codes : List (Byte × Bits)} (hcount : s.nodeCount ≠ 0#10)
    (h : treeCodes s.mem.node s.root.toNat = .ok codes) :
    exec .codeGen s = .next (completed (afterCodeGen codes s)) := by
  have hok : codeGen s = .ok (afterCodeGen codes s) := by
    rw [codeGen, if_neg hcount, h]
    rfl
  refine exec_of_done ?_
  rw [commandResult, hok]
  rfl

/-- On a tree CODE_GEN completes and records the codes of the tree. -/
theorem exec_codeGen_of_tree {s : State} (hcount : s.nodeCount ≠ 0#10)
    (hshape : TreeShape s.mem.node s.leafCount.toNat s.nodeCount.toNat s.root.toNat) :
    ∃ codes, exec .codeGen s = .next (completed (afterCodeGen codes s)) ∧
      CodesOfTree s.mem.node s.leafCount.toNat s.root.toNat codes := by
  obtain ⟨codes, hok, hcodes⟩ := exists_treeCodes hshape
  exact ⟨codes, exec_codeGen_of_treeCodes hcount hok, hcodes⟩

theorem treeShape_of_inv {s : State} (h : Inv s) (hcount : s.nodeCount ≠ 0#10) :
    TreeShape s.mem.node s.leafCount.toNat s.nodeCount.toNat s.root.toNat :=
  (if_neg hcount).mp h.tree_ok

theorem hasLeaf_iff {s : State} (hshape : TreeShape s.mem.node s.leafCount.toNat s.nodeCount.toNat s.root.toNat)
    (v : Byte) : hasLeaf s v ↔ ∃ id < s.leafCount.toNat, LeafAt s.mem.node id v := by
  constructor
  · rintro ⟨id, n, hid, hn, hv⟩
    obtain ⟨m, hm, hleaf, -⟩ := hshape.leaf_node id hid
    obtain rfl : m = n := Option.some.inj (hm.symm.trans hn)
    exact ⟨id, hid, m, hm, hleaf, hv⟩
  · rintro ⟨id, hid, n, hn, -, hv⟩
    exact ⟨id, n, hid, hn, hv⟩

/-- MAX_CODE_LEN is the greatest length: every length is a byte, so nothing is cut (R173). -/
theorem toNat_maxCodeLen_afterCodeGen (codes : List (Byte × Bits)) (s : State) :
    (afterCodeGen codes s).maxCodeLen.toNat = greatestCodeLen (recordCodes s.mem codes) := by
  obtain ⟨v, -, hv⟩ := exists_codeLen_eq_greatestCodeLen (recordCodes s.mem codes)
  exact Nat.mod_eq_of_lt (hv ▸ (Sparse.read (recordCodes s.mem codes).codeLen v).isLt)

/-- Settles O43: NODE_COUNT is checked before anything is written. -/
theorem codeGenNeedsATree : Obligations.CodeGenNeedsATree := fun s h => by
  refine exec_of_raised (e := .noTree) ?_
  rw [commandResult, codeGen_of_nodeCount_eq_zero h]
  rfl

/-- The code of a leaf's symbol leads from the root to that leaf (R171); a leaf root has the code "0" (R172). -/
theorem CodesOfTree.exists_code_of_leaf {node : Sparse NodeEntry} {k count root id : Nat} {codes : List (Byte × Bits)}
    {n : NodeEntry} (h : CodesOfTree node k root codes) (hshape : TreeShape node k count root) (hid : id < k)
    (hn : Sparse.get? node id = some n) :
    ∃ c, (n.symbol, c) ∈ codes ∧ (k = 1 → c = [false]) ∧ (k ≠ 1 → followPath node root c = some id) := by
  have hroot : id ≤ root := by
    have := hshape.root_eq
    omega
  have hleaf : LeafAt node id n.symbol := ⟨n, hn, (leaf_iff_lt hshape hroot hn).mpr hid, rfl⟩
  obtain ⟨⟨v, c⟩, hc, hv⟩ := List.mem_map.mp ((h.symbol_iff n.symbol).mpr ⟨id, hid, hleaf⟩)
  obtain rfl : v = n.symbol := hv
  refine ⟨c, hc, fun hk => h.eq_zero_of_leaf_root hk _ hc, fun hk => ?_⟩
  obtain ⟨j, hj, hjleaf⟩ := (h.mem_iff hk _ c).mp hc
  rwa [leafAt_injective hshape hroot (le_of_followPath hshape le_rfl hj) hleaf hjleaf]

/-- Settles O44: the walk records every path from the root to a leaf, and recording keeps the rest of the block. -/
theorem codesAreRootToLeafPaths : Obligations.CodesAreRootToLeafPaths := by
  refine ⟨decode_encode .codeGen, fun s hinv hcount => ?_⟩
  have hshape := treeShape_of_inv hinv hcount
  obtain ⟨codes, hexec, hcodes⟩ := exec_codeGen_of_tree hcount hshape
  have hmax := toNat_maxCodeLen_afterCodeGen codes s
  refine ⟨_, hexec, fun id n hid hn => ?_, fun v hv => ?_, fun v hv => ?_, ?_, ?_⟩
  · obtain ⟨c, hc, hone, hpath⟩ := hcodes.exists_code_of_leaf hshape hid hn
    have hlen : ((completed (afterCodeGen codes s)).codeLenAt n.symbol.toNat).toNat = c.length :=
      hcodes.codeLen_eq s.mem hc
    have hcells : (completed (afterCodeGen codes s)).codeBitsAt n.symbol.toNat = cellsOfBits c :=
      hcodes.codeBits_eq s.mem hc
    have hcode : codeOf (completed (afterCodeGen codes s)).mem n.symbol = c := hcodes.codeOf_eq s.mem hc
    rw [hlen, hcells, hcode]
    refine ⟨rfl, hcodes.length_pos _ hc, fun hk => hone (congrArg BitVec.toNat hk),
      fun hk => hpath fun h => hk (BitVec.eq_of_toNat_eq h), fun k hk hk256 => ?_⟩
    rw [getMsbD_cellsOfBits ((hcodes.length_le _ hc).trans (by decide)) hk256, List.getD_eq_default _ _ hk]
  · have hnot : v ∉ codes.map Prod.fst := fun hmem => hv ((hasLeaf_iff hshape v).mpr ((hcodes.symbol_iff v).mp hmem))
    have hentry := codeEntry_recordCodes_of_not_mem hnot s.mem
    exact ⟨congrArg Prod.fst hentry, congrArg Prod.snd hentry⟩
  · exact (codeLen_le_greatestCodeLen (recordCodes s.mem codes) hv).trans_eq hmax.symm
  · obtain ⟨v, hv, heq⟩ := exists_codeLen_eq_greatestCodeLen (recordCodes s.mem codes)
    exact ⟨v, hv, BitVec.eq_of_toNat_eq (heq.trans hmax.symm)⟩
  · have hframe := congrArg completed (afterCodeGen_eq codes s)
    exact hframe

/-! ### The properties of the table (R175) -/

/-- Of two beginnings of one infinite bitstring the longer begins with the shorter. -/
theorem range_map_prefix (f : Nat → Bool) {m n : Nat} (h : m ≤ n) : (List.range m).map f <+: (List.range n).map f := by
  obtain ⟨d, rfl⟩ := Nat.exists_eq_add_of_le h
  rw [List.range_add, List.map_append]
  exact List.prefix_append _ _

/-- Every infinite bitstring begins with exactly one code. -/
theorem CodesOfTree.existsUnique_code {node : Sparse NodeEntry} {k count root : Nat} {codes : List (Byte × Bits)}
    (h : CodesOfTree node k root codes) (hshape : TreeShape node k count root) (hk : k ≠ 1) (m : Memory)
    (f : Nat → Bool) :
    ∃! v : Byte, Sparse.read (recordCodes m codes).codeLen v.toNat ≠ 0#8 ∧ codeOf (recordCodes m codes) v =
      (List.range (Sparse.read (recordCodes m codes).codeLen v.toNat).toNat).map f := by
  obtain ⟨len, v, hpath⟩ := exists_leaf_along hshape (le_refl root) f
  have hmem := (h.mem_iff hk v _).mpr hpath
  have hne := (h.codeLen_ne_zero_iff m v).mpr (List.mem_map_of_mem hmem)
  have hcode : codeOf (recordCodes m codes) v = (List.range len).map f := h.codeOf_eq m hmem
  have hlen : (Sparse.read (recordCodes m codes).codeLen v.toNat).toNat = len := by
    simpa using h.codeLen_eq m hmem
  refine ⟨v, ⟨hne, by rw [hcode, hlen]⟩, fun w ⟨hw, hwcode⟩ => by_contra fun hwv => ?_⟩
  rcases le_total (Sparse.read (recordCodes m codes).codeLen w.toNat).toNat len with hle | hle
  · exact h.prefixFree m w v hwv hw hne (by rw [hwcode, hcode]; exact range_map_prefix f hle)
  · exact h.prefixFree m v w (Ne.symm hwv) hne hw (by rw [hwcode, hcode]; exact range_map_prefix f hle)

/-- Settles O45: the codes are the paths of a full binary tree, or the single code "0". -/
theorem codeTableIsPrefixFree : Obligations.CodeTableIsPrefixFree := by
  intro s t hinv hcount hexec
  have hshape := treeShape_of_inv hinv hcount
  obtain ⟨codes, hdone, hcodes⟩ := exec_codeGen_of_tree hcount hshape
  cases hdone.symm.trans hexec
  refine ⟨fun v => ?_, hcodes.prefixFree s.mem, fun hk => ?_, fun hk v hv => ?_⟩
  · rw [hasLeaf_iff hshape, ← hcodes.symbol_iff]
    exact hcodes.codeLen_ne_zero_iff s.mem v
  · exact ⟨hcodes.kraft_table (by omega) s.mem, hcodes.existsUnique_code hshape (by omega) s.mem⟩
  · exact hcodes.eq_zero_of_leaf_root hk _ (hcodes.mem_of_codeLen_ne_zero s.mem hv)

end Sys2Proof.Proofs
end

section
/-! PROOFS. Match, the code-resolution step of UNPACK (45_packer.md R195): which symbol it returns on which data, and the
repeated Match that decodes packed data (R196). -/

namespace Sys2Proof.Proofs

open Sys2Proof.Machine Sys2Proof.Stated

/-! ### The codes of the table (R43, R225) -/

/-- Symbol `v` has a code. -/
abbrev HasCode (m : Memory) (v : Byte) : Prop := Sparse.read m.codeLen v.toNat ≠ 0#8

theorem length_codeOf (m : Memory) (v : Byte) : (codeOf m v).length = (Sparse.read m.codeLen v.toNat).toNat := by
  simp [codeOf, takeCells]

theorem length_codeOf_le (m : Memory) (v : Byte) : (codeOf m v).length ≤ greatestCodeLen m :=
  (length_codeOf m v).trans_le (codeLen_le_greatestCodeLen m v.isLt)

theorem codeOf_ne_nil {m : Memory} {v : Byte} (hv : HasCode m v) : codeOf m v ≠ [] := fun hnil =>
  hv (BitVec.eq_of_toNat_eq ((length_codeOf m v).symm.trans (congrArg List.length hnil)))

theorem mem_codeTable_iff (m : Memory) (e : Byte × Bits) :
    e ∈ codeTable m ↔ HasCode m e.1 ∧ e.2 = codeOf m e.1 := by
  obtain ⟨v, c⟩ := e
  change (v, c) ∈ allBytes.filterMap _ ↔ _
  simp only [List.mem_filterMap, mem_allBytes, true_and, Option.ite_none_left_eq_some, Option.some.injEq,
    Prod.mk.injEq]
  constructor
  · rintro ⟨w, hw, rfl, rfl⟩
    exact ⟨hw, rfl⟩
  · rintro ⟨hv, hc⟩
    exact ⟨v, hv, rfl, hc.symm⟩

theorem codeTable_ascending (m : Memory) : (codeTable m).Pairwise fun e d => e.1.toNat < d.1.toNat := by
  refine allBytes_ascending.filterMap _ fun v w hlt e he d hd => ?_
  simp only [Option.ite_none_left_eq_some, Option.some.injEq] at he hd
  obtain ⟨-, rfl⟩ := he
  obtain ⟨-, rfl⟩ := hd
  exact hlt

theorem lookupCode_eq_none {m : Memory} {read : Bits} (h : lookupCode (codeTable m) read = none) {w : Byte}
    (hw : HasCode m w) : codeOf m w ≠ read := by
  rw [lookupCode, Option.map_eq_none_iff, List.find?_eq_none] at h
  simpa using h (w, codeOf m w) ((mem_codeTable_iff m _).mpr ⟨hw, rfl⟩)

/-- The lookup answers the lowest symbol with that code: the table stands in ascending order. -/
theorem lookupCode_eq_some {m : Memory} {read : Bits} {v : Byte} (h : lookupCode (codeTable m) read = some v) :
    HasCode m v ∧ codeOf m v = read ∧ ∀ w, HasCode m w → codeOf m w = read → v.toNat ≤ w.toNat := by
  obtain ⟨⟨v, c⟩, hfind, rfl⟩ := Option.map_eq_some_iff.mp h
  obtain ⟨hc, before, after, htable, hbefore⟩ := List.find?_eq_some_iff_append.mp hfind
  obtain rfl : c = read := of_decide_eq_true hc
  obtain ⟨hv, hcode⟩ := (mem_codeTable_iff m (v, c)).mp (htable ▸ by simp)
  refine ⟨hv, hcode.symm, fun w hw hwc => ?_⟩
  have hmem : (w, c) ∈ before ++ (v, c) :: after := htable ▸ (mem_codeTable_iff m (w, c)).mpr ⟨hw, hwc.symm⟩
  have hsorted := htable ▸ codeTable_ascending m
  rcases List.mem_append.mp hmem with hmem | hmem
  · simpa using hbefore _ hmem
  · rcases List.mem_cons.mp hmem with heq | hmem
    · exact (congrArg (fun e => e.1.toNat) heq).ge
    · exact (List.rel_of_pairwise_cons (List.pairwise_append.mp hsorted).2.1 hmem).le

/-! ### Match (R195) -/

/-- What Match may return on `data`: the symbol that R195 names with the bits left over, or FAIL where no code begins
the data. -/
inductive MatchResult (m : Memory) (data : Bits) : Option (Byte × Bits) → Prop
  | found {v : Byte} {rest : Bits} (h : IsMatch m data v rest) : MatchResult m data (some (v, rest))
  | fail (h : ∀ w, HasCode m w → ¬ codeOf m w <+: data) : MatchResult m data none

/-- The loop, once no code begins the bits read so far: a code that begins them and the next bit is all of these. -/
theorem matchCode_result (m : Memory) {read : Bits} (data : Bits) (hread : ∀ w, HasCode m w → ¬ codeOf m w <+: read) :
    MatchResult m (read ++ data) (matchCode (codeTable m) (greatestCodeLen m) read data) := by
  induction data generalizing read with
  | nil => exact .fail (by rwa [List.append_nil])
  | cons b data ih =>
    rw [matchCode, List.append_cons]
    cases hlookup : lookupCode (codeTable m) (read ++ [b]) with
    | some v =>
      obtain ⟨hv, hcode, hlowest⟩ := lookupCode_eq_some hlookup
      refine .found ⟨hv, by rw [hcode], fun w hw hpre => ?_⟩
      rw [hcode]
      rcases lt_or_ge (read ++ [b]).length (codeOf m w).length with hlt | hle
      · exact .inl hlt
      · have hpre := List.prefix_of_prefix_length_le hpre (List.prefix_append _ _) hle
        have hall := (List.prefix_concat_iff.mp hpre).resolve_right (hread w hw)
        exact .inr ⟨by rw [hall], hlowest w hw hall⟩
    | none =>
      have hnext : ∀ w, HasCode m w → ¬ codeOf m w <+: read ++ [b] := fun w hw hpre =>
        (List.prefix_concat_iff.mp hpre).elim (lookupCode_eq_none hlookup hw) (hread w hw)
      dsimp only
      split
      · next hmax =>
        refine .fail fun w hw hpre => hnext w hw ?_
        refine List.prefix_of_prefix_length_le hpre (List.prefix_append _ _) ((length_codeOf_le m w).trans ?_)
        rwa [List.length_append, List.length_singleton]
      · exact ih hnext

theorem matchCode_nil_result (m : Memory) (data : Bits) :
    MatchResult m data (matchCode (codeTable m) (greatestCodeLen m) [] data) :=
  matchCode_result m data fun _ hw hpre => codeOf_ne_nil hw (List.prefix_nil.mp hpre)

theorem prefix_of_isMatch {m : Memory} {data rest : Bits} {v : Byte} (h : IsMatch m data v rest) :
    codeOf m v <+: data := by
  obtain ⟨-, hdata, -⟩ := h
  exact ⟨rest, hdata.symm⟩

/-- The shortest code and the lowest symbol leave no choice. -/
theorem isMatch_unique {m : Memory} {data rest rest' : Bits} {v w : Byte} (h : IsMatch m data v rest)
    (h' : IsMatch m data w rest') : (v, rest) = (w, rest') := by
  obtain ⟨hv, hdata, hleast⟩ := h
  obtain ⟨hw, hdata', hleast'⟩ := h'
  have hvw := hleast w hw ⟨rest', hdata'.symm⟩
  have hwv := hleast' v hv ⟨rest, hdata.symm⟩
  obtain rfl : v = w := BitVec.eq_of_toNat_eq (by omega)
  rw [List.append_cancel_left (hdata.symm.trans hdata')]

theorem MatchResult.unique {m : Memory} {data : Bits} {r r' : Option (Byte × Bits)} (h : MatchResult m data r)
    (h' : MatchResult m data r') : r = r' := by
  cases h with
  | found h =>
    cases h' with
    | found h' => rw [isMatch_unique h h']
    | fail h' => exact absurd (prefix_of_isMatch h) (h' _ h.1)
  | fail h =>
    cases h' with
    | found h' => exact absurd (prefix_of_isMatch h') (h _ h'.1)
    | fail h' => rfl

theorem matchCode_eq_iff (m : Memory) (data : Bits) (r : Option (Byte × Bits)) :
    matchCode (codeTable m) (greatestCodeLen m) [] data = r ↔ MatchResult m data r :=
  ⟨fun h => h ▸ matchCode_nil_result m data, (matchCode_nil_result m data).unique⟩

/-- Match returns a symbol exactly where R195 names it. -/
theorem matchCode_eq_some_iff (m : Memory) (data : Bits) (v : Byte) (rest : Bits) :
    matchCode (codeTable m) (greatestCodeLen m) [] data = some (v, rest) ↔ IsMatch m data v rest :=
  (matchCode_eq_iff m data _).trans ⟨fun | .found h => h, .found⟩

theorem matchCode_eq_none_iff (m : Memory) (data : Bits) :
    matchCode (codeTable m) (greatestCodeLen m) [] data = none ↔ ∀ w, HasCode m w → ¬ codeOf m w <+: data :=
  (matchCode_eq_iff m data _).trans ⟨fun | .fail h => h, .fail⟩

/-- Where no code begins another, the only code that begins the data is the shortest one. -/
theorem isMatch_of_prefixFree {m : Memory} (hfree : PrefixFree m) {v : Byte} (hv : HasCode m v) (rest : Bits) :
    IsMatch m (codeOf m v ++ rest) v rest := by
  refine ⟨hv, rfl, fun w hw hpre => ?_⟩
  obtain rfl : v = w := by_contra fun hne =>
    (List.prefix_or_prefix_of_prefix (List.prefix_append _ rest) hpre).elim (hfree v w hne hv hw)
      (hfree w v (Ne.symm hne) hw hv)
  exact .inr ⟨rfl, le_rfl⟩

/-- Settles O47: the loop of Match stops at the first code that begins the data, and the lookup takes the lowest symbol
with that code. -/
theorem matchFindsTheShortestCode : Obligations.MatchFindsTheShortestCode := fun m data =>
  ⟨matchCode_eq_some_iff m data, matchCode_eq_none_iff m data, fun hfree v rest hv hdata =>
    (matchCode_eq_some_iff m data v rest).mpr (hdata ▸ isMatch_of_prefixFree hfree hv rest)⟩

/-! ### Repeated Match (R196) -/

/-- The decoding loop answers exactly the symbols that the data decode to. -/
theorem decodeSymbols_eq_some_iff (m : Memory) (syms : List Byte) (data : Bits) :
    decodeSymbols (codeTable m) (greatestCodeLen m) syms.length data = some syms ↔ Decodes m syms data := by
  induction syms generalizing data with
  | nil => simp [decodeSymbols, Decodes]
  | cons v vs ih =>
    rw [List.length_cons, decodeSymbols, Decodes]
    simp only [← matchCode_eq_some_iff, ← ih]
    cases matchCode (codeTable m) (greatestCodeLen m) [] data with
    | none => simp
    | some r => simp [Prod.ext_iff, and_assoc, and_comm]

/-- The codes of any symbols decode to these symbols, where no code begins another. -/
theorem decodes_codes_of_prefixFree {m : Memory} (hfree : PrefixFree m) {syms : List Byte}
    (h : ∀ v ∈ syms, HasCode m v) : Decodes m syms (syms.map (codeOf m)).flatten := by
  induction syms with
  | nil => rfl
  | cons v vs ih =>
    obtain ⟨hv, hvs⟩ := List.forall_mem_cons.mp h
    exact ⟨_, isMatch_of_prefixFree hfree hv _, ih hvs⟩

end Sys2Proof.Proofs
end

section
/-! PROOFS. UNPACK (45_packer.md R196, R199, R201): its checks in order, the decoding of the data bits, and what its
DECODE_MISMATCH leaves (60_exceptions.md R254). -/

namespace Sys2Proof.Proofs

open Sys2Proof.Machine Sys2Proof.Stated

/-! ### The packed bytes in OUT -/

/-- A buffer with a header byte: the header and the bytes behind it are read as UNPACK reads them. -/
theorem reads_of_holdsBytes_cons {s : State} {p : Byte} {bytes : List Byte} (h : HoldsBytes s (p :: bytes)) :
    readOperand .out s.mem.out 0 = .ok p ∧ readRange .out s.mem.out 1 bytes.length = .ok bytes :=
  (readRange_cons_iff .out s.mem.out 0 bytes.length p bytes).mp ((readRange_zero_ok_iff .out _ _).mpr h.byte_eq)

/-- The data bits of a buffer with a header byte are those of the bytes behind it, less the padding. -/
theorem dataBits_cons (p : Byte) (bytes : List Byte) (k : Nat) :
    dataBits (p :: bytes) k = (bitsOfBytes bytes).take (8 * bytes.length - k) := rfl

/-! ### How UNPACK ends -/

/-- The state that a successful UNPACK leaves, before completion (R199): header `p`, `bits` data bits. -/
def afterUnpack (s : State) (p : Byte) (bits : Nat) (syms : List Byte) : State :=
  { s with
    decCount := BitVec.ofNat 32 (gridSize s)
    padding := p.setWidth 4
    totalBits := BitVec.ofNat 32 bits
    mem := { s.mem with dec := Sparse.setRange s.mem.dec 0 syms } }

theorem exec_unpack_of_ok {s t : State} (h : unpack s = .ok t) : exec .unpack s = .next (completed t) := by
  refine exec_of_done ?_
  rw [commandResult, unpackResult, h]

theorem exec_unpack_of_mismatch {s : State} (h : unpack s = .error (.raised .decodeMismatch)) :
    ∃ t, exec .unpack s = .next t ∧ UnpackMismatch s t := by
  refine ⟨_, exec_of_raised (e := .decodeMismatch) (t := forgetDecoded s) ?_, rfl, fun i hi => ?_, fun i hi => ?_⟩
  · rw [commandResult, unpackResult, h]
  · exact (get?_forgetBelow _ _ i).trans (if_neg hi.not_ge)
  · exact (get?_forgetBelow _ _ i).trans (if_pos hi)

section Checks
variable {s : State} (hn : checkN s = .ok (gridSize s))
include hn

theorem exec_unpack_of_capacity (h : s.params.outMax < s.outLen.toNat) : exec .unpack s = .next (failed 3#4 s) := by
  refine exec_of_raised (e := .capacity) ?_
  simp [commandResult, unpackResult, unpack, hn, h, bind, Except.bind]

theorem unpack_of_outLen_eq_zero (h : s.outLen = 0#32) : unpack s = .error (.raised .decodeMismatch) := by
  simp [unpack, hn, h, bind, Except.bind]

variable (hcap : s.outLen.toNat ≤ s.params.outMax)
include hcap

variable {p : Byte} {bytes : List Byte} (hbytes : HoldsBytes s (p :: bytes))
include hbytes

theorem unpack_of_bad_header (h : 8 < p.toNat ∨ 8 * bytes.length < p.toNat) :
    unpack s = .error (.raised .decodeMismatch) := by
  obtain ⟨hp, -⟩ := reads_of_holdsBytes_cons hbytes
  have hlen : s.outLen.toNat = bytes.length + 1 := hbytes.len_eq
  rw [hlen] at hcap
  by_cases h8 : 8 < p.toNat
  · simp [unpack, hn, hlen, hcap.not_gt, hp, h8, bind, Except.bind]
  · simp [unpack, hn, hlen, hcap.not_gt, hp, h8, h.resolve_left h8, bind, Except.bind]

/-- Past the checks of the header, UNPACK ends as its decoding loop does. -/
theorem unpack_of_good_header (h8 : p.toNat ≤ 8) (hle : p.toNat ≤ 8 * bytes.length) :
    unpack s = (decodeSymbols (codeTable s.mem) (greatestCodeLen s.mem) (gridSize s)
      (dataBits (p :: bytes) p.toNat)).elim (.error (.raised .decodeMismatch))
        fun syms => .ok (afterUnpack s p (8 * bytes.length - p.toNat) syms) := by
  obtain ⟨hp, hr⟩ := reads_of_holdsBytes_cons hbytes
  have hlen : s.outLen.toNat = bytes.length + 1 := hbytes.len_eq
  rw [hlen] at hcap
  simp only [unpack, hn, hlen, hcap.not_gt, hp, hr, h8.not_gt, hle.not_gt, bind, Except.bind, dataBits_cons, if_false,
    Nat.add_sub_cancel, Nat.succ_ne_zero]
  cases decodeSymbols (codeTable s.mem) (greatestCodeLen s.mem) (gridSize s)
    ((bitsOfBytes bytes).take (8 * bytes.length - p.toNat)) <;> rfl

/-- Data that do not decode to N symbols end in DECODE_MISMATCH. -/
theorem unpack_of_not_decodes (h8 : p.toNat ≤ 8) (hle : p.toNat ≤ 8 * bytes.length)
    (h : ∀ syms, syms.length = gridSize s → ¬ Decodes s.mem syms (dataBits (p :: bytes) p.toNat)) :
    unpack s = .error (.raised .decodeMismatch) := by
  rw [unpack_of_good_header hn hcap hbytes h8 hle]
  cases hd : decodeSymbols (codeTable s.mem) (greatestCodeLen s.mem) (gridSize s) (dataBits (p :: bytes) p.toNat) with
  | none => rfl
  | some syms =>
    have hlen := length_decodeSymbols hd
    rw [← hlen] at hd
    exact absurd ((decodeSymbols_eq_some_iff s.mem syms _).mp hd) (h syms hlen)

theorem exec_unpack_of_decodes (h8 : p.toNat ≤ 8) (hle : p.toNat ≤ 8 * bytes.length) {syms : List Byte}
    (hsyms : syms.length = gridSize s) (h : Decodes s.mem syms (dataBits (p :: bytes) p.toNat)) :
    exec .unpack s = .next (completed (afterUnpack s p (8 * bytes.length - p.toNat) syms)) := by
  refine exec_unpack_of_ok ?_
  rw [unpack_of_good_header hn hcap hbytes h8 hle, ← hsyms, (decodeSymbols_eq_some_iff s.mem syms _).mpr h]
  rfl

end Checks

/-- Settles O48: CheckN, the checks of OUT_LEN and of the header, and the decoding loop, in this order. -/
theorem unpackDecodesOrMismatches : Obligations.UnpackDecodesOrMismatches := by
  refine ⟨decode_encode .unpack, fun s => ?_⟩
  obtain ⟨hempty, hlarge⟩ := shapeCheckComesFirst s .unpack (by simp)
  refine ⟨hempty, hlarge, fun hpos hle => ?_⟩
  have hn : checkN s = .ok (gridSize s) := (checkN_ok_iff s _).mpr ⟨rfl, hpos, hle⟩
  refine ⟨exec_unpack_of_capacity hn, fun hcap => ⟨fun h0 => ?_, fun p bytes hbytes => ⟨fun hbad => ?_, ?_⟩⟩⟩
  · exact exec_unpack_of_mismatch (unpack_of_outLen_eq_zero hn h0)
  · refine exec_unpack_of_mismatch ?_
    by_cases hheader : 8 < p.toNat ∨ 8 * bytes.length < p.toNat
    · exact unpack_of_bad_header hn hcap hbytes hheader
    · obtain ⟨h8, hdata⟩ := not_or.mp hheader
      have hnot := (or_assoc.mpr hbad).resolve_left hheader
      exact unpack_of_not_decodes hn hcap hbytes (not_lt.mp h8) (not_lt.mp hdata) hnot
  · intro h8 hdata syms hsyms hdecodes
    exact ⟨_, exec_unpack_of_decodes hn hcap hbytes h8 hdata hsyms hdecodes, fun i hi => get?_setRange_of_lt _ hi,
      fun i hi => get?_setRange_of_length_le _ (hsyms.trans_le hi), rfl⟩

end Sys2Proof.Proofs
end

section
/-! PROOFS. The packed stream and PACK (45_packer.md R190 to R194): a stream in bytes and back, the codes of the input,
and what PACK leaves. -/

namespace Sys2Proof.Proofs

open Sys2Proof.Machine Sys2Proof.Stated

/-! ### Bytes as bitstrings (R14) -/

@[simp] theorem length_bits8 (v : Byte) : (bits8 v).length = 8 := by simp [bits8]

theorem getElem_bits8 (v : Byte) {k : Nat} (hk : k < (bits8 v).length) : (bits8 v)[k] = v.getMsbD k := by
  simp [bits8]

theorem getMsbD_byteOfBits {b : Bits} (hb : b.length = 8) {k : Nat} (hk : k < b.length) :
    (byteOfBits b).getMsbD k = b[k] := by
  have hbit := testBit_bitsVal b hk
  rw [byteOfBits, BitVec.getMsbD_eq_getLsbD, BitVec.getLsbD_ofNat, ← hbit, hb, decide_eq_true (hb ▸ hk),
    decide_eq_true (by omega : 8 - 1 - k < 8), Bool.true_and, Bool.true_and]

theorem bits8_byteOfBits {b : Bits} (hb : b.length = 8) : bits8 (byteOfBits b) = b :=
  List.ext_getElem ((length_bits8 _).trans hb.symm) fun _ hk hk' =>
    (getElem_bits8 _ hk).trans (getMsbD_byteOfBits hb hk')

theorem byteOfBits_bits8 (v : Byte) : byteOfBits (bits8 v) = v := by
  refine BitVec.eq_of_getMsbD_eq fun k hk => ?_
  have hk' : k < (bits8 v).length := by rwa [length_bits8]
  rw [getMsbD_byteOfBits (length_bits8 v) hk', getElem_bits8]

/-! ### A stream in bytes (R190) -/

/-- The bits of the bytes of a stream are the stream. -/
theorem bitsOfBytes_streamBytes {n : Nat} {stream : Bits} (h : stream.length = 8 * n) :
    bitsOfBytes (streamBytes n stream) = stream := by
  induction n generalizing stream with
  | zero => exact (List.length_eq_zero_iff.mp h).symm
  | succ n ih =>
    have htake : (stream.take 8).length = 8 := by
      rw [List.length_take]
      omega
    have hdrop : (stream.drop 8).length = 8 * n := by
      rw [List.length_drop]
      omega
    calc bitsOfBytes (streamBytes (n + 1) stream)
        = bits8 (byteOfBits (stream.take 8)) ++ bitsOfBytes (streamBytes n (stream.drop 8)) := rfl
      _ = stream := by rw [bits8_byteOfBits htake, ih hdrop, List.take_append_drop]

/-- Bit `i` of the bits of bytes is bit `i mod 8`, from the most significant one, of byte `i div 8`. -/
theorem getMsbD_of_bitsOfBytes (bytes : List Byte) {i : Nat} (hi : i < (bitsOfBytes bytes).length) :
    ∃ b, bytes[i / 8]? = some b ∧ b.getMsbD (i % 8) = (bitsOfBytes bytes)[i] := by
  induction bytes generalizing i with
  | nil => exact absurd hi (Nat.not_lt_zero i)
  | cons v vs ih =>
    have hbits : bitsOfBytes (v :: vs) = bits8 v ++ bitsOfBytes vs := rfl
    simp only [hbits, List.length_append, length_bits8] at hi ⊢
    rcases Nat.lt_or_ge i 8 with hlt | hge
    · refine ⟨v, by rw [Nat.div_eq_of_lt hlt]; rfl, ?_⟩
      rw [List.getElem_append_left (by rwa [length_bits8]), getElem_bits8, Nat.mod_eq_of_lt hlt]
    · obtain ⟨b, hb, hbit⟩ := ih (i := i - 8) (by omega)
      have hdiv : i / 8 = (i - 8) / 8 + 1 := by omega
      have hmod : i % 8 = (i - 8) % 8 := by omega
      refine ⟨b, by rw [hdiv, List.getElem?_cons_succ, hb], ?_⟩
      rw [List.getElem_append_right (by rwa [length_bits8]), hmod, hbit]
      simp only [length_bits8]

/-! ### The packed stream (R190, R192, R193) -/

theorem packedLen_eq (b : Nat) : packedLen b = 2 + b / 8 := by
  unfold packedLen paddingOf
  omega

theorem paddingOf_le (b : Nat) : paddingOf b ≤ 8 := Nat.sub_le 8 _

theorem length_padded (bits : Bits) :
    (bits ++ zeros (paddingOf bits.length)).length = bits.length + paddingOf bits.length := by
  simp [zeros]

/-- The padding fills up the bytes behind the header. -/
theorem length_padded_eq_mul (bits : Bits) :
    (bits ++ zeros (paddingOf bits.length)).length = 8 * (1 + bits.length / 8) := by
  rw [length_padded, paddingOf]
  omega

/-- The header byte, which is the padding count. -/
def packedHeader (bits : Bits) : Byte := BitVec.ofNat 8 (paddingOf bits.length)

/-- The bytes behind the header. -/
def packedBody (bits : Bits) : List Byte :=
  streamBytes (1 + bits.length / 8) (bits ++ zeros (paddingOf bits.length))

theorem streamBytes_packedStream (bits : Bits) :
    streamBytes (packedLen bits.length) (packedStream bits) = packedHeader bits :: packedBody bits := by
  have hlen : packedLen bits.length = 1 + bits.length / 8 + 1 := by
    rw [packedLen_eq]
    omega
  have h8 := length_bits8 (BitVec.ofNat 8 (paddingOf bits.length))
  rw [hlen, streamBytes, packedStream, List.append_assoc, List.take_left' h8, List.drop_left' h8, byteOfBits_bits8,
    packedHeader, packedBody]

theorem length_packedBody (bits : Bits) : (packedBody bits).length = 1 + bits.length / 8 := length_streamBytes _ _

theorem bitsOfBytes_packedBody (bits : Bits) :
    bitsOfBytes (packedBody bits) = bits ++ zeros (paddingOf bits.length) :=
  bitsOfBytes_streamBytes (length_padded_eq_mul bits)

theorem toNat_packedHeader (bits : Bits) : (packedHeader bits).toNat = paddingOf bits.length :=
  Nat.mod_eq_of_lt ((paddingOf_le _).trans_lt (by decide))

theorem setWidth_packedHeader (bits : Bits) :
    (packedHeader bits).setWidth 4 = BitVec.ofNat 4 (paddingOf bits.length) :=
  BitVec.setWidth_ofNat_of_le (by decide) _

/-- The bits behind the header are the code bits and the padding. -/
theorem length_packedBody_bits (bits : Bits) :
    8 * (packedBody bits).length = bits.length + (packedHeader bits).toNat := by
  rw [length_packedBody, toNat_packedHeader, ← length_padded_eq_mul, length_padded]

/-- Without the padding, the data bits of the packed bytes are the code bits. -/
theorem dataBits_packed (p : Byte) (bits : Bits) :
    dataBits (p :: packedBody bits) (packedHeader bits).toNat = bits := by
  rw [dataBits_cons, bitsOfBytes_packedBody, length_packedBody_bits, Nat.add_sub_cancel, List.take_left]

/-! ### The validation pass (R191) -/

/-- The pass over written symbols: it raises where one of them has no code, and else answers their codes. -/
theorem readCodes_of_readRange {m : Memory} {i : Nat} {syms : List Byte}
    (h : readRange .sym m.sym i syms.length = .ok syms) :
    readCodes m i syms.length =
      if ∀ v ∈ syms, HasCode m v then .ok (syms.map (codeOf m)) else .error (.raised .noCode) := by
  induction syms generalizing i with
  | nil => rfl
  | cons v vs ih =>
    obtain ⟨hv, hvs⟩ := (readRange_cons_iff _ _ _ _ _ _).mp h
    simp only [List.length_cons, readCodes, hv, ih hvs, bind, Except.bind, pure, Except.pure, List.forall_mem_cons]
    by_cases hcode : HasCode m v
    · by_cases hall : ∀ v ∈ vs, HasCode m v
      · rw [if_neg hcode, if_pos hall, if_pos ⟨hcode, hall⟩, List.map_cons]
      · rw [if_neg hcode, if_neg hall, if_neg fun h => hall h.2]
    · rw [if_pos (not_not.mp hcode), if_neg fun h => hcode h.1]

/-! ### PACK (R191) -/

/-- The state that a successful PACK of the code bits `bits` leaves, before completion. -/
def afterPack (s : State) (bits : Bits) : State :=
  { s with
    outLen := BitVec.ofNat 32 (packedLen bits.length)
    totalBits := BitVec.ofNat 32 bits.length
    padding := BitVec.ofNat 4 (paddingOf bits.length)
    mem := { s.mem with
      out := Sparse.setRange s.mem.out 0 (streamBytes (packedLen bits.length) (packedStream bits)) } }

theorem exec_pack_of_raised {s : State} {e : ErrorCode} (h : pack s = .error (.raised e)) :
    exec .pack s = .next (failed e.code s) := by
  refine exec_of_raised ?_
  rw [commandResult, h]
  rfl

theorem exec_pack_of_ok {s t : State} (h : pack s = .ok t) : exec .pack s = .next (completed t) := by
  refine exec_of_done ?_
  rw [commandResult, h]
  rfl

/-- PACK of a loaded grid: the validation pass, the check of the length, and then its writes. -/
theorem pack_of_gridLoaded {s : State} {syms : List Byte} (h : GridLoaded s syms) :
    pack s =
      if ∀ v ∈ syms, HasCode s.mem v then
        if s.params.outMax < packedLen (syms.map (codeOf s.mem)).flatten.length then .error (.raised .outputOverflow)
        else .ok (afterPack s (syms.map (codeOf s.mem)).flatten)
      else .error (.raised .noCode) := by
  obtain ⟨hn, hr⟩ := (gridLoaded_iff s syms).mp h
  rw [← h.size_eq] at hn hr
  simp only [pack, hn, readCodes_of_readRange hr, bind, Except.bind]
  by_cases hall : ∀ v ∈ syms, HasCode s.mem v
  · rw [if_pos hall, if_pos hall]
    rfl
  · rw [if_neg hall, if_neg hall]

theorem outAt_afterPack {s : State} {bits : Bits} {j : Nat} (hj : j < packedLen bits.length) :
    (afterPack s bits).outAt j = (packedHeader bits :: packedBody bits)[j]? := by
  have hlen : j < (streamBytes (packedLen bits.length) (packedStream bits)).length := by rwa [length_streamBytes]
  rw [State.outAt, afterPack, get?_setRange_of_lt _ hlen, ← List.getElem?_eq_getElem, streamBytes_packedStream]

/-- Bit `i` behind the header is bit `i` of the code bits and the padding. -/
theorem exists_outAt_afterPack (s : State) {bits : Bits} {i : Nat}
    (hi : i < (bits ++ zeros (paddingOf bits.length)).length) :
    ∃ b, (afterPack s bits).outAt (1 + i / 8) = some b ∧
      b.getMsbD (i % 8) = (bits ++ zeros (paddingOf bits.length))[i] := by
  obtain ⟨b, hb, hbit⟩ := getMsbD_of_bitsOfBytes (packedBody bits) (by rwa [bitsOfBytes_packedBody])
  rw [length_padded_eq_mul] at hi
  refine ⟨b, ?_, hbit.trans ?_⟩
  · rw [outAt_afterPack (by rw [packedLen_eq]; omega), Nat.add_comm 1, List.getElem?_cons_succ, hb]
  · simp only [bitsOfBytes_packedBody]

/-- Settles O46: CheckN, the validation pass and the check of the length, in this order, and then the stream in OUT. -/
theorem packWritesTheStream : Obligations.PackWritesTheStream := by
  refine ⟨decode_encode .pack, fun s => ?_⟩
  obtain ⟨hempty, hlarge⟩ := shapeCheckComesFirst s .pack (by simp)
  refine ⟨hempty, hlarge, fun syms h => ⟨fun ⟨v, hv, hnone⟩ => ?_, ?_⟩⟩
  · exact exec_pack_of_raised ((pack_of_gridLoaded h).trans (if_neg fun hall => hall v hv hnone))
  rintro hcodes bits rfl
  have hpack := (pack_of_gridLoaded h).trans (if_pos hcodes)
  generalize (syms.map (codeOf s.mem)).flatten = bits at hpack ⊢
  rw [← packedLen_eq]
  refine ⟨fun hlong => exec_pack_of_raised (hpack.trans (if_pos hlong)), fun hfit => ?_⟩
  have hpadded : (bits ++ zeros (paddingOf bits.length)).length = bits.length + (8 - bits.length % 8) :=
    length_padded bits
  refine ⟨_, exec_pack_of_ok (hpack.trans (if_neg hfit.not_gt)), outAt_afterPack ?_, fun i hi => ?_,
    fun i hi hlt => ?_, fun j hj => get?_setRange_of_length_le _ ((length_streamBytes _ _).trans_le hj), rfl⟩
  · rw [packedLen_eq]
    omega
  · obtain ⟨b, hb, hbit⟩ := exists_outAt_afterPack s (bits := bits) (i := i) (by omega)
    exact ⟨b, hb, hbit.trans (List.getElem_append_left hi)⟩
  · obtain ⟨b, hb, hbit⟩ := exists_outAt_afterPack s (bits := bits) (i := i) (by omega)
    refine ⟨b, hb, hbit.trans ?_⟩
    rw [List.getElem_append_right hi]
    exact List.getElem_replicate _

end Sys2Proof.Proofs
end

section
/-! PROOFS. The Huffman round trip (45_packer.md R200): no code that the encoder makes begins another, so
UNPACK decodes what PACK wrote, in every state that holds the same block. -/

namespace Sys2Proof.Proofs

open Sys2Proof.Machine Sys2Proof.Stated

/-! ### The same code table -/

/-- CODE holds the same for every symbol. -/
def SameCodes (m m' : Memory) : Prop := ∀ v, codeEntry m' v = codeEntry m v

theorem sameCodes_of_codeAt {s s' : State}
    (h : ∀ v < 256, s'.codeLenAt v = s.codeLenAt v ∧ s'.codeBitsAt v = s.codeBitsAt v) : SameCodes s.mem s'.mem :=
  fun v => Prod.ext (h v.toNat v.isLt).1 (h v.toNat v.isLt).2

theorem SameCodes.codeOf_eq {m m' : Memory} (h : SameCodes m m') : codeOf m' = codeOf m :=
  funext fun v => congrArg (fun e : Byte × CodeCells => takeCells e.2 e.1.toNat) (h v)

theorem SameCodes.hasCode {m m' : Memory} (h : SameCodes m m') {v : Byte} (hv : HasCode m v) : HasCode m' v :=
  (congrArg Prod.fst (h v)).trans_ne hv

theorem SameCodes.symm {m m' : Memory} (h : SameCodes m m') : SameCodes m' m := fun v => (h v).symm

theorem SameCodes.prefixFree {m m' : Memory} (h : SameCodes m m') (hfree : PrefixFree m) : PrefixFree m' := by
  intro a b hne ha hb
  rw [h.codeOf_eq]
  exact hfree a b hne (h.symm.hasCode ha) (h.symm.hasCode hb)

/-! ### UNPACK after PACK -/

/-- `t'` holds the block that `t` holds: the parameters, SHAPE, CODE, OUT_LEN and OUT[0..OUT_LEN-1]. -/
structure SamePacked (t t' : State) : Prop where
  params_eq : t'.params = t.params
  size_eq : gridSize t' = gridSize t
  outLen_eq : t'.outLen = t.outLen
  out_eq : ∀ j < t.outLen.toNat, t'.outAt j = t.outAt j
  codes : SameCodes t.mem t'.mem

/-- What UNPACK has to leave, in a state `w`, of the symbols that PACK packed in `t`. -/
structure Unpacked (syms : List Byte) (t w : State) : Prop where
  dec_eq : ∀ i, ∀ h : i < syms.length, w.decAt i = some syms[i]
  decCount_eq : w.decCount.toNat = syms.length
  padding_eq : w.padding = t.padding
  totalBits_eq : w.totalBits = t.totalBits

theorem holdsBytes_of_samePacked {t t' : State} {bytes : List Byte} (h : HoldsBytes t bytes) (hsame : SamePacked t t') :
    HoldsBytes t' bytes where
  len_eq := hsame.outLen_eq ▸ h.len_eq
  byte_eq j hj := (hsame.out_eq j (h.len_eq ▸ hj)).trans (h.byte_eq j hj)

theorem holdsBytes_afterPack {s : State} {bits : Bits} (hfit : packedLen bits.length < 2 ^ 32) :
    HoldsBytes (afterPack s bits) (packedHeader bits :: packedBody bits) := by
  rw [← streamBytes_packedStream]
  exact ⟨(Nat.mod_eq_of_lt hfit).trans (length_streamBytes _ _).symm, fun j hj => get?_setRange_of_lt _ hj⟩

/-- UNPACK of packed code bits that decode to N symbols. -/
theorem exec_unpack_of_packed {s : State} {bits : Bits} {syms : List Byte} (hn : checkN s = .ok (gridSize s))
    (hcap : s.outLen.toNat ≤ s.params.outMax) (hbytes : HoldsBytes s (packedHeader bits :: packedBody bits))
    (hsyms : syms.length = gridSize s) (h : Decodes s.mem syms bits) :
    exec .unpack s = .next (completed (afterUnpack s (packedHeader bits) bits.length syms)) := by
  have hlen := length_packedBody_bits bits
  have hbits : 8 * (packedBody bits).length - (packedHeader bits).toNat = bits.length := by omega
  have h8 : (packedHeader bits).toNat ≤ 8 := (toNat_packedHeader bits).trans_le (paddingOf_le _)
  rw [← hbits]
  exact exec_unpack_of_decodes hn hcap hbytes h8 (by omega) hsyms (by rwa [dataBits_packed])

/-- Where no code begins another, UNPACK of the same block gives back what PACK packed. -/
theorem exec_unpack_of_pack {s u t' : State} {syms : List Byte} (hp : s.params.legal = true) (h : GridLoaded s syms)
    (hfree : PrefixFree s.mem) (hpack : pack s = .ok u) (hsame : SamePacked u t') :
    ∃ w, exec .unpack t' = .next w ∧ w.status.err = t'.status.err ∧ Unpacked syms u w := by
  rw [pack_of_gridLoaded h] at hpack
  split_ifs at hpack with hcodes hlong
  obtain rfl := Except.ok.inj hpack
  have hparams : t'.params = s.params := hsame.params_eq
  have hsize : gridSize t' = gridSize s := hsame.size_eq
  have htable : SameCodes s.mem t'.mem := hsame.codes
  have hdecodes : Decodes t'.mem syms (syms.map (codeOf s.mem)).flatten := by
    rw [← htable.codeOf_eq]
    exact decodes_codes_of_prefixFree (htable.prefixFree hfree) fun v hv => htable.hasCode (hcodes v hv)
  generalize (syms.map (codeOf s.mem)).flatten = bits at *
  have hfit : packedLen bits.length < 2 ^ 32 := by
    obtain ⟨-, hmax, -⟩ := legal_bounds hp
    omega
  have hn : checkN t' = .ok (gridSize t') :=
    (checkN_ok_iff t' _).mpr ⟨rfl, hsize ▸ h.size_pos, by rw [hsize, hparams]; exact h.size_le⟩
  have hcap : t'.outLen.toNat ≤ t'.params.outMax := by
    rw [hparams, hsame.outLen_eq]
    exact (Nat.mod_eq_of_lt hfit).trans_le (not_lt.mp hlong)
  have hbytes := holdsBytes_of_samePacked (holdsBytes_afterPack hfit) hsame
  have hsyms : gridSize t' = syms.length := hsize.trans h.size_eq.symm
  refine ⟨_, exec_unpack_of_packed hn hcap hbytes hsyms.symm hdecodes, rfl, fun i hi => get?_setRange_of_lt _ hi, ?_,
    setWidth_packedHeader bits, rfl⟩
  exact (congrArg (· % 2 ^ 32) hsyms).trans (Nat.mod_eq_of_lt (length_lt_of_gridLoaded hp h))

/-! ### No code that the encoder makes begins another (R175) -/

theorem nodeCount_ne_zero_of_treeShape {s : State}
    (hshape : TreeShape s.mem.node s.leafCount.toNat s.nodeCount.toNat s.root.toNat) : s.nodeCount ≠ 0#10 := by
  intro hzero
  have hcount := hshape.count_eq
  have hpos := hshape.leaf_pos
  rw [hzero, BitVec.toNat_zero] at hcount
  omega

theorem prefixFree_of_exec_codeGen {s t : State}
    (hshape : TreeShape s.mem.node s.leafCount.toNat s.nodeCount.toNat s.root.toNat)
    (h : exec .codeGen s = .next t) : PrefixFree t.mem := by
  obtain ⟨codes, hexec, hcodes⟩ := exec_codeGen_of_tree (nodeCount_ne_zero_of_treeShape hshape) hshape
  cases hexec.symm.trans h
  exact hcodes.prefixFree s.mem

/-- The counts of a loaded grid sum to N, so TREE_BUILD makes a tree of them. -/
theorem prefixFree_of_encoder {s0 s1 s2 s3 : State} {syms : List Byte} (hlen : syms.length < 2 ^ 32)
    (h : GridLoaded s0 syms) (hfreq : exec .freqCount s0 = .next s1) (htree : exec .treeBuild s1 = .next s2)
    (hcode : exec .codeGen s2 = .next s3) : PrefixFree s3.mem := by
  have hcounts : s1.mem.freq = countSymbols syms := by
    cases (exec_freqCount_of_gridLoaded h).symm.trans hfreq
    rfl
  have hsum : frequencySum s1 = syms.length := (congrArg freqSum hcounts).trans (freqSum_countSymbols hlen)
  have hpos : 0 < frequencySum s1 := by
    rw [hsum, h.size_eq]
    exact h.size_pos
  have hle : frequencySum s1 ≤ 0xFFFFFFFF := by omega
  cases (exec_treeBuild_of_sum_in_range hpos hle).symm.trans htree
  exact prefixFree_of_exec_codeGen (s := completed (afterTreeBuild s1)) (treeShape_afterTreeBuild hpos hle) hcode

/-! ### The commands that ended without an error -/

/-- A command that completes with ERR = 0 ran to its end. -/
theorem exists_done_of_err_eq_false {i : Instr} {s t : State} (h : exec i s = .next t) (herr : t.status.err = false) :
    ∃ u, commandResult i s = .done u ∧ t = completed u := by
  rw [exec_eq_finish, finish_next_iff] at h
  rcases h with ⟨u, hu, rfl⟩ | ⟨e, u, -, rfl⟩
  · exact ⟨u, hu, rfl⟩
  · cases herr

theorem ofExcept_eq_done_iff (s t : State) (x : Except Stop State) :
    CommandResult.ofExcept s x = .done t ↔ x = .ok t := by
  rcases x with (e | f) | u <;> simp [CommandResult.ofExcept]

theorem andThen_eq_done_iff (r : CommandResult) (f : State → CommandResult) (t : State) :
    r.andThen f = .done t ↔ ∃ u, r = .done u ∧ f u = .done t := by
  cases r <;> simp [CommandResult.andThen]

/-- HUFF_ENCODE runs to its end exactly where its four commands do (R220). -/
theorem huffEncodeResult_eq_done_iff (s t : State) : huffEncodeResult s = .done t ↔
    ∃ c, (∃ b, (∃ a, freqCount s = .ok a ∧ treeBuild a = .ok b) ∧ codeGen b = .ok c) ∧ pack c = .ok t := by
  simp only [huffEncodeResult, andThen_eq_done_iff, freqCountResult, treeBuildResult, codeGenResult, packResult,
    ofExcept_eq_done_iff]

/-- The grid is still loaded behind HUFF_ENCODE's first three commands. -/
theorem gridLoaded_of_keepsFrame {s u : State} {syms : List Byte} (h : GridLoaded s syms)
    (hu : KeepsFrame .huffEncode s u) : GridLoaded u syms := by
  obtain ⟨hu, -, -⟩ := hu
  rw [hu]
  exact ⟨h.size_eq, h.size_pos, h.size_le, h.sym_eq⟩

/-- A state that a PACK of `syms` without an error completes in, from a state with the parameters of `s` where no code
begins another. -/
inductive PackedFrom (syms : List Byte) (s : State) : State → Prop
  | mk {c u : State} (params_eq : c.params = s.params) (loaded : GridLoaded c syms) (free : PrefixFree c.mem)
      (pack_eq : pack c = .ok u) : PackedFrom syms s (completed u)

theorem packedFrom_of_huffEncode {s t : State} {syms : List Byte} (h : GridLoaded s syms)
    (hexec : exec .huffEncode s = .next t) (herr : t.status.err = false) : PackedFrom syms s t := by
  obtain ⟨u, hdone, rfl⟩ := exists_done_of_err_eq_false hexec herr
  obtain ⟨c, ⟨b, ⟨a, hfreq, htree⟩, hcode⟩, hpack⟩ := (huffEncodeResult_eq_done_iff s u).mp hdone
  have hframe : KeepsFrameAndOut s c := keepsFrameAndOut_of_codeGen
    (keepsFrameAndOut_of_treeBuild (freqCount_keepsFrame hfreq) (treeBuild_keepsFrame htree)) (codeGen_keepsFrame hcode)
  obtain ⟨-, -, -, hshape, -⟩ := treeBuild_ok_treeShape htree
  have hfree : PrefixFree (completed c).mem :=
    prefixFree_of_exec_codeGen hshape (exec_of_done ((ofExcept_eq_done_iff b c _).mpr hcode))
  exact .mk hframe.params_eq (gridLoaded_of_keepsFrame h hframe.frame) hfree hpack

theorem packedFrom_of_pack {s t : State} {syms : List Byte} (h : GridLoaded s syms) (hfree : PrefixFree s.mem)
    (hexec : exec .pack s = .next t) (herr : t.status.err = false) : PackedFrom syms s t := by
  obtain ⟨u, hdone, rfl⟩ := exists_done_of_err_eq_false hexec herr
  exact .mk rfl h hfree ((ofExcept_eq_done_iff s u _).mp hdone)

/-- Settles O49: either way the block was packed with codes none of which begins another, and UNPACK decodes those. -/
theorem huffmanRoundTrip : Obligations.HuffmanRoundTrip := by
  intro s t t' syms hp _ h hexec herr hparams hH hW hC hoff hout hcodes
  have hpacked : PackedFrom syms s t := by
    rcases hexec with hexec | ⟨s0, s1, s2, s3, h0, hfreq, htree, hcode, htable, hexec⟩
    · exact packedFrom_of_huffEncode h hexec herr
    · have hfree := prefixFree_of_encoder (length_lt_of_gridLoaded hp h) h0 hfreq htree hcode
      exact packedFrom_of_pack h ((sameCodes_of_codeAt htable).prefixFree hfree) hexec herr
  have hsize : gridSize t' = gridSize t := by rw [gridSize, hH, hW, hC, gridSize]
  obtain ⟨hcparams, hloaded, hfree, hpack⟩ := hpacked
  obtain ⟨w, hunpack, hw, hdec, hcount, hpad, hbits⟩ := exec_unpack_of_pack (hcparams ▸ hp) hloaded hfree hpack
    ⟨hparams, hsize, hoff, hout, sameCodes_of_codeAt hcodes⟩
  exact ⟨w, hunpack, hw, hdec, hcount.trans h.size_eq, hpad, hbits⟩

end Sys2Proof.Proofs
end

section
/-! PROOFS. The cost of the merges (46_pipeline.md R221, 93_implementation_defined.md G1 and G2): the frequencies of
the nodes that TREE_BUILD's merges make sum to at most 8 times the sum of FREQ. -/

namespace Sys2Proof.Proofs

open Sys2Proof.Machine Sys2Proof.Stated

/-! ### The bound and one merge -/

/-- `cost` is at most the total length of a code of words of `L` and `L - 1` bits for the weights `w`, whichever weights
`short` get the shorter words; `2 ^ L` leaves room for such a code (G2). -/
def CostBound (w : Multiset Nat) (cost : Nat) : Prop :=
  ∀ (L : Nat) (short : Multiset Nat), short ≤ w → w.card + short.card ≤ 2 ^ L → cost + short.sum ≤ L * w.sum

theorem sum_le_sum_of_multiset_le {v w : Multiset Nat} (h : v ≤ w) : v.sum ≤ w.sum := by
  obtain ⟨u, rfl⟩ := Multiset.le_iff_exists_add.mp h
  rw [Multiset.sum_add]
  exact Nat.le_add_right _ _

/-- Making no merge meets the bound. -/
theorem costBound_zero (w : Multiset Nat) : CostBound w 0 := by
  intro L short hshort hroom
  rcases short.empty_or_exists_mem with rfl | ⟨x, hx⟩
  · simp
  · have hpos : 0 < short.card := Multiset.card_pos_iff_exists_mem.mpr ⟨x, hx⟩
    have hcard := Multiset.card_le_card hshort
    have hL : L ≠ 0 := by
      rintro rfl
      omega
    calc 0 + short.sum ≤ w.sum := (Nat.zero_add _).trans_le (sum_le_sum_of_multiset_le hshort)
      _ ≤ L * w.sum := Nat.le_mul_of_pos_left _ (Nat.pos_of_ne_zero hL)

/-- For every choice of weights there is one of the same size, and no lighter, that does without the least weight (G1's
exchange). -/
theorem exists_le_sum_of_le_cons {a : Nat} {rest w : Multiset Nat} (ha : ∀ x ∈ rest, a ≤ x) (hw : w ≤ a ::ₘ rest)
    (hcard : w.card ≤ rest.card) : ∃ w' ≤ rest, w'.card = w.card ∧ w.sum ≤ w'.sum := by
  by_cases hmem : a ∈ w
  · obtain ⟨v, rfl⟩ := Multiset.exists_cons_of_mem hmem
    have hv : v ≤ rest := (Multiset.cons_le_cons_iff a).mp hw
    rw [Multiset.card_cons] at hcard
    obtain ⟨x, hx⟩ := Multiset.lt_iff_cons_le.mp (lt_of_le_of_ne hv (by rintro rfl; omega))
    refine ⟨x ::ₘ v, hx, by simp, ?_⟩
    rw [Multiset.sum_cons, Multiset.sum_cons]
    exact Nat.add_le_add_right (ha x (Multiset.mem_of_le hx (Multiset.mem_cons_self x v))) _
  · exact ⟨w, (Multiset.le_cons_of_notMem hmem).mp hw, rfl, le_rfl⟩

/-- The merge of the two least weights keeps the bound. Where both get `L` bits, their sum gets `L - 1`; where fewer
than two weights get `L` bits, there is room for all of them at `L - 1` bits. -/
theorem CostBound.merge {a b cost : Nat} {rest : Multiset Nat} (h : CostBound ((a + b) ::ₘ rest) cost) (hab : a ≤ b)
    (hb : ∀ x ∈ rest, b ≤ x) : CostBound (a ::ₘ b ::ₘ rest) (a + b + cost) := by
  have hlong : ∀ (L : Nat) (short : Multiset Nat), short ≤ a ::ₘ b ::ₘ rest → short.card ≤ rest.card →
      rest.card + 2 + short.card ≤ 2 ^ L → a + b + cost + short.sum ≤ L * (a + b + rest.sum) := by
    intro L short hshort hcard hroom
    have ha : ∀ x ∈ b ::ₘ rest, a ≤ x := by
      simpa using ⟨hab, fun x hx => hab.trans (hb x hx)⟩
    obtain ⟨v, hv, hvcard, hvsum⟩ := exists_le_sum_of_le_cons ha hshort (by rw [Multiset.card_cons]; omega)
    obtain ⟨u, hu, hucard, husum⟩ := exists_le_sum_of_le_cons hb hv (by omega)
    have hmerged := h L ((a + b) ::ₘ u) (Multiset.cons_le_cons _ hu) (by simp only [Multiset.card_cons]; omega)
    simp only [Multiset.sum_cons] at hmerged
    omega
  intro L short hshort hroom
  have hsum := sum_le_sum_of_multiset_le hshort
  simp only [Multiset.sum_cons, Multiset.card_cons, ← Nat.add_assoc] at hroom hsum ⊢
  rcases Nat.lt_or_ge rest.card short.card with hlt | hge
  · obtain ⟨L, rfl⟩ : ∃ M, L = M + 1 := Nat.exists_eq_succ_of_ne_zero (by rintro rfl; omega)
    have hall := hlong L 0 (Multiset.zero_le _) (Nat.zero_le _) (by rw [Multiset.card_zero]; omega)
    rw [Multiset.sum_zero] at hall
    rw [Nat.succ_mul]
    omega
  · exact hlong L short hshort hge hroom

/-! ### The merge loop -/

/-- The sum of the frequencies of the nodes of a list. -/
def freqTotal (ns : List NodeEntry) : Nat := (ns.map fun n => n.freq.toNat).sum

@[simp] theorem freqTotal_cons (n : NodeEntry) (ns : List NodeEntry) :
    freqTotal (n :: ns) = n.freq.toNat + freqTotal ns := rfl

/-- The frequencies of a queue's entries. -/
def queueWeights (q : List QueueEntry) : Multiset Nat := ↑(q.map QueueEntry.freq)

theorem queueWeights_enqueue (e : QueueEntry) (q : List QueueEntry) :
    queueWeights (enqueue e q) = e.freq ::ₘ queueWeights q :=
  Multiset.coe_eq_coe.mpr ((enqueue_perm e q).map QueueEntry.freq)

theorem freq_le_of_before {a b : QueueEntry} (h : a.before b = true) : a.freq ≤ b.freq := by
  rw [before_iff] at h
  omega

/-- The nodes that the merge loop makes meet the bound for the frequencies queued, since every merge takes the two
least. -/
theorem mergeLoop_costBound {k total : Nat} (ht : total < 2 ^ 32) (fuel : Nat) {ns : List NodeEntry}
    {q : List QueueEntry} (h : Merging k total ns q) (ho : KeyOrdered q) :
    CostBound (queueWeights q) (freqTotal (mergeLoop fuel q ns.length).1) := by
  induction fuel generalizing ns q with
  | zero => exact costBound_zero _
  | succ fuel ih =>
    match q, h, ho with
    | [], _, _ => exact costBound_zero _
    | [e], _, _ => exact costBound_zero _
    | a :: b :: q, h, ho =>
      have hrest := ih (h.merge ht) (h.keyOrdered_merge ho)
      rw [queueWeights_enqueue, List.length_append, List.length_singleton] at hrest
      obtain ⟨hafter_a, hafter⟩ := List.pairwise_cons.mp ho
      obtain ⟨hafter_b, -⟩ := List.pairwise_cons.mp hafter
      have hleast : ∀ x ∈ queueWeights q, b.freq ≤ x := fun x hx => by
        obtain ⟨e, he, rfl⟩ := List.mem_map.mp (Multiset.mem_coe.mp hx)
        exact freq_le_of_before (hafter_b e he)
      have hnode : (internalNode a b).freq.toNat = a.freq + b.freq := by
        have hsum := h.sum_eq
        simp only [List.map_cons, List.sum_cons] at hsum
        exact Nat.mod_eq_of_lt (by omega)
      rw [mergeLoop, freqTotal_cons, hnode]
      exact hrest.merge (freq_le_of_before (hafter_a b List.mem_cons_self)) hleast

/-- With at most 256 leaves, 8 bits a symbol are enough (R221). -/
theorem freqTotal_inner_treePool_le {freq : Sparse Word} (hpos : 0 < freqSum freq)
    (hle : freqSum freq ≤ Config.freqSumMax) :
    freqTotal ((treePool freq).drop (leaves freq).length) ≤ 8 * freqSum freq := by
  have h := merging_leaves hpos.ne'
  have hcard : (queueWeights (queueOf 0 (leaves freq))).card = (queueOf 0 (leaves freq)).length := by
    simp [queueWeights]
  have hsum : (queueWeights (queueOf 0 (leaves freq))).sum = freqSum freq := h.sum_eq
  have hroom := length_queueOf_leaves_le hpos
  have hbound := mergeLoop_costBound (hle.trans_lt (by decide)) (Config.alphabet - 1) h (keyOrdered_queueOf _ _) 8 0
    (Multiset.zero_le _) (by rw [hcard]; exact hroom)
  rw [hsum] at hbound
  rwa [treePool, List.drop_left]

end Sys2Proof.Proofs
end

section
/-! PROOFS. The total length of the codes of a tree (44_codes.md R170, 46_pipeline.md R221): weighed with their symbols'
frequencies, the codes are as long as the internal nodes of the tree are heavy. -/

namespace Sys2Proof.Proofs

open Sys2Proof.Machine Sys2Proof.Stated

/-! ### The walk's codes and the nodes it meets -/

/-- The frequency of node `id`. -/
def nodeFreq (node : Sparse NodeEntry) (id : Nat) : Nat := ((Sparse.get? node id).map fun n => n.freq.toNat).getD 0

theorem nodeFreq_eq {node : Sparse NodeEntry} {id : Nat} {n : NodeEntry} (h : Sparse.get? node id = some n) :
    nodeFreq node id = n.freq.toNat := by
  rw [nodeFreq, h]
  rfl

/-- The frequency of an internal node is the sum of its children's (R156). -/
theorem nodeFreq_of_inner {node : Sparse NodeEntry} {k count root id : Nat} {n : NodeEntry}
    (hshape : TreeShape node k count root) (hid : id ≤ root) (hn : Sparse.get? node id = some n)
    (hinner : InnerAt k id n) : nodeFreq node id = nodeFreq node n.left.toNat + nodeFreq node n.right.toNat := by
  obtain ⟨m, a, b, hm, -, -, -, -, -, ha, hb, hfreq⟩ :=
    hshape.internal_node id hinner.leaf_le (treeShape_count_eq hshape ▸ Nat.lt_succ_of_le hid)
  obtain rfl : m = n := Option.some.inj (hm.symm.trans hn)
  rw [nodeFreq_eq hn, nodeFreq_eq ha, nodeFreq_eq hb, hfreq]

/-- Every leaf weighs what `weight` says of its symbol. -/
def LeavesWeigh (node : Sparse NodeEntry) (k : Nat) (weight : Byte → Nat) : Prop :=
  ∀ id n, id < k → Sparse.get? node id = some n → weight n.symbol = n.freq.toNat

/-- The weighed length of a list of codes. -/
def codeCost (weight : Byte → Nat) (codes : List (Byte × Bits)) : Nat :=
  (codes.map fun e => weight e.1 * e.2.length).sum

/-- The weighed length of the paths on the stack. -/
def stackCost (node : Sparse NodeEntry) (stack : List (Nat × Bits)) : Nat :=
  (stack.map fun e => nodeFreq node e.1 * e.2.length).sum

section Cost
variable {node : Sparse NodeEntry} {k count root : Nat} {popped : List Nat} {stack : List (Nat × Bits)}
  {codes : List (Byte × Bits)} {weight : Byte → Nat}

/-- Each internal node popped makes the paths to its two children one bit longer, which costs its own frequency; and it
is popped once. -/
theorem Walk.codeCost_le (hshape : TreeShape node k count root) (hweight : LeavesWeigh node k weight)
    (h : Walk node k root popped stack codes) :
    codeCost weight codes ≤
      stackCost node stack + ∑ id ∈ Finset.Ico k count \ popped.toFinset, nodeFreq node id := by
  induction h with
  | nil => exact Nat.zero_le _
  | @leaf popped id p stack n codes h hn hleaf _ ih =>
    have hid := (leaf_iff_lt hshape (h.ids_le id (by simp)) hn).mp hleaf
    have hsub : Finset.Ico k count \ (id :: popped).toFinset ⊆ Finset.Ico k count \ popped.toFinset :=
      Finset.sdiff_subset_sdiff le_rfl (by simp)
    have hsum := Finset.sum_le_sum_of_subset (f := nodeFreq node) hsub
    simp only [codeCost, stackCost, List.map_cons, List.sum_cons, hweight id n hid hn, nodeFreq_eq hn] at ih ⊢
    omega
  | @inner popped id p stack n codes h hn hinner _ ih =>
    have hle := h.ids_le id (by simp)
    have hnew : id ∉ popped := fun hmem => (List.nodup_cons.mp h.ids_nodup).1 (List.mem_append_right _ hmem)
    have hmem : id ∈ Finset.Ico k count \ popped.toFinset := by
      have := treeShape_count_eq hshape
      have := hinner.leaf_le
      simp only [Finset.mem_sdiff, Finset.mem_Ico, List.mem_toFinset]
      exact ⟨⟨by omega, by omega⟩, hnew⟩
    have hrest := Finset.sum_erase_add _ (nodeFreq node) hmem
    have hlen : nodeFreq node id * p.length + nodeFreq node id = nodeFreq node n.left.toNat * (p.length + 1) +
        nodeFreq node n.right.toNat * (p.length + 1) := by
      rw [nodeFreq_of_inner hshape hle hn hinner]
      ring
    rw [List.toFinset_cons, Finset.sdiff_insert] at ih
    simp only [stackCost, List.map_cons, List.sum_cons, List.length_append, List.length_singleton] at ih ⊢
    omega

end Cost

/-! ### The codes of TREE_BUILD's tree -/

/-- The frequencies of the nodes `k` to the last of a pool in memory. -/
theorem sum_nodeFreq_eq_freqTotal {node : Sparse NodeEntry} {ns : List NodeEntry} {k : Nat}
    (hnode : ∀ id < ns.length, Sparse.get? node id = ns[id]?) :
    ∑ id ∈ Finset.Ico k ns.length, nodeFreq node id = freqTotal (ns.drop k) := by
  rw [Finset.sum_Ico_eq_sum_range, ← List.length_drop, Finset.sum_range, freqTotal,
    ← Fin.sum_univ_fun_getElem]
  refine Finset.sum_congr rfl fun i _ => nodeFreq_eq ?_
  have hi := i.isLt.trans_eq List.length_drop
  rw [hnode _ (by omega), List.getElem?_eq_getElem (by omega), List.getElem_drop]

/-- Where the root is internal the codes are those of the walk. -/
theorem walk_of_treeCodes {node : Sparse NodeEntry} {k count root : Nat} {codes : List (Byte × Bits)}
    (hshape : TreeShape node k count root) (hk : k ≠ 1) (h : treeCodes node root = .ok codes) :
    Walk node k root [] [(root, [])] codes := by
  have hroot := hshape.root_eq
  have hpos := hshape.leaf_pos
  have hkmax : k ≤ 256 := hshape.leaf_le
  obtain ⟨n, hn, hleaf | hinner⟩ := treeShape_node_cases hshape (le_refl root)
  · have hlt := (leaf_iff_lt hshape le_rfl hn).mp hleaf
    omega
  · have hpops : root + 1 ≤ Config.nodePool + ([] : List Nat).length := by
      rw [Config.nodePool, List.length_nil]
      omega
    obtain ⟨codes', hok, hwalk⟩ := exists_walk hshape (walking_start hpos) hpops
    obtain rfl : codes = codes' := Except.ok.inj (h.symm.trans ((treeCodes_of_inner hn hinner.not_leaf).trans hok))
    exact hwalk

/-- Weighed with FREQ, the codes of TREE_BUILD's tree are at most 8 bits a symbol long (R221). -/
theorem codeCost_afterTreeBuild_le {s : State} {codes : List (Byte × Bits)} (hpos : 0 < frequencySum s)
    (hle : frequencySum s ≤ 0xFFFFFFFF) (hk : (leaves s.mem.freq).length ≠ 1)
    (h : treeCodes (afterTreeBuild s).mem.node (afterTreeBuild s).root.toNat = .ok codes) :
    codeCost (fun v => (s.freqAt v.toNat).toNat) codes ≤ 8 * frequencySum s := by
  have hshape := treeShape_afterTreeBuild hpos hle
  rw [toNat_leafCount_afterTreeBuild, toNat_nodeCount_afterTreeBuild hpos hle] at hshape
  have hweight : LeavesWeigh (afterTreeBuild s).mem.node (leaves s.mem.freq).length
      fun v => (s.freqAt v.toNat).toNat := fun id n hid hn => by
    rw [freq_of_nodeAt_leaf hid hn]
  have hcost := (walk_of_treeCodes hshape hk h).codeCost_le hshape hweight
  rw [List.toFinset_nil, Finset.sdiff_empty, sum_nodeFreq_eq_freqTotal fun _ => get?_node_afterTreeBuild] at hcost
  calc codeCost (fun v => (s.freqAt v.toNat).toNat) codes
      ≤ 0 + freqTotal ((treePool s.mem.freq).drop (leaves s.mem.freq).length) := by simpa [stackCost] using hcost
    _ ≤ 8 * frequencySum s := (Nat.zero_add _).trans_le (freqTotal_inner_treePool_le hpos hle)

/-! ### The code bits of the input -/

/-- Counted symbol by symbol, the code bits of the input are the weighed length of its codes. -/
theorem length_codeBits_eq {syms : List Byte} {codes : List (Byte × Bits)} {code : Byte → Bits}
    (hnd : (codes.map Prod.fst).Nodup) (hcode : ∀ e ∈ codes, code e.1 = e.2)
    (hsyms : ∀ v, v ∈ codes.map Prod.fst ↔ v ∈ syms) :
    ((syms.map code).flatten).length = codeCost (fun v => syms.count v) codes := by
  have hset : syms.toFinset = (codes.map Prod.fst).toFinset := Finset.ext fun v => by
    rw [List.mem_toFinset, List.mem_toFinset, hsyms]
  calc ((syms.map code).flatten).length
      = (syms.map fun v => (code v).length).sum := by rw [List.length_flatten, List.map_map]; rfl
    _ = ∑ v ∈ (codes.map Prod.fst).toFinset, syms.count v * (code v).length := by
        rw [Finset.sum_list_map_count, hset]
        rfl
    _ = (codes.map fun e => syms.count e.1 * (code e.1).length).sum := by
        rw [List.sum_toFinset _ hnd, List.map_map]
        rfl
    _ = codeCost (fun v => syms.count v) codes :=
        congrArg List.sum (List.map_congr_left fun e he => by rw [hcode e he])

end Sys2Proof.Proofs
end

section
/-! PROOFS. HUFF_ENCODE is FREQ_COUNT, TREE_BUILD, CODE_GEN and PACK one after the other (46_pipeline.md R220). -/

namespace Sys2Proof.Proofs

open Sys2Proof.Machine Sys2Proof.Stated

/-! ### A command after a completed one -/

/-- A pseudocode that does the same after a completion: it depends on neither STATUS nor the pending bit. -/
def KeepsCompletion (f : State → CommandResult) : Prop :=
  ∀ s, f (completed s) = mapResult completed (f s)

theorem finish_mapResult_completed (r : CommandResult) : finish (mapResult completed r) = finish r := by
  cases r <;> rfl

theorem keepsCompletion_ofExcept {f : State → Except Stop State} (h : ∀ s, f (completed s) = (f s).map completed) :
    KeepsCompletion fun s => .ofExcept s (f s) := fun s =>
  (congrArg (CommandResult.ofExcept (completed s)) (h s)).trans (ofExcept_map s (f s))

theorem treeBuildResult_keepsCompletion : KeepsCompletion treeBuildResult :=
  keepsCompletion_ofExcept fun s => by
    unfold treeBuild
    exact ite_eq_map rfl (ite_eq_map rfl rfl)

theorem codeGenResult_keepsCompletion : KeepsCompletion codeGenResult :=
  keepsCompletion_ofExcept fun _ => ite_eq_map rfl (bind_eq_map fun _ => rfl)

theorem packResult_keepsCompletion : KeepsCompletion packResult :=
  keepsCompletion_ofExcept fun _ => bind_eq_map fun _ => bind_eq_map fun _ => ite_eq_map rfl rfl

section Chain
variable {r : CommandResult} {f : State → CommandResult} {s t : State}
  (hr : Ends (fun _ u => u.status = s.status) r) (h : finish r = .next t)
include hr h

/-- Where the first pseudocode ends in an error, it ends both. -/
theorem finish_andThen_of_err (f : State → CommandResult) (hs : s.status.err = false)
    (herr : t.status.err = true) : finish (r.andThen f) = .next t := by
  cases hr with
  | done hu =>
    cases h
    exact absurd (herr.symm.trans ((congrArg Status.err hu).trans hs)) (by decide)
  | raised _ => exact h
  | fault x => exact h

/-- Where the first completes without an error, the second goes on as if it were the next command. -/
theorem finish_andThen_of_no_err (hf : KeepsCompletion f) (herr : t.status.err = false) :
    finish (r.andThen f) = finish (f t) := by
  cases hr with
  | @done u _ =>
    cases h
    exact (finish_mapResult_completed (f u)).symm.trans (congrArg finish (hf u).symm)
  | raised _ =>
    cases h
    cases herr
  | fault x => cases h

end Chain

/-- Settles O50: each command goes on where the one before completed, and an error ends the rest. -/
theorem huffEncodeIsTheFourCommands : Obligations.HuffEncodeIsTheFourCommands := by
  refine ⟨decode_encode .huffEncode, fun s s1 hs h1 => ?_⟩
  have hstatus {r : CommandResult} {f : State → CommandResult} (hr : Ends (fun _ u => u.status = s.status) r)
      (hf : ∀ u, Ends (fun _ v => v.status = u.status) (f u)) : Ends (fun _ u => u.status = s.status) (r.andThen f) :=
    ends_andThen hr fun u hu => hu ▸ hf u
  have hr1 : Ends (fun _ u => u.status = s.status) (freqCountResult s) := commandResult_status .freqCount s
  have hr2 := hstatus hr1 (commandResult_status .treeBuild)
  have hr3 := hstatus hr2 (commandResult_status .codeGen)
  refine ⟨fun herr => ?_, fun hok1 s2 h2 => ?_⟩
  · have h1 := finish_andThen_of_err hr1 h1 treeBuildResult hs herr
    have h1 := finish_andThen_of_err hr2 h1 codeGenResult hs herr
    exact finish_andThen_of_err hr3 h1 packResult hs herr
  replace h2 := (finish_andThen_of_no_err hr1 h1 treeBuildResult_keepsCompletion hok1).trans h2
  refine ⟨fun herr => ?_, fun hok2 s3 h3 => ?_⟩
  · have h2 := finish_andThen_of_err hr2 h2 codeGenResult hs herr
    exact finish_andThen_of_err hr3 h2 packResult hs herr
  replace h3 := (finish_andThen_of_no_err hr2 h2 codeGenResult_keepsCompletion hok2).trans h3
  refine ⟨finish_andThen_of_err hr3 h3 packResult hs, fun hok3 s4 h4 => ?_⟩
  exact (finish_andThen_of_no_err hr3 h3 packResult_keepsCompletion hok3).trans h4

end Sys2Proof.Proofs
end

section
/-! PROOFS. HUFF_ENCODE on a loaded grid (46_pipeline.md R220, R221): the tables that its first three commands make of
the input, the block that it leaves, and that after a good CheckN it cannot fail. -/

namespace Sys2Proof.Proofs

open Sys2Proof.Machine Sys2Proof.Stated

/-! ### The first three commands -/

/-- The state that FREQ_COUNT of `syms` leaves, before completion. -/
def afterFreqCount (syms : List Byte) (s : State) : State :=
  { s with mem := { s.mem with freq := countSymbols syms } }

theorem freqCount_of_gridLoaded {s : State} {syms : List Byte} (h : GridLoaded s syms) :
    freqCount s = .ok (afterFreqCount syms s) := by
  obtain ⟨hn, hr⟩ := (gridLoaded_iff s syms).mp h
  simp [freqCount, afterFreqCount, hn, hr, bind, Except.bind, pure, Except.pure]

theorem treeBuild_of_sum_in_range {s : State} (hpos : 0 < frequencySum s) (hle : frequencySum s ≤ 0xFFFFFFFF) :
    treeBuild s = .ok (afterTreeBuild s) := by
  have hne : freqSum s.mem.freq ≠ 0 := hpos.ne'
  have hcap : ¬ Config.freqSumMax < freqSum s.mem.freq := hle.not_gt
  have hroot : _ = (treePool s.mem.freq).length - 1 := (treePool_merging hpos hle).2
  rw [treeBuild, if_neg hne, if_neg hcap, afterTreeBuild, withTree, ← hroot, treePool, List.length_append]

theorem codeGen_of_treeCodes {s : State} {codes : List (Byte × Bits)} (hcount : s.nodeCount ≠ 0#10)
    (h : treeCodes s.mem.node s.root.toNat = .ok codes) : codeGen s = .ok (afterCodeGen codes s) := by
  rw [codeGen, if_neg hcount, h]
  rfl

/-- Where the first three commands run to their end, HUFF_ENCODE ends as PACK does (R220). -/
theorem exec_huffEncode_eq_exec_pack {s a b c : State} (hfreq : freqCount s = .ok a) (htree : treeBuild a = .ok b)
    (hcode : codeGen b = .ok c) : exec .huffEncode s = exec .pack c := by
  have h : huffEncodeResult s = packResult c := by
    simp only [huffEncodeResult, freqCountResult, hfreq, CommandResult.ofExcept, CommandResult.andThen, treeBuildResult,
      htree, codeGenResult, hcode]
  exact congrArg finish h

/-! ### What CODE_GEN keeps -/

section AfterCodeGen
variable (codes : List (Byte × Bits)) (s : State)

@[simp] theorem afterCodeGen_leafCount : (afterCodeGen codes s).leafCount = s.leafCount := by rw [afterCodeGen]

@[simp] theorem afterCodeGen_nodeCount : (afterCodeGen codes s).nodeCount = s.nodeCount := by rw [afterCodeGen]

@[simp] theorem afterCodeGen_root : (afterCodeGen codes s).root = s.root := by rw [afterCodeGen]

@[simp] theorem afterCodeGen_node : (afterCodeGen codes s).mem.node = s.mem.node := recordCodes_node s.mem codes

@[simp] theorem afterCodeGen_freq : (afterCodeGen codes s).mem.freq = s.mem.freq :=
  congrArg (fun u => u.mem.freq) (afterCodeGen_eq codes s)

@[simp] theorem nodeAt_afterCodeGen (id : Nat) : (afterCodeGen codes s).nodeAt id = s.nodeAt id := by
  rw [State.nodeAt, afterCodeGen_node, State.nodeAt]

@[simp] theorem hasLeaf_afterCodeGen_iff (v : Byte) : hasLeaf (afterCodeGen codes s) v ↔ hasLeaf s v := by
  simp only [hasLeaf, afterCodeGen_leafCount, nodeAt_afterCodeGen]

end AfterCodeGen

/-- CODE_GEN records each leaf's path as its code (R171), and "0" for a leaf root (R172). -/
theorem leaf_code_afterCodeGen {s : State} {codes : List (Byte × Bits)}
    (hshape : TreeShape s.mem.node s.leafCount.toNat s.nodeCount.toNat s.root.toNat)
    (hcodes : CodesOfTree s.mem.node s.leafCount.toNat s.root.toNat codes) {id : Nat} {n : NodeEntry}
    (hid : id < s.leafCount.toNat) (hn : s.nodeAt id = some n) :
    if s.leafCount = 1#9 then codeOf (afterCodeGen codes s).mem n.symbol = [false]
    else followPath s.mem.node s.root.toNat (codeOf (afterCodeGen codes s).mem n.symbol) = some id := by
  obtain ⟨p, hp, hone, hpath⟩ := hcodes.exists_code_of_leaf hshape hid hn
  have hcode : codeOf (afterCodeGen codes s).mem n.symbol = p := hcodes.codeOf_eq s.mem hp
  rw [hcode]
  split
  · next hk => exact hone (congrArg BitVec.toNat hk)
  · next hk => exact hpath fun h => hk (BitVec.eq_of_toNat_eq h)

/-! ### The counts and the tree of the input -/

theorem count_map_toNat (syms : List Byte) (v : Byte) : (syms.map BitVec.toNat).count v.toNat = syms.count v :=
  List.count_map_of_injective syms BitVec.toNat (fun _ _ => BitVec.eq_of_toNat_eq) v

/-- The state that TREE_BUILD after FREQ_COUNT of `syms` leaves, before completion. -/
def encoderTree (syms : List Byte) (s : State) : State := afterTreeBuild (afterFreqCount syms s)

section Tree
variable {s : State} {syms : List Byte} {codes : List (Byte × Bits)} (hlen : syms.length < 2 ^ 32)
include hlen

theorem frequencySum_afterFreqCount : frequencySum (afterFreqCount syms s) = syms.length :=
  freqSum_countSymbols hlen

theorem toNat_freqAt_afterFreqCount (v : Byte) : ((afterFreqCount syms s).freqAt v.toNat).toNat = syms.count v :=
  (toNat_read_countSymbols hlen v.toNat).trans (count_map_toNat syms v)

/-- The leaves are those of the symbols present. -/
theorem hasLeaf_encoderTree_iff (v : Byte) : hasLeaf (encoderTree syms s) v ↔ v ∈ syms :=
  (hasLeaf_afterTreeBuild_iff (afterFreqCount syms s) v).trans
    ((read_countSymbols_ne_zero_iff hlen v.toNat).trans (List.mem_map_of_injective fun _ _ => BitVec.eq_of_toNat_eq))

variable (hpos : 0 < syms.length)
include hpos

theorem treeBuild_afterFreqCount : treeBuild (afterFreqCount syms s) = .ok (encoderTree syms s) := by
  have hsum : frequencySum (afterFreqCount syms s) = syms.length := frequencySum_afterFreqCount hlen
  exact treeBuild_of_sum_in_range (by omega) (by omega)

theorem treeShape_encoderTree : TreeShape (encoderTree syms s).mem.node (encoderTree syms s).leafCount.toNat
    (encoderTree syms s).nodeCount.toNat (encoderTree syms s).root.toNat := by
  have hsum : frequencySum (afterFreqCount syms s) = syms.length := frequencySum_afterFreqCount hlen
  exact treeShape_afterTreeBuild (by omega) (by omega)

/-- The codes of the tree are those of the symbols present. -/
theorem mem_codes_encoderTree_iff (hcodes : CodesOfTree (encoderTree syms s).mem.node
      (encoderTree syms s).leafCount.toNat (encoderTree syms s).root.toNat codes) (v : Byte) :
    v ∈ codes.map Prod.fst ↔ v ∈ syms := by
  rw [hcodes.symbol_iff, ← hasLeaf_iff (treeShape_encoderTree hlen hpos), hasLeaf_encoderTree_iff hlen]

/-- One-bit codes take N bits, and the codes of a greater tree meet the bound of its merges (R221). -/
theorem length_codeBits_le
    (hok : treeCodes (encoderTree syms s).mem.node (encoderTree syms s).root.toNat = .ok codes)
    (hcodes : CodesOfTree (encoderTree syms s).mem.node (encoderTree syms s).leafCount.toNat
      (encoderTree syms s).root.toNat codes) (m : Memory) :
    ((syms.map (codeOf (recordCodes m codes))).flatten).length ≤ 8 * syms.length := by
  have hsyms := mem_codes_encoderTree_iff hlen hpos hcodes
  by_cases hk : (encoderTree syms s).leafCount.toNat = 1
  · have hone : ∀ v ∈ syms, codeOf (recordCodes m codes) v = [false] := fun v hv =>
      hcodes.eq_zero_of_leaf_root hk _
        (hcodes.mem_of_codeLen_ne_zero m ((hcodes.codeLen_ne_zero_iff m v).mpr ((hsyms v).mpr hv)))
    have hbits : ((syms.map (codeOf (recordCodes m codes))).flatten).length = syms.length := by
      rw [List.map_congr_left hone]
      simp
    omega
  · have hsum : frequencySum (afterFreqCount syms s) = syms.length := frequencySum_afterFreqCount hlen
    rw [encoderTree, toNat_leafCount_afterTreeBuild] at hk
    have hcost := codeCost_afterTreeBuild_le (by omega) (by omega) hk hok
    simp only [toNat_freqAt_afterFreqCount hlen, hsum] at hcost
    rwa [length_codeBits_eq hcodes.nodup (fun e he => hcodes.codeOf_eq _ he) hsyms]

end Tree

/-! ### The tables before PACK -/

/-- What the first three commands make of the input `syms`, from `s` to `c`: the counts, a tree over the symbols
present, each leaf's path as its code, and codes short enough for R221. They change nothing else. -/
structure EncoderTables (syms : List Byte) (s c : State) : Prop where
  frame : c = { s with
    leafCount := c.leafCount, nodeCount := c.nodeCount, root := c.root, maxCodeLen := c.maxCodeLen
    mem := { s.mem with freq := c.mem.freq, node := c.mem.node, codeLen := c.mem.codeLen, codeBits := c.mem.codeBits } }
  freq_eq : c.mem.freq = countSymbols syms
  shape : TreeShape c.mem.node c.leafCount.toNat c.nodeCount.toNat c.root.toNat
  leaf_iff : ∀ v : Byte, hasLeaf c v ↔ v ∈ syms
  code_iff : ∀ v : Byte, HasCode c.mem v ↔ v ∈ syms
  leaf_code : ∀ id n, id < c.leafCount.toNat → c.nodeAt id = some n →
    if c.leafCount = 1#9 then codeOf c.mem n.symbol = [false]
    else followPath c.mem.node c.root.toNat (codeOf c.mem n.symbol) = some id
  bits_le : ((syms.map (codeOf c.mem)).flatten).length ≤ 8 * syms.length

/-- CODE_GEN completes the tables. -/
theorem encoderTables_afterCodeGen {s : State} {syms : List Byte} {codes : List (Byte × Bits)}
    (hlen : syms.length < 2 ^ 32) (hpos : 0 < syms.length)
    (hok : treeCodes (encoderTree syms s).mem.node (encoderTree syms s).root.toNat = .ok codes)
    (hcodes : CodesOfTree (encoderTree syms s).mem.node (encoderTree syms s).leafCount.toNat
      (encoderTree syms s).root.toNat codes) :
    EncoderTables syms s (afterCodeGen codes (encoderTree syms s)) where
  frame := by
    rw [afterCodeGen_leafCount, afterCodeGen_nodeCount, afterCodeGen_root, afterCodeGen_freq, afterCodeGen_node]
    exact afterCodeGen_eq codes _
  freq_eq := afterCodeGen_freq codes _
  shape := by
    rw [afterCodeGen_node, afterCodeGen_leafCount, afterCodeGen_nodeCount, afterCodeGen_root]
    exact treeShape_encoderTree hlen hpos
  leaf_iff v := (hasLeaf_afterCodeGen_iff codes _ v).trans (hasLeaf_encoderTree_iff hlen v)
  code_iff v := (hcodes.codeLen_ne_zero_iff _ v).trans (mem_codes_encoderTree_iff hlen hpos hcodes v)
  leaf_code id n hid hn := by
    rw [afterCodeGen_leafCount] at hid ⊢
    rw [nodeAt_afterCodeGen] at hn
    rw [afterCodeGen_node, afterCodeGen_root]
    exact leaf_code_afterCodeGen (treeShape_encoderTree hlen hpos) hcodes hid hn
  bits_le := length_codeBits_le hlen hpos hok hcodes _

/-- On a loaded grid the first three commands run to their end, and PACK goes on from their tables. -/
theorem exists_encoderTables {s : State} {syms : List Byte} (hlen : syms.length < 2 ^ 32) (h : GridLoaded s syms) :
    ∃ c, EncoderTables syms s c ∧ exec .huffEncode s = exec .pack c := by
  have hpos : 0 < syms.length := h.size_eq ▸ h.size_pos
  have hshape := treeShape_encoderTree (s := s) hlen hpos
  obtain ⟨codes, hok, hcodes⟩ := exists_treeCodes hshape
  exact ⟨_, encoderTables_afterCodeGen hlen hpos hok hcodes, exec_huffEncode_eq_exec_pack (freqCount_of_gridLoaded h)
    (treeBuild_afterFreqCount hlen hpos) (codeGen_of_treeCodes (nodeCount_ne_zero_of_treeShape hshape) hok)⟩

section Tables
variable {syms : List Byte} {s c : State} (hc : EncoderTables syms s c)
include hc

theorem EncoderTables.gridLoaded (h : GridLoaded s syms) : GridLoaded c syms := by
  rw [hc.frame]
  exact ⟨h.size_eq, h.size_pos, h.size_le, h.sym_eq⟩

theorem EncoderTables.freqAt_eq (v : Byte) : c.freqAt v.toNat = BitVec.ofNat 32 (syms.count v) := by
  rw [State.freqAt, hc.freq_eq, read_countSymbols, count_map_toNat]

/-- OUT and its registers, the parameters and ERR are as they were before HUFF_ENCODE. -/
theorem EncoderTables.kept : c.params = s.params ∧ c.status.err = s.status.err ∧ c.outLen = s.outLen ∧
    c.totalBits = s.totalBits ∧ c.padding = s.padding ∧ c.mem.out = s.mem.out := by
  rw [hc.frame]
  exact ⟨rfl, rfl, rfl, rfl, rfl, rfl⟩

end Tables

/-! ### The block that HUFF_ENCODE leaves -/

/-- Settles O51: PACK of the input's codes, in the tables of the first three commands. -/
theorem huffEncodeLeavesTheBlock : Obligations.HuffEncodeLeavesTheBlock := by
  intro s syms hmax h
  have hlen : syms.length ≤ 2 ^ 24 := h.size_eq.trans_le (h.size_le.trans hmax)
  obtain ⟨c, hc, hexec⟩ := exists_encoderTables (by omega) h
  obtain ⟨hparams, herr, houtLen, htotal, hpadding, hout⟩ := hc.kept
  obtain ⟨-, hpack⟩ := packWritesTheStream
  obtain ⟨-, -, hpack⟩ := hpack c
  obtain ⟨-, hpack⟩ := hpack syms (hc.gridLoaded h)
  obtain ⟨hlong, hfit⟩ := hpack (fun v hv => (hc.code_iff v).mpr hv) _ rfl
  have hbits := hc.bits_le
  rw [← hparams]
  rcases Nat.lt_or_ge c.params.outMax (2 + ((syms.map (codeOf c.mem)).flatten).length / 8) with hlt | hge
  · refine ⟨_, hexec.trans (hlong hlt), hc.freqAt_eq, hc.shape, hc.leaf_iff, hc.code_iff, hc.leaf_code, ?_⟩
    rintro bits rfl
    exact ⟨fun _ => ⟨rfl, rfl, houtLen, htotal, hpadding, hout⟩, fun hle => absurd hlt hle.not_gt⟩
  · obtain ⟨t, hdone, hheader, hdata, hzeros, -, ht⟩ := hfit hge
    generalize t.mem.out = out at ht
    subst ht
    refine ⟨_, hexec.trans hdone, hc.freqAt_eq, hc.shape, hc.leaf_iff, hc.code_iff, hc.leaf_code, ?_⟩
    rintro bits rfl
    exact ⟨fun hlt => absurd hlt hge.not_gt, fun _ => ⟨herr, Nat.mod_eq_of_lt (by omega), Nat.mod_eq_of_lt (by omega),
      Nat.mod_eq_of_lt (by omega), hheader, hdata, hzeros⟩⟩

/-- Settles O52: at most 8N code bits make a stream that fits every legal OUT_MAX. -/
theorem huffEncodeCannotFail : Obligations.HuffEncodeCannotFail := by
  intro s syms hp herr h
  have hlen := length_lt_of_gridLoaded hp h
  have hsize := h.size_eq
  have hcap := h.size_le
  obtain ⟨hnMax, -⟩ := legal_bounds hp
  have hroom : s.params.nMax + 2 ≤ s.params.outMax := by
    simp only [Params.legal, Bool.and_eq_true, decide_eq_true_eq] at hp
    omega
  obtain ⟨t, hexec, -, hshape, -, hcodes, -, hpacked⟩ := huffEncodeLeavesTheBlock s syms hnMax h
  obtain ⟨c, hc, hpack⟩ := exists_encoderTables hlen h
  have hpc : c.params.legal = true := by rwa [hc.frame]
  obtain ⟨hframe, -⟩ := eachCommandKeepsItsFrame .pack c t hpc (hpack.symm.trans hexec)
  have hfreq : t.mem.freq = countSymbols syms := (congrArg (fun u => u.mem.freq) hframe).trans hc.freq_eq
  have hsame : SameCodes c.mem t.mem := fun v => congrArg (fun u => codeEntry u.mem v) hframe
  have hsum : frequencySum t = syms.length := (congrArg freqSum hfreq).trans (freqSum_countSymbols hlen)
  have hbits := hc.bits_le
  rw [← hsame.codeOf_eq] at hbits
  obtain ⟨-, hfit⟩ := hpacked _ rfl
  obtain ⟨hterr, houtLen, htotal, -⟩ := hfit (by omega)
  exact ⟨t, hexec, hterr.trans herr, hsum.trans hsize, nodeCount_ne_zero_of_treeShape hshape,
    fun v hv => (hcodes v).mpr hv, by omega, by omega⟩

end Sys2Proof.Proofs
end

section
/-! PROOFS. The host's size and ratio accounting (47_host_accounting.md R236, R237). -/

namespace Sys2Proof.Proofs

open Sys2Proof.Machine Sys2Proof.Stated

/-! ### The ratio (R236) -/

theorem ratio_of_pos {o : Nat} (ho : 0 < o) (c : Nat) : ratio o c = (1 - (c : Rat) / o) * 100 := if_neg ho.ne'

theorem ratio_lt_hundred {o c : Nat} (ho : 0 < o) (hc : 0 < c) : ratio o c < 100 := by
  have hquot : (0 : Rat) < c / o := div_pos (Nat.cast_pos.mpr hc) (Nat.cast_pos.mpr ho)
  rw [ratio_of_pos ho]
  linarith

theorem ratio_zero_right {o : Nat} (ho : 0 < o) : ratio o 0 = 100 := by
  rw [ratio_of_pos ho, Nat.cast_zero, zero_div, sub_zero, one_mul]

/-- The ratio is negative exactly on expansion, that is, where the quotient of the sizes is above 1. -/
theorem ratio_neg_iff {o c : Nat} (ho : 0 < o) : ratio o c < 0 ↔ o < c := by
  have hquot : (1 : Rat) < c / o ↔ o < c := by rw [one_lt_div (Nat.cast_pos.mpr ho), Nat.cast_lt]
  rw [ratio_of_pos ho, ← hquot]
  constructor <;> intro h <;> linarith

/-! ### The sizes after an encode (R237) -/

/-- A stream has its header byte and, as the padding is never empty (R192), a byte of data; OUT_LEN is not cut, as it is
at most OUT_MAX. -/
theorem two_le_outLen_of_pack {s t : State} (hp : s.params.legal = true) (h : pack s = .ok t) :
    2 ≤ t.outLen.toNat := by
  obtain ⟨codes, -, -, -, hfit, rfl⟩ := pack_ok h
  have hlen : 2 ≤ packedLen codes.flatten.length := (packedLen_eq _).symm ▸ Nat.le_add_right _ _
  obtain ⟨-, hmax, -⟩ := legal_bounds hp
  exact hlen.trans_eq (Nat.mod_eq_of_lt (by omega)).symm

theorem rleWords_ne_nil {syms : List Byte} (hne : syms ≠ []) : rleWords syms ≠ [] := by
  intro hnil
  have hexpand := expand_rleTokens syms
  rw [List.map_eq_nil_iff.mp hnil] at hexpand
  exact hne hexpand.symm

/-- A grid holds a symbol, and so its encoding a token. -/
theorem rleCount_pos_of_rleEncode {s t : State} {syms : List Byte} (hp : s.params.legal = true)
    (hgrid : GridLoaded s syms) (h : exec .rleEncode s = .next t) : 0 < t.rleCount.toNat := by
  have hlen := length_lt_of_gridLoaded hp hgrid
  have hne : syms ≠ [] := List.ne_nil_of_length_pos (hgrid.size_eq ▸ hgrid.size_pos)
  obtain rfl : afterRleEncode s syms = t := by simpa [exec_rleEncode_of_gridLoaded hgrid] using h
  rw [(holdsTokens_afterRleEncode s hlen).count_eq]
  exact List.length_pos_of_ne_nil (rleWords_ne_nil hne)

/-- Settles O53: the quotient of the sizes against 0 and 1, the header and the padding of a stream, and the first token
of a grid. -/
theorem ratioBounds : Obligations.RatioBounds := by
  refine ⟨fun c => if_pos rfl, fun o c ho => ⟨ratio_lt_hundred ho, ratio_zero_right ho, ratio_neg_iff ho⟩,
    fun s t syms hp _ hgrid => ⟨fun hexec herr => ?_, fun hexec => ?_⟩⟩
  · obtain ⟨u, hdone, rfl⟩ := exists_done_of_err_eq_false hexec herr
    have hlen := two_le_outLen_of_pack hp ((ofExcept_eq_done_iff s u _).mp hdone)
    exact hlen
  · have hpos := rleCount_pos_of_rleEncode hp hgrid hexec
    omega

end Sys2Proof.Proofs
end

section
/-! PROOFS. The engine's step and the end of a command, in a next state, in an error or in a fault (60_exceptions.md
R254, R259, 70_reset_and_hazards.md R286, R289). -/

namespace Sys2Proof.Proofs

open Sys2Proof.Machine Sys2Proof.Stated

/-- Settles O11: no loop of a command faults in a state that meets the invariant, and every loop ends. -/
theorem everyCommandCompletes : Obligations.EveryCommandCompletes :=
  fun _ _ hs h => exec_completes hs h

/-! ### The engine's step runs the decoded latch (R259) -/

theorem engineStep_of_decode {s : State} {i : Instr} (h : decode s.latch = .ok i) : engineStep s = exec i s := by
  rw [engineStep, fetch, h]

theorem takeTurn_of_pending {s : State} (h : s.pending = true) : takeTurn s = { s with sched := s.sched.tail } := by
  rw [takeTurn, if_pos h]

theorem step_of_engine_decode {s : State} {i : Instr} (hpending : s.pending = true)
    (hturn : ¬ (s.sched.head? = some .host ∧ s.script ≠ [])) (hd : decode s.latch = .ok i) :
    step s = exec i { s with sched := s.sched.tail } := by
  rw [step_of_engine ((whoMoves_engine_iff s).mpr ⟨hpending, hturn⟩), engineStep_of_decode (s := takeTurn s) hd,
    takeTurn_of_pending hpending]

/-- A whole word placed in the latch is that word accepted, with the engine next (log 2). -/
theorem withFetchWord_toNat (s : State) (c : Word) :
    s.withFetchWord 32 c.toNat = { accept c s with sched := .engine :: s.sched } := by
  rw [State.withFetchWord, Nat.mod_eq_of_lt c.isLt, BitVec.ofNat_toNat, BitVec.setWidth_eq]

/-- Settles O4: the engine's turn decodes the latch, and a command's word decodes to the command. -/
theorem stepRunsDecodedCommand : Obligations.StepRunsDecodedCommand := by
  refine ⟨fun s i => step_of_engine_decode, fun s i => ?_⟩
  rw [withFetchWord_toNat]
  exact step_of_engine_decode rfl (fun h => nomatch h.1) (decode_encode i)

/-! ### What an error leaves (R254) -/

theorem eq_of_ofExcept_eq_raised {s u : State} {x : Except Stop State} {e : ErrorCode}
    (h : CommandResult.ofExcept s x = .raised e u) : u = s := by
  rcases x with (e' | f) | t <;> cases h
  rfl

/-- A command other than HUFF_ENCODE that raises has written nothing, but for UNPACK's DECODE_MISMATCH. -/
theorem commandResult_raised_cases {i : Instr} {s u : State} {e : ErrorCode} (hi : i ≠ .huffEncode)
    (h : commandResult i s = .raised e u) : u = s ∨ (i = .unpack ∧ unpack s = .error (.raised .decodeMismatch)) := by
  cases i with
  | nop => cases h
  | clear => cases h
  | freqCount => exact .inl (eq_of_ofExcept_eq_raised h)
  | rleEncode => exact .inl (eq_of_ofExcept_eq_raised h)
  | rleDecode => exact .inl (eq_of_ofExcept_eq_raised h)
  | treeBuild =>
    rw [commandResult] at h
    exact .inl (eq_of_ofExcept_eq_raised h)
  | codeGen => exact .inl (eq_of_ofExcept_eq_raised h)
  | pack => exact .inl (eq_of_ofExcept_eq_raised h)
  | unpack =>
    rw [commandResult, unpackResult] at h
    split at h
    · cases h
    · next hu => exact .inr ⟨rfl, hu⟩
    · cases h
      exact .inl rfl
    · cases h
  | huffEncode => exact absurd rfl hi

/-- Settles O8: a command that ran to its end has left ERR at 0, and one that raised has written nothing or is UNPACK
with its DECODE_MISMATCH. -/
theorem failedCommandChangesOnlyStatus : Obligations.FailedCommandChangesOnlyStatus := by
  intro i s t hi hs h herr
  have hstatus := commandResult_status i s
  rcases (finish_next_iff _ t).mp ((exec_eq_finish i s).symm.trans h) with ⟨u, hu, rfl⟩ | ⟨e, u, hu, rfl⟩
  · rw [hu] at hstatus
    cases hstatus with
    | done hst => exact absurd (herr.symm.trans ((congrArg Status.err hst).trans hs)) nofun
  · rcases commandResult_raised_cases hi hu with rfl | ⟨rfl, hmismatch⟩
    · exact .inl rfl
    · obtain ⟨t, ht, hleft⟩ := exec_unpack_of_mismatch hmismatch
      cases ht.symm.trans h
      exact .inr ⟨rfl, hleft⟩

/-! ### The fault at the first unwritten symbol (R286) -/

theorem exec_of_fault {i : Instr} {s : State} {f : Fault} (h : commandResult i s = .fault f) : exec i s = .fault f := by
  rw [exec_eq_finish, h]
  rfl

theorem readOperand_of_unwritten {α : Type} (name : Operand) {m : Sparse α} {i : Nat} (h : Sparse.get? m i = none) :
    readOperand name m i = .error (.fault (.unwrittenOperand name i)) :=
  (readOperand_error_iff name m i _).mpr ⟨h, rfl⟩

theorem exists_readOperand_ok {α : Type} (name : Operand) {m : Sparse α} {i : Nat} (h : Sparse.get? m i ≠ none) :
    ∃ v, readOperand name m i = .ok v := by
  obtain ⟨v, hv⟩ := Option.ne_none_iff_exists'.mp h
  exact ⟨v, (readOperand_ok_iff name m i v).mpr hv⟩

section FirstUnwritten
variable {i k n : Nat} (hi : i ≤ k) (hk : k < i + n)
include hi hk

/-- A range read faults at the first UNSPECIFIED element of the range (R114, R286). -/
theorem readRange_of_first_unwritten {α : Type} (name : Operand) {m : Sparse α} (hnone : Sparse.get? m k = none)
    (hbefore : ∀ j, i ≤ j → j < k → Sparse.get? m j ≠ none) :
    readRange name m i n = .error (.fault (.unwrittenOperand name k)) := by
  induction n generalizing i with
  | zero => omega
  | succ n ih =>
    rcases hi.eq_or_lt with rfl | hlt
    · simp [readRange, readOperand_of_unwritten name hnone, bind, Except.bind]
    · obtain ⟨v, hv⟩ := exists_readOperand_ok name (hbefore i le_rfl hlt)
      have hrest := ih hlt (by omega) fun j hj => hbefore j (by omega)
      simp [readRange, hv, hrest, bind, Except.bind]

/-- PACK's validation pass faults at the first UNSPECIFIED symbol, where every symbol before it has a code (log 12). -/
theorem readCodes_of_first_unwritten {m : Memory} (hnone : Sparse.get? m.sym k = none)
    (hbefore : ∀ j, i ≤ j → j < k → ∃ v, Sparse.get? m.sym j = some v ∧ HasCode m v) :
    readCodes m i n = .error (.fault (.unwrittenOperand .sym k)) := by
  induction n generalizing i with
  | zero => omega
  | succ n ih =>
    rcases hi.eq_or_lt with rfl | hlt
    · simp [readCodes, readOperand_of_unwritten .sym hnone, bind, Except.bind]
    · obtain ⟨v, hv, hcode⟩ := hbefore i le_rfl hlt
      have hrest := ih hlt (by omega) fun j hj => hbefore j (by omega)
      rw [readCodes, (readOperand_ok_iff _ _ _ _).mpr hv, hrest]
      exact if_neg hcode

end FirstUnwritten

/-- Behind a good CheckN the pseudocode goes on with N (R112). -/
theorem checkN_bind_of_ok {s : State} (hpos : 1 ≤ gridSize s) (hle : gridSize s ≤ s.params.nMax)
    (f : Nat → Except Stop State) : checkN s >>= f = f (gridSize s) := by
  rw [(checkN_ok_iff s _).mpr ⟨rfl, hpos, hle⟩]
  rfl

/-- Settles O31: the three commands begin with the range read of SYM, and PACK with its validation pass. -/
theorem unwrittenOperandFaults : Obligations.UnwrittenOperandFaults := by
  intro s k hpos hle hk hnone hbefore
  have hbegin {f : Nat → Except Stop State} (h : f (gridSize s) = .error (.fault (.unwrittenOperand .sym k))) :
      CommandResult.ofExcept s (checkN s >>= f) = .fault (.unwrittenOperand .sym k) := by
    rw [checkN_bind_of_ok hpos hle, h]
    rfl
  have hbegin_read (f : List Byte → Except Stop State) :
      CommandResult.ofExcept s (checkN s >>= fun n => readRange .sym s.mem.sym 0 n >>= f) =
        .fault (.unwrittenOperand .sym k) := by
    refine hbegin ?_
    rw [readRange_of_first_unwritten k.zero_le (by omega) .sym hnone fun j _ => hbefore j]
    rfl
  refine ⟨fun i hi => exec_of_fault ?_, fun hcodes => exec_of_fault (hbegin ?_)⟩
  · simp only [List.mem_cons, List.not_mem_nil, or_false] at hi
    rcases hi with rfl | rfl | rfl
    · exact hbegin_read _
    · exact hbegin_read _
    · have hfreq : freqCountResult s = .fault (.unwrittenOperand .sym k) := hbegin_read _
      rw [commandResult, huffEncodeResult, hfreq]
      rfl
  · rw [readCodes_of_first_unwritten k.zero_le (by omega) hnone fun j _ hj => ?_]
    · rfl
    · obtain ⟨v, hv⟩ := Option.ne_none_iff_exists'.mp (hbefore j hj)
      exact ⟨v, hv, hcodes j hj v hv⟩

end Sys2Proof.Proofs
end

section
/-! PROOFS. The host's side while BUSY = 1, and the reset event (70_reset_and_hazards.md R280, R283, R284). -/

namespace Sys2Proof.Proofs

open Sys2Proof.Machine

/-! ### Reads while BUSY = 1 (R284) -/

theorem portRead_of_busy {s : State} {a : Word} (d : Word) (hb : s.status.busy = true)
    (h : ∀ t, resolve s.params a = some t → readableWhileBusy t = false) : portRead s a d = d := by
  unfold portRead
  cases hr : resolve s.params a with
  | none => exact if_pos hb
  | some t => simp [hb, h t hr]

/-- Only the addresses of STATUS, ID and the capability registers lead to what reads true while BUSY = 1. -/
theorem addr_of_readableWhileBusy {p : Params} {a : Word} {t : Target} (h : resolve p a = some t)
    (ht : readableWhileBusy t = true) : a ∈ [0x08#32, 0x00#32, 0x40#32, 0x44#32, 0x48#32] := by
  cases t with
  | reg r =>
    obtain rfl : a = regAddr r := reaches_of_resolve h
    cases r with
    | id | status | capN | capOut | capRle => decide
    | _ => cases ht
  | _ => cases ht

/-- Settles O23: the five registers are read at their own addresses, which no other address shares. -/
theorem busyReadsAreUnspecified : Obligations.BusyReadsAreUnspecified := fun s d hb =>
  ⟨portRead_regAddr (s := s) d .status (.inr rfl), portRead_regAddr (s := s) d .id (.inr rfl),
    portRead_regAddr (s := s) d .capN (.inr rfl), portRead_regAddr (s := s) d .capOut (.inr rfl),
    portRead_regAddr (s := s) d .capRle (.inr rfl), fun _ ha => portRead_of_busy d hb fun _ ht =>
      Bool.eq_false_iff.mpr fun hreadable => ha (addr_of_readableWhileBusy ht hreadable)⟩

/-! ### The host's step on a write while BUSY = 1 (R283) and on the reset event (R280) -/

section HostStep
variable {s : State} {a v : Word} {rest : Script}

theorem hostStep_of_wr_busy (h : s.script = .wr a v :: rest) (hb : s.status.busy = true) :
    hostStep s = .fault (.hostWriteWhileBusy a v) := by
  rw [hostStep, h]
  exact if_pos hb

theorem hostStep_of_reset (h : s.script = .reset :: rest) :
    hostStep s = .next (resetEvent { s with script := rest }) := by
  rw [hostStep, h]

end HostStep

/-- Settles O24: the port ignores the write, and the host's step faults on it. -/
theorem busyWritesFault : Obligations.BusyWritesFault := fun s a v _ hb =>
  ⟨portWrite_of_busy a v hb, fun hs hw => (step_of_host hw).trans (hostStep_of_wr_busy (s := takeTurn s) hs hb)⟩

/-- Settles O14: the host's step on the reset event is the reset event, which depends on the host's own fields and the
parameters alone. -/
theorem resetEventResets : Obligations.ResetEventResets := fun s _ hs hw =>
  ⟨_, (step_of_host hw).trans (hostStep_of_reset (s := takeTurn s) hs), rfl⟩

end Sys2Proof.Proofs
end
